-- ==== Sys2Proof/Word.lean ====
section
/-!
DEFINITION. The N1's value types (spec/00_scope.md R7, R8, R9): cells and instruction words of 16 bits, and the
bytes in which a memory image is written down.
-/

set_option Elab.async false

namespace Sys2Proof

/-- A cell: 16 bits, bit 0 the least significant (R7, R8). A stack cell, an instruction word, a word of main
memory and a word address of main memory are all cells. -/
abbrev Cell := BitVec 16

/-- A byte of a memory image. The machine itself has no byte addressing (R61, R62). -/
abbrev Byte := BitVec 8

end Sys2Proof
end

