-- ==== Sys2Proof/Syntax.lean ====
section
/-!
DEFINITION. Syntax of the N1's instructions: one constructor of Instr per row of spec/opcode_table.json, in the
table's order, and the small name types its operands use (spec/30_encoding.md R90 to R104).
-/

namespace Sys2Proof

/-- The transfer code of a UST field of the stack instruction (R96): nothing, upwards (towards the return
stack), downwards (towards the intermediate parameter stack), or an exchange, which is both at once. -/
inductive Ust where
  | none
  | up
  | down
  | exchange
  deriving DecidableEq, Repr

/-- The 10-bit transition pattern of the stack instruction (R96): the IST field of the parameter stack, the UST
fields between PS3/PS2, PS2/PS1, PS1/PS0 and PS0/RS0, and the IST field of the return stack. -/
structure StkPattern where
  ips : Bool
  u3 : Ust
  u2 : Ust
  u1 : Ust
  u0 : Ust
  irs : Bool
  deriving DecidableEq, Repr

/-- The 25 operators of Table 2-1 (spec/44_alu.md R148), under this spec's mnemonics, without the reserved
encodings. -/
inductive AluOp where
  | sum
  | abs
  | difr
  | dif
  | umin
  | max
  | umax
  | min
  | equ
  | eq
  | neu
  | ne
  | ugt
  | lt
  | ult
  | gt
  | umul
  | smul
  | and
  | xor
  | or
  | lsr
  | lsl
  | asr
  | lithi
  deriving DecidableEq, Repr

/-- The instructions. `r` is the return bit (R91), `imm5` the ALU's operand field, where 0 selects the stack form
(R95), and a `D` at the end of an ALU constructor's name is the double-cell result (`t` = 0). -/
inductive Instr where
  /-- JUMPI (R127). -/
  | jumpi
  /-- CALLI (R129). -/
  | calli
  /-- JUMP (R126). -/
  | jump (a14 : BitVec 14)
  /-- CALL (R128). -/
  | call (a14 : BitVec 14)
  /-- BRZ (R135). -/
  | brz (rel13 : BitVec 13)
  /-- BRZ.r__no_meaning (R137). -/
  | brzReturn (rel13 : BitVec 13)
  /-- LIT (R140). -/
  | lit (r : Bool) (lit12 : BitVec 12)
  /-- LITHI_stack_form__no_meaning (R178). -/
  | lithiStackForm (r : Bool) (t : Bool)
  /-- SUM (R153). -/
  | sum (r : Bool) (imm5 : BitVec 5)
  /-- SUM.D (R153). -/
  | sumD (r : Bool) (imm5 : BitVec 5)
  /-- ABS (R154). -/
  | abs (r : Bool) (imm5 : BitVec 5)
  /-- ABS.D (R154). -/
  | absD (r : Bool) (imm5 : BitVec 5)
  /-- DIFR (R155). -/
  | difr (r : Bool) (imm5 : BitVec 5)
  /-- DIFR.D (R155). -/
  | difrD (r : Bool) (imm5 : BitVec 5)
  /-- DIF (R156). -/
  | dif (r : Bool) (imm5 : BitVec 5)
  /-- DIF.D (R156). -/
  | difD (r : Bool) (imm5 : BitVec 5)
  /-- UMIN (R157). -/
  | umin (r : Bool) (imm5 : BitVec 5)
  /-- UMIN.D (R157). -/
  | uminD (r : Bool) (imm5 : BitVec 5)
  /-- MAX (R158). -/
  | max (r : Bool) (imm5 : BitVec 5)
  /-- MAX.D (R158). -/
  | maxD (r : Bool) (imm5 : BitVec 5)
  /-- UMAX (R159). -/
  | umax (r : Bool) (imm5 : BitVec 5)
  /-- UMAX.D (R159). -/
  | umaxD (r : Bool) (imm5 : BitVec 5)
  /-- MIN (R160). -/
  | min (r : Bool) (imm5 : BitVec 5)
  /-- MIN.D (R160). -/
  | minD (r : Bool) (imm5 : BitVec 5)
  /-- EQU (R161). -/
  | equ (r : Bool) (imm5 : BitVec 5)
  /-- EQU.D (R161). -/
  | equD (r : Bool) (imm5 : BitVec 5)
  /-- EQ (R162). -/
  | eq (r : Bool) (imm5 : BitVec 5)
  /-- EQ.D (R162). -/
  | eqD (r : Bool) (imm5 : BitVec 5)
  /-- NEU (R163). -/
  | neu (r : Bool) (imm5 : BitVec 5)
  /-- NEU.D (R163). -/
  | neuD (r : Bool) (imm5 : BitVec 5)
  /-- NE (R164). -/
  | ne (r : Bool) (imm5 : BitVec 5)
  /-- NE.D (R164). -/
  | neD (r : Bool) (imm5 : BitVec 5)
  /-- UGT (R165). -/
  | ugt (r : Bool) (imm5 : BitVec 5)
  /-- UGT.D (R165). -/
  | ugtD (r : Bool) (imm5 : BitVec 5)
  /-- LT (R166). -/
  | lt (r : Bool) (imm5 : BitVec 5)
  /-- LT.D (R166). -/
  | ltD (r : Bool) (imm5 : BitVec 5)
  /-- ULT (R167). -/
  | ult (r : Bool) (imm5 : BitVec 5)
  /-- ULT.D (R167). -/
  | ultD (r : Bool) (imm5 : BitVec 5)
  /-- GT (R168). -/
  | gt (r : Bool) (imm5 : BitVec 5)
  /-- GT.D (R168). -/
  | gtD (r : Bool) (imm5 : BitVec 5)
  /-- UMUL (R169). -/
  | umul (r : Bool) (imm5 : BitVec 5)
  /-- UMUL.D (R169). -/
  | umulD (r : Bool) (imm5 : BitVec 5)
  /-- SMUL (R170). -/
  | smul (r : Bool) (imm5 : BitVec 5)
  /-- SMUL.D (R170). -/
  | smulD (r : Bool) (imm5 : BitVec 5)
  /-- reserved_ALU_operator_10010 (R179). -/
  | rsv10010 (r : Bool) (imm5 : BitVec 5)
  /-- reserved_ALU_operator_10010.D (R179). -/
  | rsv10010D (r : Bool) (imm5 : BitVec 5)
  /-- reserved_ALU_operator_10011 (R179). -/
  | rsv10011 (r : Bool) (imm5 : BitVec 5)
  /-- reserved_ALU_operator_10011.D (R179). -/
  | rsv10011D (r : Bool) (imm5 : BitVec 5)
  /-- AND (R171). -/
  | and (r : Bool) (imm5 : BitVec 5)
  /-- AND.D (R171). -/
  | andD (r : Bool) (imm5 : BitVec 5)
  /-- XOR (R172). -/
  | xor (r : Bool) (imm5 : BitVec 5)
  /-- XOR.D (R172). -/
  | xorD (r : Bool) (imm5 : BitVec 5)
  /-- OR (R173). -/
  | or (r : Bool) (imm5 : BitVec 5)
  /-- OR.D (R173). -/
  | orD (r : Bool) (imm5 : BitVec 5)
  /-- reserved_ALU_operator_10111 (R179). -/
  | rsv10111 (r : Bool) (imm5 : BitVec 5)
  /-- reserved_ALU_operator_10111.D (R179). -/
  | rsv10111D (r : Bool) (imm5 : BitVec 5)
  /-- LSR (R174). -/
  | lsr (r : Bool) (imm5 : BitVec 5)
  /-- LSR.D (R174). -/
  | lsrD (r : Bool) (imm5 : BitVec 5)
  /-- LSL (R175). -/
  | lsl (r : Bool) (imm5 : BitVec 5)
  /-- LSL.D (R175). -/
  | lslD (r : Bool) (imm5 : BitVec 5)
  /-- ASR (R176). -/
  | asr (r : Bool) (imm5 : BitVec 5)
  /-- ASR.D (R176). -/
  | asrD (r : Bool) (imm5 : BitVec 5)
  /-- reserved_ALU_operator_11011 (R179). -/
  | rsv11011 (r : Bool) (imm5 : BitVec 5)
  /-- reserved_ALU_operator_11011.D (R179). -/
  | rsv11011D (r : Bool) (imm5 : BitVec 5)
  /-- LITHI (R177). -/
  | lithi (r : Bool) (imm5 : BitVec 5)
  /-- LITHI.D (R177). -/
  | lithiD (r : Bool) (imm5 : BitVec 5)
  /-- reserved_ALU_operator_11101 (R179). -/
  | rsv11101 (r : Bool) (imm5 : BitVec 5)
  /-- reserved_ALU_operator_11101.D (R179). -/
  | rsv11101D (r : Bool) (imm5 : BitVec 5)
  /-- reserved_ALU_operator_11110 (R179). -/
  | rsv11110 (r : Bool) (imm5 : BitVec 5)
  /-- reserved_ALU_operator_11110.D (R179). -/
  | rsv11110D (r : Bool) (imm5 : BitVec 5)
  /-- reserved_ALU_operator_11111 (R179). -/
  | rsv11111 (r : Bool) (imm5 : BitVec 5)
  /-- reserved_ALU_operator_11111.D (R179). -/
  | rsv11111D (r : Bool) (imm5 : BitVec 5)
  /-- NOP (R213). -/
  | nop (r : Bool)
  /-- DROP (R214). -/
  | drop (r : Bool)
  /-- DUP (R215). -/
  | dup (r : Bool)
  /-- SWAP (R216). -/
  | swap (r : Bool)
  /-- OVER (R217). -/
  | overCell (r : Bool)
  /-- NIP (R218). -/
  | nip (r : Bool)
  /-- RDROP (R219). -/
  | rdrop (r : Bool)
  /-- >R (R220). -/
  | toR (r : Bool)
  /-- R@ (R221). -/
  | rFetch (r : Bool)
  /-- R> (R222). -/
  | rFrom (r : Bool)
  /-- TUCK1 (R210). -/
  | tuck1 (r : Bool)
  /-- ROT1 (R211). -/
  | rot1 (r : Bool)
  /-- NROT1 (R212). -/
  | nrot1 (r : Bool)
  /-- STK (R205). -/
  | stk (r : Bool) (p : StkPattern)
  /-- STI (R231). -/
  | sti (r : Bool)
  /-- LDI (R232). -/
  | ldi (r : Bool)
  /-- ST (R233). -/
  | st (r : Bool) (m8 : BitVec 8)
  /-- LD (R234). -/
  | ld (r : Bool) (m8 : BitVec 8)
  /-- FRW_0x00__PSD_write (R244). -/
  | frwPsd (r : Bool)
  /-- FRR_0x00__PSD_read (R243). -/
  | frrPsd (r : Bool)
  /-- FRW_0x01__RSD_write (R246). -/
  | frwRsd (r : Bool)
  /-- FRR_0x01__RSD_read (R245). -/
  | frrRsd (r : Bool)
  /-- FRW_0x02__PC_write (R248). -/
  | frwPc (r : Bool)
  /-- FRR_0x02__PC_read (R247). -/
  | frrPc (r : Bool)
  /-- FRW_0x03__IEN_write (R250). -/
  | frwIen (r : Bool)
  /-- FRR_0x03__IEN_read (R249). -/
  | frrIen (r : Bool)
  /-- FRW_0x04__KEY__write (R255). -/
  | frwKeyQ (r : Bool)
  /-- FRR_0x04__KEY__read (R251). -/
  | frrKeyQ (r : Bool)
  /-- FRW_0x05__EMIT__write (R255). -/
  | frwEmitQ (r : Bool)
  /-- FRR_0x05__EMIT__read (R252). -/
  | frrEmitQ (r : Bool)
  /-- FRW_0x06__KEY_EMIT_write (R254). -/
  | frwKeyEmit (r : Bool)
  /-- FRR_0x06__KEY_EMIT_read (R253). -/
  | frrKeyEmit (r : Bool)
  /-- FRW (R256). -/
  | frw (r : Bool) (fadr : BitVec 8)
  /-- FRR (R256). -/
  | frr (r : Bool) (fadr : BitVec 8)
  deriving DecidableEq, Repr

end Sys2Proof
end

