-- ==== Sys2Proof/Config.lean ====
section
/-!
DEFINITION. What an implementation of the N1 fixes (spec/00_scope.md R5, R6; spec/93_implementation_defined.md
section 2), and the free values: constants without a body for what the spec leaves open.
-/

namespace Sys2Proof

/-- Which byte of a memory word a host's image holds at the lower byte address (R62: no architectural effect). -/
inductive ByteOrder where
  | little
  | big
  deriving DecidableEq, Repr

/-- The kinds of access to main memory (R67). -/
inductive Access where
  | fetch
  | read
  | write
  deriving DecidableEq, Repr

/-- A stretch of main memory, from word address `lo` to word address `hi`, both inside, as the platform treats
it: which accesses it answers with `pbus_err_i` (R67), and whether a device rather than memory answers there
(R65). -/
structure Region where
  lo : Cell
  hi : Cell
  denyFetch : Bool
  denyRead : Bool
  denyWrite : Bool
  device : Bool
  deriving DecidableEq, Repr

/-- The parameters of the N1 that are plain data. A field's default is the source's where it has one (R5); the
others are the model's choice (assumption log 1 to 5). The predicate `valid(a, kind)` of R67 is `regions`: an
address in no region is valid memory. -/
structure Config where
  /-- `SP_WIDTH`: the lower-stack RAM has 2^`SP_WIDTH` cells. -/
  spWidth : Nat := 12
  /-- `IPS_DEPTH`. -/
  ipsDepth : Nat := 8
  /-- `IPS_BYPASS` is non-zero. -/
  ipsBypass : Bool := false
  /-- `IRS_DEPTH`. -/
  irsDepth : Nat := 8
  /-- `IRS_BYPASS` is non-zero. -/
  irsBypass : Bool := false
  /-- `PBUS_AADR_OFFSET`. -/
  aadrOffset : Cell := 0x0000#16
  /-- `PBUS_MADR_OFFSET`. -/
  madrOffset : Cell := 0xFFFF#16
  /-- `EXT_ROT` is non-zero. -/
  extRot : Bool := false
  /-- `EXT_PC`. DESIGN CHOICE true: the source gives no default (log 1). -/
  extPc : Bool := true
  /-- `EXT_IRQ`. DESIGN CHOICE true (log 1). -/
  extIrq : Bool := true
  /-- `EXT_KEY`. DESIGN CHOICE true (log 1). -/
  extKey : Bool := true
  /-- `IEN_RESET`. DESIGN CHOICE false (log 2). -/
  ienReset : Bool := false
  /-- `LS_CAPACITY`: the usable cells of the lower-stack RAM. DESIGN CHOICE all of them (log 3). -/
  lsCapacity : Nat := 4096
  /-- `MEMFAULT_CONSUMES`. DESIGN CHOICE false (log 4). -/
  memfaultConsumes : Bool := false
  /-- `HOST_BYTE_ORDER`. DESIGN CHOICE little (log 5). -/
  byteOrder : ByteOrder := .little
  /-- The platform's restricted addresses and device windows. DESIGN CHOICE none (log 1). -/
  regions : List Region := []
  deriving DecidableEq, Repr

/-- The legal values of the parameters (R5, 93 section 2), with the window of direct jumps aligned (D2). -/
abbrev Config.legal (c : Config) : Prop :=
  5 ≤ c.spWidth ∧ c.spWidth ≤ 16 ∧ 2 < c.ipsDepth ∧ 2 < c.irsDepth ∧
    1 ≤ c.lsCapacity ∧ c.lsCapacity ≤ 2 ^ c.spWidth ∧ c.aadrOffset.toNat % 2 ^ 14 = 0

/-- `alu_hi(op, A, B)`: the upper cell of a double-cell result that the source does not describe (R152, U10). The
Bool says whether the form is the immediate one. It is one function for every machine, so the result does not depend
on the arithmetic module (R181). FREE VALUE (log 11). -/
opaque Config.aluHi (op : AluOp) (immediate : Bool) (a b : Cell) : Cell

/-- `shift_big(op, V, n)`: the result of a shift by 32 or more (R180, U11), for every machine the same (R181).
FREE VALUE (log 12). -/
opaque Config.shiftBig (op : AluOp) (v n : Cell) : Cell

/-- Whether growing stacks overflow when neither bound of R287 decides it, at a draw and with the hidden counters
of R24 (U15). FREE VALUE (log 3). -/
opaque Config.overflowChoice (draw ipsN irsN : Nat) : Bool

/-- Whether a store that the platform answers with an error wrote its word (R66, U14). FREE VALUE (log 13). -/
opaque Config.faultingStoreWrites (draw : Nat) (a : Cell) : Bool

/-- Which of the words that may execute after a store into the words fetched ahead does (R330, U16). FREE VALUE
(log 14). -/
opaque Config.fetchChoice (draw : Nat) : Nat

/-- What a byte of memory that nothing has written reads as (U21). FREE VALUE (log 9). -/
opaque Config.unwrittenByte (draw : Nat) (k : Access) (byteAddress : Nat) : Byte

/-- What a platform device answers to a read (R65). FREE VALUE (log 10). -/
opaque Config.deviceWord (draw : Nat) (k : Access) (a : Cell) : Cell

end Sys2Proof
end

