-- ==== Sys2Proof/WellFormed.lean ====
section
/-!
DEFINITION. Well-formed instructions: an operand value whose word an earlier row of spec/opcode_table.json claims
is no operand of the row (R100: the first matching row wins).
-/

namespace Sys2Proof

/-- The pattern of NOP, word 0x0400 (R213). -/
def StkPattern.nop : StkPattern := ⟨false, .none, .none, .none, .none, false⟩

/-- The pattern of DROP, word 0x06A8 (R214). -/
def StkPattern.drop : StkPattern := ⟨true, .up, .up, .up, .none, false⟩

/-- The pattern of DUP, word 0x0750 (R215). -/
def StkPattern.dup : StkPattern := ⟨true, .down, .down, .down, .none, false⟩

/-- The pattern of SWAP, word 0x0418 (R216). -/
def StkPattern.swap : StkPattern := ⟨false, .none, .none, .exchange, .none, false⟩

/-- The pattern of OVER, word 0x0758 (R217). -/
def StkPattern.over : StkPattern := ⟨true, .down, .down, .exchange, .none, false⟩

/-- The pattern of NIP, word 0x06A0 (R218). -/
def StkPattern.nip : StkPattern := ⟨true, .up, .up, .none, .none, false⟩

/-- The pattern of RDROP, word 0x0401 (R219). -/
def StkPattern.rdrop : StkPattern := ⟨false, .none, .none, .none, .none, true⟩

/-- The pattern of >R, word 0x06AB (R220). -/
def StkPattern.toR : StkPattern := ⟨true, .up, .up, .up, .up, true⟩

/-- The pattern of R@, word 0x0754 (R221). -/
def StkPattern.rFetch : StkPattern := ⟨true, .down, .down, .down, .down, false⟩

/-- The pattern of R>, word 0x0755 (R222). -/
def StkPattern.rFrom : StkPattern := ⟨true, .down, .down, .down, .down, true⟩

/-- The pattern of TUCK1, word 0x07C0 (R210). -/
def StkPattern.tuck1 : StkPattern := ⟨true, .exchange, .down, .none, .none, false⟩

/-- The pattern of ROT1, word 0x041C (R211). -/
def StkPattern.rot1 : StkPattern := ⟨false, .none, .none, .exchange, .down, false⟩

/-- The pattern of NROT1, word 0x04E0 (R212). -/
def StkPattern.nrot1 : StkPattern := ⟨false, .up, .exchange, .none, .none, false⟩

/-- The thirteen patterns that are rows of their own. -/
def StkPattern.named : List StkPattern :=
  [.nop, .drop, .dup, .swap, .over, .nip, .rdrop, .toR, .rFetch, .rFrom, .tuck1, .rot1, .nrot1]

/-- The operand values an encoding of the row exists for: a direct address is not the indirect marker (R92, R97),
LITHI has an immediate (R177, R178), a stack pattern is not one of the named rows, and the general function
register rows are the addresses without a register of their own (R256). -/
def Instr.wellFormed : Instr → Bool
  | .jump a14 => a14 != 0x3FFF#14
  | .call a14 => a14 != 0x3FFF#14
  | .lithi _ imm5 => imm5 != 0#5
  | .lithiD _ imm5 => imm5 != 0#5
  | .stk _ p => !StkPattern.named.contains p
  | .st _ m8 => m8 != 0xFF#8
  | .ld _ m8 => m8 != 0xFF#8
  | .frw _ fadr => 0x06#8 < fadr
  | .frr _ fadr => 0x06#8 < fadr
  | .jumpi => true
  | .calli => true
  | .brz _ => true
  | .brzReturn _ => true
  | .lit _ _ => true
  | .lithiStackForm _ _ => true
  | .sum _ _ => true
  | .sumD _ _ => true
  | .abs _ _ => true
  | .absD _ _ => true
  | .difr _ _ => true
  | .difrD _ _ => true
  | .dif _ _ => true
  | .difD _ _ => true
  | .umin _ _ => true
  | .uminD _ _ => true
  | .max _ _ => true
  | .maxD _ _ => true
  | .umax _ _ => true
  | .umaxD _ _ => true
  | .min _ _ => true
  | .minD _ _ => true
  | .equ _ _ => true
  | .equD _ _ => true
  | .eq _ _ => true
  | .eqD _ _ => true
  | .neu _ _ => true
  | .neuD _ _ => true
  | .ne _ _ => true
  | .neD _ _ => true
  | .ugt _ _ => true
  | .ugtD _ _ => true
  | .lt _ _ => true
  | .ltD _ _ => true
  | .ult _ _ => true
  | .ultD _ _ => true
  | .gt _ _ => true
  | .gtD _ _ => true
  | .umul _ _ => true
  | .umulD _ _ => true
  | .smul _ _ => true
  | .smulD _ _ => true
  | .rsv10010 _ _ => true
  | .rsv10010D _ _ => true
  | .rsv10011 _ _ => true
  | .rsv10011D _ _ => true
  | .and _ _ => true
  | .andD _ _ => true
  | .xor _ _ => true
  | .xorD _ _ => true
  | .or _ _ => true
  | .orD _ _ => true
  | .rsv10111 _ _ => true
  | .rsv10111D _ _ => true
  | .lsr _ _ => true
  | .lsrD _ _ => true
  | .lsl _ _ => true
  | .lslD _ _ => true
  | .asr _ _ => true
  | .asrD _ _ => true
  | .rsv11011 _ _ => true
  | .rsv11011D _ _ => true
  | .rsv11101 _ _ => true
  | .rsv11101D _ _ => true
  | .rsv11110 _ _ => true
  | .rsv11110D _ _ => true
  | .rsv11111 _ _ => true
  | .rsv11111D _ _ => true
  | .nop _ => true
  | .drop _ => true
  | .dup _ => true
  | .swap _ => true
  | .overCell _ => true
  | .nip _ => true
  | .rdrop _ => true
  | .toR _ => true
  | .rFetch _ => true
  | .rFrom _ => true
  | .tuck1 _ => true
  | .rot1 _ => true
  | .nrot1 _ => true
  | .sti _ => true
  | .ldi _ => true
  | .frwPsd _ => true
  | .frrPsd _ => true
  | .frwRsd _ => true
  | .frrRsd _ => true
  | .frwPc _ => true
  | .frrPc _ => true
  | .frwIen _ => true
  | .frrIen _ => true
  | .frwKeyQ _ => true
  | .frrKeyQ _ => true
  | .frwEmitQ _ => true
  | .frrEmitQ _ => true
  | .frwKeyEmit _ => true
  | .frrKeyEmit _ => true

end Sys2Proof
end

