-- ==== Sys2Proof/Decode.lean ====
section
/-!
DEFINITION. Decoder and encoder of the N1's words (spec/30_encoding.md R90 to R102): `decodeWord` is the total
decoder of R100, `decode` reads an instruction from the bytes of a memory image and rejects by name, `encode`
writes a well-formed instruction's word.
-/

namespace Sys2Proof

/-! ## Bit fields -/

/-- Bit `i` of a word (R8). -/
def wordBit (w : Cell) (i : Nat) : Bool := w.toNat / 2 ^ i % 2 == 1

/-- The field of `len` bits whose least significant bit is bit `lo` (R8). -/
def wordField (w : Cell) (lo len : Nat) : BitVec len := BitVec.ofNat len (w.toNat / 2 ^ lo)

/-- The transfer code of a UST field (R96). -/
def decodeUst (n : Nat) : Ust :=
  match n with
  | 0 => .none
  | 1 => .up
  | 2 => .down
  | _ => .exchange

/-- The fields of a transition pattern (R96). -/
def decodePattern (w : Cell) : StkPattern where
  ips := wordBit w 9
  u3 := decodeUst (wordField w 7 2).toNat
  u2 := decodeUst (wordField w 5 2).toNat
  u1 := decodeUst (wordField w 3 2).toNat
  u0 := decodeUst (wordField w 1 2).toNat
  irs := wordBit w 0

/-! ## The decoder of R100, class by class -/

/-- Class J (R92): bit 15 selects jump, 0x3FFF is indirect. -/
def decodeJump (r : Bool) (a14 : BitVec 14) : Instr :=
  if a14 = 0x3FFF#14 then (if r then .jumpi else .calli)
  else (if r then .jump a14 else .call a14)

/-- Class A (R95, R148): `t` = 1 is the single-cell result. -/
def decodeAlu (r t : Bool) (op imm5 : BitVec 5) : Instr :=
  match op.toNat with
  | 0 => if t then .sum r imm5 else .sumD r imm5
  | 1 => if t then .abs r imm5 else .absD r imm5
  | 2 => if t then .difr r imm5 else .difrD r imm5
  | 3 => if t then .dif r imm5 else .difD r imm5
  | 4 => if t then .umin r imm5 else .uminD r imm5
  | 5 => if t then .max r imm5 else .maxD r imm5
  | 6 => if t then .umax r imm5 else .umaxD r imm5
  | 7 => if t then .min r imm5 else .minD r imm5
  | 8 => if t then .equ r imm5 else .equD r imm5
  | 9 => if t then .eq r imm5 else .eqD r imm5
  | 10 => if t then .neu r imm5 else .neuD r imm5
  | 11 => if t then .ne r imm5 else .neD r imm5
  | 12 => if t then .ugt r imm5 else .ugtD r imm5
  | 13 => if t then .lt r imm5 else .ltD r imm5
  | 14 => if t then .ult r imm5 else .ultD r imm5
  | 15 => if t then .gt r imm5 else .gtD r imm5
  | 16 => if t then .umul r imm5 else .umulD r imm5
  | 17 => if t then .smul r imm5 else .smulD r imm5
  | 18 => if t then .rsv10010 r imm5 else .rsv10010D r imm5
  | 19 => if t then .rsv10011 r imm5 else .rsv10011D r imm5
  | 20 => if t then .and r imm5 else .andD r imm5
  | 21 => if t then .xor r imm5 else .xorD r imm5
  | 22 => if t then .or r imm5 else .orD r imm5
  | 23 => if t then .rsv10111 r imm5 else .rsv10111D r imm5
  | 24 => if t then .lsr r imm5 else .lsrD r imm5
  | 25 => if t then .lsl r imm5 else .lslD r imm5
  | 26 => if t then .asr r imm5 else .asrD r imm5
  | 27 => if t then .rsv11011 r imm5 else .rsv11011D r imm5
  | 28 =>
    if imm5 = 0#5 then .lithiStackForm r t
    else if t then .lithi r imm5 else .lithiD r imm5
  | 29 => if t then .rsv11101 r imm5 else .rsv11101D r imm5
  | 30 => if t then .rsv11110 r imm5 else .rsv11110D r imm5
  | _ => if t then .rsv11111 r imm5 else .rsv11111D r imm5

/-- Class S (R96): the thirteen named patterns, then the general row. -/
def decodeStack (r : Bool) (p : StkPattern) : Instr :=
  if p = .nop then .nop r
  else if p = .drop then .drop r
  else if p = .dup then .dup r
  else if p = .swap then .swap r
  else if p = .over then .overCell r
  else if p = .nip then .nip r
  else if p = .rdrop then .rdrop r
  else if p = .toR then .toR r
  else if p = .rFetch then .rFetch r
  else if p = .rFrom then .rFrom r
  else if p = .tuck1 then .tuck1 r
  else if p = .rot1 then .rot1 r
  else if p = .nrot1 then .nrot1 r
  else .stk r p

/-- Class M (R97): bit 8 is read, 0xFF is indirect. -/
def decodeMemory (r rd : Bool) (m8 : BitVec 8) : Instr :=
  if m8 = 0xFF#8 then (if rd then .ldi r else .sti r)
  else (if rd then .ld r m8 else .st r m8)

/-- Class F (R98): bit 8 is read; the seven registers of R28 have rows of their own. -/
def decodeFunction (r rd : Bool) (fadr : BitVec 8) : Instr :=
  match fadr.toNat with
  | 0 => if rd then .frrPsd r else .frwPsd r
  | 1 => if rd then .frrRsd r else .frwRsd r
  | 2 => if rd then .frrPc r else .frwPc r
  | 3 => if rd then .frrIen r else .frwIen r
  | 4 => if rd then .frrKeyQ r else .frwKeyQ r
  | 5 => if rd then .frrEmitQ r else .frwEmitQ r
  | 6 => if rd then .frrKeyEmit r else .frwKeyEmit r
  | _ => if rd then .frr r fadr else .frw r fadr

/-- The total decoder of R100: the class is the leading one among bits 14 to 9, bit 15 is the return bit. -/
def decodeWord (w : Cell) : Instr :=
  if wordBit w 14 then decodeJump (wordBit w 15) (wordField w 0 14)
  else if wordBit w 13 then
    (if wordBit w 15 then .brzReturn (wordField w 0 13) else .brz (wordField w 0 13))
  else if wordBit w 12 then .lit (wordBit w 15) (wordField w 0 12)
  else if wordBit w 11 then decodeAlu (wordBit w 15) (wordBit w 10) (wordField w 5 5) (wordField w 0 5)
  else if wordBit w 10 then decodeStack (wordBit w 15) (decodePattern w)
  else if wordBit w 9 then decodeMemory (wordBit w 15) (wordBit w 8) (wordField w 0 8)
  else decodeFunction (wordBit w 15) (wordBit w 8) (wordField w 0 8)

/-! ## Bytes -/

/-- Why a byte string holds no instruction. Every 16-bit word is an instruction (R90), so only a string that is
too short is rejected. -/
inductive DecodeRefusal where
  /-- Raised by `decode` on the empty string. Safe: nothing is read. -/
  | noBytes
  /-- Raised by `decode` on one byte: half a word (R61). Safe: nothing is read. -/
  | halfWord
  deriving DecidableEq, Repr

/-- The word whose two bytes, the one at the lower byte address first, are `b0` and `b1` (R62). -/
def bytesWord (o : ByteOrder) (b0 b1 : Byte) : Cell :=
  match o with
  | .little => BitVec.ofNat 16 (b1.toNat * 256 + b0.toNat)
  | .big => BitVec.ofNat 16 (b0.toNat * 256 + b1.toNat)

/-- The high byte of a word. -/
def highByte (w : Cell) : Byte := wordField w 8 8

/-- The low byte of a word. -/
def lowByte (w : Cell) : Byte := wordField w 0 8

/-- The byte of a word at the lower byte address (R62). -/
def firstByte (o : ByteOrder) (w : Cell) : Byte :=
  match o with
  | .little => lowByte w
  | .big => highByte w

/-- The byte of a word at the higher byte address (R62). -/
def secondByte (o : ByteOrder) (w : Cell) : Byte :=
  match o with
  | .little => highByte w
  | .big => lowByte w

/-- A word's bytes, the one at the lower byte address first (R62). -/
def wordBytes (o : ByteOrder) (w : Cell) : List Byte := [firstByte o w, secondByte o w]

/-- Reads one instruction from the front of a byte string and gives the bytes after it. -/
def decode (o : ByteOrder) : List Byte → Except DecodeRefusal (Instr × List Byte)
  | [] => .error .noBytes
  | [_] => .error .halfWord
  | b0 :: b1 :: rest => .ok (decodeWord (bytesWord o b0 b1), rest)

/-- The instruction the decoder reads from the table's word `w` of `nbits` bits, every bit above them zero, laid
out in the byte order of `State.reset` (log 5). -/
def decodeTableWord (nbits w : Nat) : Option Instr :=
  match decode .little (wordBytes .little (BitVec.ofNat 16 (w % 2 ^ nbits))) with
  | .ok (i, _) => some i
  | .error _ => none

/-! ## The encoder -/

/-- The return bit's weight (R91). -/
def returnBits (r : Bool) : Nat := if r then 0x8000 else 0

/-- The code of a UST field (R96). -/
def encodeUst : Ust → Nat
  | .none => 0
  | .up => 1
  | .down => 2
  | .exchange => 3

/-- The ten bits of a transition pattern (R96). -/
def encodePattern (p : StkPattern) : Nat :=
  (if p.ips then 0x200 else 0) + encodeUst p.u3 * 0x80 + encodeUst p.u2 * 0x20 + encodeUst p.u1 * 8 +
    encodeUst p.u0 * 2 + (if p.irs then 1 else 0)

/-- An instruction's word as a number (R92 to R98, R104). -/
def encodeNat : Instr → Nat
  | .jumpi => 0xFFFF
  | .calli => 0x7FFF
  | .jump a14 => 0xC000 + a14.toNat
  | .call a14 => 0x4000 + a14.toNat
  | .brz rel13 => 0x2000 + rel13.toNat
  | .brzReturn rel13 => 0xA000 + rel13.toNat
  | .lit r lit12 => returnBits r + 0x1000 + lit12.toNat
  | .lithiStackForm r t => returnBits r + 0x0B80 + (if t then 0x400 else 0)
  | .sum r imm5 => returnBits r + 0x0C00 + imm5.toNat
  | .sumD r imm5 => returnBits r + 0x0800 + imm5.toNat
  | .abs r imm5 => returnBits r + 0x0C20 + imm5.toNat
  | .absD r imm5 => returnBits r + 0x0820 + imm5.toNat
  | .difr r imm5 => returnBits r + 0x0C40 + imm5.toNat
  | .difrD r imm5 => returnBits r + 0x0840 + imm5.toNat
  | .dif r imm5 => returnBits r + 0x0C60 + imm5.toNat
  | .difD r imm5 => returnBits r + 0x0860 + imm5.toNat
  | .umin r imm5 => returnBits r + 0x0C80 + imm5.toNat
  | .uminD r imm5 => returnBits r + 0x0880 + imm5.toNat
  | .max r imm5 => returnBits r + 0x0CA0 + imm5.toNat
  | .maxD r imm5 => returnBits r + 0x08A0 + imm5.toNat
  | .umax r imm5 => returnBits r + 0x0CC0 + imm5.toNat
  | .umaxD r imm5 => returnBits r + 0x08C0 + imm5.toNat
  | .min r imm5 => returnBits r + 0x0CE0 + imm5.toNat
  | .minD r imm5 => returnBits r + 0x08E0 + imm5.toNat
  | .equ r imm5 => returnBits r + 0x0D00 + imm5.toNat
  | .equD r imm5 => returnBits r + 0x0900 + imm5.toNat
  | .eq r imm5 => returnBits r + 0x0D20 + imm5.toNat
  | .eqD r imm5 => returnBits r + 0x0920 + imm5.toNat
  | .neu r imm5 => returnBits r + 0x0D40 + imm5.toNat
  | .neuD r imm5 => returnBits r + 0x0940 + imm5.toNat
  | .ne r imm5 => returnBits r + 0x0D60 + imm5.toNat
  | .neD r imm5 => returnBits r + 0x0960 + imm5.toNat
  | .ugt r imm5 => returnBits r + 0x0D80 + imm5.toNat
  | .ugtD r imm5 => returnBits r + 0x0980 + imm5.toNat
  | .lt r imm5 => returnBits r + 0x0DA0 + imm5.toNat
  | .ltD r imm5 => returnBits r + 0x09A0 + imm5.toNat
  | .ult r imm5 => returnBits r + 0x0DC0 + imm5.toNat
  | .ultD r imm5 => returnBits r + 0x09C0 + imm5.toNat
  | .gt r imm5 => returnBits r + 0x0DE0 + imm5.toNat
  | .gtD r imm5 => returnBits r + 0x09E0 + imm5.toNat
  | .umul r imm5 => returnBits r + 0x0E00 + imm5.toNat
  | .umulD r imm5 => returnBits r + 0x0A00 + imm5.toNat
  | .smul r imm5 => returnBits r + 0x0E20 + imm5.toNat
  | .smulD r imm5 => returnBits r + 0x0A20 + imm5.toNat
  | .rsv10010 r imm5 => returnBits r + 0x0E40 + imm5.toNat
  | .rsv10010D r imm5 => returnBits r + 0x0A40 + imm5.toNat
  | .rsv10011 r imm5 => returnBits r + 0x0E60 + imm5.toNat
  | .rsv10011D r imm5 => returnBits r + 0x0A60 + imm5.toNat
  | .and r imm5 => returnBits r + 0x0E80 + imm5.toNat
  | .andD r imm5 => returnBits r + 0x0A80 + imm5.toNat
  | .xor r imm5 => returnBits r + 0x0EA0 + imm5.toNat
  | .xorD r imm5 => returnBits r + 0x0AA0 + imm5.toNat
  | .or r imm5 => returnBits r + 0x0EC0 + imm5.toNat
  | .orD r imm5 => returnBits r + 0x0AC0 + imm5.toNat
  | .rsv10111 r imm5 => returnBits r + 0x0EE0 + imm5.toNat
  | .rsv10111D r imm5 => returnBits r + 0x0AE0 + imm5.toNat
  | .lsr r imm5 => returnBits r + 0x0F00 + imm5.toNat
  | .lsrD r imm5 => returnBits r + 0x0B00 + imm5.toNat
  | .lsl r imm5 => returnBits r + 0x0F20 + imm5.toNat
  | .lslD r imm5 => returnBits r + 0x0B20 + imm5.toNat
  | .asr r imm5 => returnBits r + 0x0F40 + imm5.toNat
  | .asrD r imm5 => returnBits r + 0x0B40 + imm5.toNat
  | .rsv11011 r imm5 => returnBits r + 0x0F60 + imm5.toNat
  | .rsv11011D r imm5 => returnBits r + 0x0B60 + imm5.toNat
  | .lithi r imm5 => returnBits r + 0x0F80 + imm5.toNat
  | .lithiD r imm5 => returnBits r + 0x0B80 + imm5.toNat
  | .rsv11101 r imm5 => returnBits r + 0x0FA0 + imm5.toNat
  | .rsv11101D r imm5 => returnBits r + 0x0BA0 + imm5.toNat
  | .rsv11110 r imm5 => returnBits r + 0x0FC0 + imm5.toNat
  | .rsv11110D r imm5 => returnBits r + 0x0BC0 + imm5.toNat
  | .rsv11111 r imm5 => returnBits r + 0x0FE0 + imm5.toNat
  | .rsv11111D r imm5 => returnBits r + 0x0BE0 + imm5.toNat
  | .nop r => returnBits r + 0x0400
  | .drop r => returnBits r + 0x06A8
  | .dup r => returnBits r + 0x0750
  | .swap r => returnBits r + 0x0418
  | .overCell r => returnBits r + 0x0758
  | .nip r => returnBits r + 0x06A0
  | .rdrop r => returnBits r + 0x0401
  | .toR r => returnBits r + 0x06AB
  | .rFetch r => returnBits r + 0x0754
  | .rFrom r => returnBits r + 0x0755
  | .tuck1 r => returnBits r + 0x07C0
  | .rot1 r => returnBits r + 0x041C
  | .nrot1 r => returnBits r + 0x04E0
  | .stk r p => returnBits r + 0x0400 + encodePattern p
  | .sti r => returnBits r + 0x02FF
  | .ldi r => returnBits r + 0x03FF
  | .st r m8 => returnBits r + 0x0200 + m8.toNat
  | .ld r m8 => returnBits r + 0x0300 + m8.toNat
  | .frwPsd r => returnBits r + 0x0000
  | .frrPsd r => returnBits r + 0x0100
  | .frwRsd r => returnBits r + 0x0001
  | .frrRsd r => returnBits r + 0x0101
  | .frwPc r => returnBits r + 0x0002
  | .frrPc r => returnBits r + 0x0102
  | .frwIen r => returnBits r + 0x0003
  | .frrIen r => returnBits r + 0x0103
  | .frwKeyQ r => returnBits r + 0x0004
  | .frrKeyQ r => returnBits r + 0x0104
  | .frwEmitQ r => returnBits r + 0x0005
  | .frrEmitQ r => returnBits r + 0x0105
  | .frwKeyEmit r => returnBits r + 0x0006
  | .frrKeyEmit r => returnBits r + 0x0106
  | .frw r fadr => returnBits r + 0x0000 + fadr.toNat
  | .frr r fadr => returnBits r + 0x0100 + fadr.toNat

/-- The word of an instruction. -/
def encode (i : Instr) : Cell := BitVec.ofNat 16 (encodeNat i)

end Sys2Proof
end

