-- ==== Sys2Proof/Machine/State.lean ====
section
/-!
DEFINITION. The state of the N1 as plain data (spec/10_state.md), its state after reset (R50), the exceptions it
takes (R281) and the reasons for which the model stops.
-/

namespace Sys2Proof.Machine

/-- Main memory as a memory image: byte addresses, strictly rising, and the bytes written there. Word `a` of the
machine is bytes `2a` and `2a+1` (R60, R62). An address that is not listed holds no value. -/
abbrev Memory := List Host.Cell

/-- The six hardware exceptions (R281). -/
inductive Exc where
  | psOverflow
  | psUnderflow
  | rsOverflow
  | rsUnderflow
  | addressOutOfRange
  | undefinedWord
  deriving DecidableEq, Repr

/-- The change-of-flow tags of the program bus (R74, R314). -/
inductive Cof where
  /-- `pbus_tga_cof_jump_o`: a jump. -/
  | jump
  /-- `pbus_tga_cof_cal_o`: a call or an interrupt service request. -/
  | call
  /-- `pbus_tga_cof_bra_o`: a conditional branch. -/
  | branch
  /-- `pbus_tga_cof_eow_o`: a return from a call. -/
  | endOfWord
  deriving DecidableEq, Repr

/-- How the program bus meets an access of one step (R74). -/
inductive BusAnswer where
  /-- The access ends in this step: with `pbus_ack_i`, or at a restricted address with `pbus_err_i` (R67). -/
  | answered
  /-- It does not end: `pbus_ack_i` is missing or `pbus_stall_i` is asserted. The core is blocked, its interrupts
  with it. -/
  | held
  /-- `pbus_rty_i` ends the bus cycle without the access: it has to be made again, and interrupts are not
  blocked. -/
  | retry
  deriving DecidableEq, Repr

/-- Whether an instruction has begun and waits for the outside (R46, R74, R315). -/
inductive Wait where
  /-- No: the core is at an instruction boundary. -/
  | no
  /-- For a KEY or EMIT device, or for an access that the bus holds: no interrupt is taken (R306, R74). -/
  | blocked
  /-- For a data access that the bus ended with a retry: an interrupt may be taken (R74). -/
  | retried
  deriving DecidableEq, Repr

/-- What the environment does before one step (R20, 93 U22). -/
structure EnvSample where
  /-- A reset input is asserted (R320). -/
  reset : Bool
  /-- The value driven on `irq_req_i` (R300). -/
  irqReq : Cell
  /-- How many of the data waiting, the oldest first, the input device no longer offers: 91 N15 says that no
  buffering may be assumed, so a datum stays only as long as the environment lets it (log 43). -/
  keyWithdrawn : Nat
  /-- Data that have reached the input device since the last step (R44). -/
  keyArrivals : List Cell
  /-- The output device is ready (R45). -/
  outReady : Bool
  /-- How the bus meets the fetch of this step, if it makes one (R74). -/
  fetchAnswer : BusAnswer
  /-- How the bus meets the data access of this step, if it makes one (R74). -/
  dataAnswer : BusAnswer
  /-- Words that another bus master or a device wrote to memory since the last step, the earliest first (R70). -/
  busWrites : List (Cell × Cell)
  deriving DecidableEq, Repr

/-- The machine's state. INVENTORY.md names the rule of each field. -/
structure State where
  /-- The integration parameters (R5, R6): fixed, no step writes them. -/
  cfg : Config
  /-- The program counter, the word address of the instruction executing (R25). -/
  pc : Cell
  /-- The parameter stack, top first (R21). -/
  ps : List Cell
  /-- The return stack, top first (R21). -/
  rs : List Cell
  /-- `ips_n`: how many cells of `ps` the intermediate parameter stack holds (R24). -/
  ipsN : Nat
  /-- `irs_n`: how many cells of `rs` the intermediate return stack holds (R24). -/
  irsN : Nat
  /-- The interrupt enable flag (R42). -/
  ien : Bool
  /-- The instruction register (R47). -/
  ir : Cell
  /-- The stash register and the words fetched ahead (R47, R330): addresses, with a word fetched there before
  memory changed, which may execute in place of memory's. -/
  stash : List (Cell × Cell)
  /-- Whether the instruction in `ir` has begun and waits: in a KEY or EMIT access (R46), or in a data access that
  the bus does not answer (R74). -/
  waiting : Wait
  /-- The change-of-flow tag of the fetch at `pc` (R74). -/
  cof : Option Cof
  /-- Main memory (R60). -/
  mem : Memory
  /-- The value on `irq_req_i` (R48). -/
  irqReq : Cell
  /-- `irq_ack_o`: the last step served an interrupt (R301). -/
  irqAck : Bool
  /-- How the bus meets a fetch (R74). -/
  fetchAnswer : BusAnswer
  /-- How the bus meets a data access (R74). -/
  dataAnswer : BusAnswer
  /-- Data waiting in the input device, the oldest first (R44, R46; log 43). -/
  keyQueue : List Cell
  /-- The output device is ready (R45). -/
  outReady : Bool
  /-- Data the output device has received, the oldest first (R46). -/
  emitted : List Cell
  /-- The environment's samples of the steps to come (93 U22); after the last one its lines stay as they are. -/
  env : List EnvSample
  /-- The model's own: the counter to which the free values of Config are applied. -/
  draw : Nat
  deriving DecidableEq, Repr

/-- The machine right after reset (R50, R321), with the source's default parameters, an environment that does
nothing, and memory in which nothing is listed. The values the spec does not state are in the assumption log (1
to 5, 7, 8, 9, 15, 33, 38). -/
def State.reset : State where
  cfg := {}
  pc := 0x0000#16
  ps := [0x0000#16]
  rs := []
  ipsN := 0
  irsN := 0
  ien := false
  ir := 0x0000#16
  stash := []
  waiting := .no
  cof := none
  mem := []
  irqReq := 0x0000#16
  irqAck := false
  fetchAnswer := .answered
  dataAnswer := .answered
  keyQueue := []
  outReady := true
  emitted := []
  env := []
  draw := 0

/-- The N1 has no fault: each of its error conditions is an exception with an entry, a next state (R281, R284),
and every 16-bit address exists (R60, R64). So nothing raises one. -/
inductive Fault where
  deriving DecidableEq, Repr

/-- Why the model gives a word no meaning: the spec gives it none. -/
inductive Refusal where
  /-- Raised by the arm of an instruction that has no meaning yet. Safe: nothing is claimed. -/
  | notModelled (mnemonic : String)
  /-- Raised by a conditional branch with the return bit (R137). Safe: nothing is claimed. -/
  | branchWithReturnBit
  /-- Raised by LITHI without an immediate (R178). Safe: nothing is claimed. -/
  | lithiWithoutImmediate
  /-- Raised by a stack pattern in which a cell has two sources (R204, R209). Safe: nothing is claimed. -/
  | reservedPattern
  /-- Raised by the return bit on an instruction that itself uses the return stack (R122). Safe: nothing is
  claimed. -/
  | returnBitOnReturnStackUse
  /-- Raised by a write to PC, KEY? or EMIT? where the register is present (R248, R255). Safe: nothing is
  claimed. -/
  | readOnlyRegister
  deriving DecidableEq, Repr

end Sys2Proof.Machine
end

