-- ==== Sys2Proof/Machine/Ops.lean ====
section
/-!
DEFINITION. The named operations over memory, stacks and program counter that the instructions' meanings share:
memory access (spec/20_memory.md), the stacks and their overflow (spec/10_state.md R24, spec/60_exceptions.md
R287), taking an exception (R284), and the ways an instruction ends (spec/40_return.md R120).
-/

namespace Sys2Proof

/-! ## What the parameters say -/

/-- The word address `a` lies in the region. -/
def Region.covers (g : Region) (a : Cell) : Bool := g.lo.toNat ≤ a.toNat && a.toNat ≤ g.hi.toNat

/-- The region answers this kind of access with an error. -/
def Region.denies (g : Region) (k : Access) : Bool :=
  match k with
  | .fetch => g.denyFetch
  | .read => g.denyRead
  | .write => g.denyWrite

/-- `valid(a, kind)` of R67. -/
def Config.valid (c : Config) (a : Cell) (k : Access) : Bool :=
  !c.regions.any fun g => g.covers a && g.denies k

/-- A platform device answers at `a` (R65). -/
def Config.isDevice (c : Config) (a : Cell) : Bool :=
  c.regions.any fun g => g.covers a && g.device

/-- `IPS_eff` of R287. -/
def Config.ipsEff (c : Config) : Nat := if c.ipsBypass then 0 else c.ipsDepth

/-- `IRS_eff` of R287. -/
def Config.irsEff (c : Config) : Nat := if c.irsBypass then 0 else c.irsDepth

/-- More deep cells than this cannot be held anywhere (R287). -/
def Config.deepLimit (c : Config) : Nat := 2 ^ c.spWidth + c.ipsEff + c.irsEff

end Sys2Proof

namespace Sys2Proof.Machine

/-- What one instruction answers. -/
abbrev Result := Host.Outcome State Fault Refusal

/-! ## Memory -/

/-- How many bytes the main address space has: 2^16 words (R60). -/
def memoryBytes : Nat := 131072

/-- The canonical form of a memory image: byte addresses strictly rising, all inside the address space. An
unlisted address holds no value, so no entry can equal it. -/
abbrev Memory.wf (m : Memory) : Prop :=
  m.Pairwise (fun c d => c.1 < d.1) ∧ ∀ c ∈ m, c.1 < memoryBytes

/-- The byte written at an address, if one was. -/
def Memory.byte? : Memory → Nat → Option Byte
  | [], _ => none
  | (b, v) :: m, a => if a = b then some v else Memory.byte? m a

/-- Writes one byte, keeping the addresses rising. -/
def Memory.put : Memory → Nat → Byte → Memory
  | [], a, v => [(a, v)]
  | (b, w) :: m, a, v =>
    if a < b then (a, v) :: (b, w) :: m
    else if a = b then (a, v) :: m
    else (b, w) :: Memory.put m a v

/-- Writes the two bytes of a word at a word address (R60, R62). -/
def Memory.putWord (o : ByteOrder) (m : Memory) (a v : Cell) : Memory :=
  Memory.put (Memory.put m (2 * a.toNat) (firstByte o v)) (2 * a.toNat + 1) (secondByte o v)

/-- Reads one byte of main memory: what was written there, else a free value (U21). -/
def State.readByte (s : State) (k : Access) (byteAddress : Nat) : Byte :=
  (Memory.byte? s.mem byteAddress).getD (Config.unwrittenByte s.draw k byteAddress)

/-- `MemRead(a, 1)` of R65 for an access that the environment does not answer with an error. -/
def State.readWord (s : State) (k : Access) (a : Cell) : Cell :=
  if s.cfg.isDevice a then Config.deviceWord s.draw k a
  else bytesWord s.cfg.byteOrder (s.readByte k (2 * a.toNat)) (s.readByte k (2 * a.toNat + 1))

/-- A word arrives at a memory address; at a device's address the device takes it (R65, R66). -/
def State.putWord (s : State) (a v : Cell) : State :=
  { s with mem := if s.cfg.isDevice a then s.mem else Memory.putWord s.cfg.byteOrder s.mem a v }

/-- Keeps the word that stands at `a` as one that may already have been fetched (R330). -/
def State.keepFetched (s : State) (a : Cell) : State :=
  { s with stash := (a, s.readWord .fetch a) :: s.stash }

/-- `MemWrite(a, 1, v)` of R66 by the executing instruction: the two words after it may have been fetched
already (R330). -/
def State.storeWord (s : State) (a v : Cell) : State :=
  (if a = s.pc + 1#16 ∨ a = s.pc + 2#16 then s.keepFetched a else s).putWord a v

/-- The address of the next word to be executed that has not begun: at a boundary `pc`, while an instruction waits
the word after it (R47). -/
def State.upcoming (s : State) : Cell := if s.waiting = .no then s.pc else s.pc + 1#16

/-- A write by another bus master: the two words to execute next may have been fetched already (R47, R70, R73). -/
def State.busWrite (s : State) (a v : Cell) : State :=
  (if a = s.upcoming ∨ a = s.upcoming + 1#16 then s.keepFetched a else s).putWord a v

/-- The word that executes at `pc` (R65, R330): memory's, or one fetched there before memory changed. -/
def State.fetchWord (s : State) : Cell :=
  match (s.stash.filter fun c => c.1 = s.pc).map (·.2) with
  | [] => s.readWord .fetch s.pc
  | old => old.getD (Config.fetchChoice s.draw) (s.readWord .fetch s.pc)

/-! ## The stacks -/

/-- The cells of a parameter stack of this depth that lie below the upper stack (R23). -/
def psDeep (psd : Nat) : Nat := psd - 4

/-- The cells of a return stack of this depth that lie below the upper stack (R23). -/
def rsDeep (rsd : Nat) : Nat := rsd - 1

/-- How many of the deep cells the intermediate stack holds when their number goes from `d` to `d'` (R24): none of
none, the same of the same, and else a cell that comes goes in while there is room, and a cell that leaves is taken
from it while there is one. -/
def refill (room n d d' : Nat) : Nat :=
  if d' = 0 then 0 else if d' = d then n else min (min room d') (n + d' - d)

/-- The machine with other stacks, the hidden counters moved along (R24). -/
def State.withStacks (s : State) (ps' rs' : List Cell) : State :=
  { s with
    ps := ps'
    rs := rs'
    ipsN := refill s.cfg.ipsEff s.ipsN (psDeep s.ps.length) (psDeep ps'.length)
    irsN := refill s.cfg.irsEff s.irsN (rsDeep s.rs.length) (rsDeep rs'.length) }

/-- `lps_n` of R24: the parameter stack's cells in the lower stack. -/
def State.lpsN (s : State) : Nat := psDeep s.ps.length - s.ipsN

/-- `lrs_n` of R24: the return stack's cells in the lower stack. -/
def State.lrsN (s : State) : Nat := rsDeep s.rs.length - s.irsN

/-- Whether a cell pushed so that the stacks come to these depths overflows the lower stack: the lines of R287 on
the deep cells. -/
def State.deepOverflows (s : State) (psd' rsd' : Nat) : Bool :=
  if psDeep psd' + rsDeep rsd' ≤ s.cfg.lsCapacity then false
  else if s.cfg.deepLimit < psDeep psd' + rsDeep rsd' then true
  else Config.overflowChoice s.draw s.ipsN s.irsN

/-- Whether going to these depths overflows (R287): never where nothing grows. -/
def State.overflows (s : State) (psd' rsd' : Nat) : Bool :=
  if psd' + rsd' ≤ s.ps.length + s.rs.length then false else s.deepOverflows psd' rsd'

/-! ## The program counter -/

/-- On to the next word (R25, R26): what was fetched ahead for this word is used up. -/
def State.advance (s : State) : State :=
  { s with
    pc := s.pc + 1#16
    cof := none
    stash := s.stash.filter fun c => c.1 ≠ s.pc }

/-- A change of flow to `t`: words fetched ahead are discarded (R330). -/
def State.redirect (s : State) (t : Cell) (tag : Option Cof) : State :=
  { s with pc := t, cof := tag, stash := [] }

/-- The end of an instruction of class L, A, S, M or F: with the return bit the return action (R120), else the
next word (R25). -/
def State.finish (r : Bool) (s : State) : State :=
  match r, s.rs with
  | true, a :: rs' => (s.withStacks s.ps rs').redirect a (some .endOfWord)
  | _, _ => s.advance

/-! ## Exceptions -/

/-- The throw code of an exception (R281, R282). -/
def Exc.code : Exc → Cell
  | .psOverflow => 0xFFFD#16
  | .psUnderflow => 0xFFFC#16
  | .rsOverflow => 0xFFFB#16
  | .rsUnderflow => 0xFFFA#16
  | .addressOutOfRange => 0xFFF7#16
  | .undefinedWord => 0xFFF3#16

/-- The exceptions whose entry clears both stacks (R281, R284). -/
def Exc.clearsStacks : Exc → Bool
  | .psOverflow => true
  | .rsOverflow => true
  | _ => false

/-- Exception entry (R284), for an instruction that began at `before` and leaves `s` with the parameter stack `ps`
to the handler: the two overflows clear both stacks, the throw code is pushed, and execution goes on at 0x0000. A
throw code that does not fit makes the entry a parameter stack overflow (R295). Nothing is saved; `ien` stays
(D40). DESIGN CHOICE: whether the throw code's push makes the stacks grow is judged against the depths at which the
instruction began, so that one whose operands a faulting access has taken never overflows (log 44). -/
def State.raiseFrom (before : State) (e : Exc) (s : State) (ps : List Cell) : State :=
  let ps0 := if e.clearsStacks then [] else ps
  let rs0 := if e.clearsStacks then [] else s.rs
  (if before.overflows (ps0.length + 1) rs0.length then s.withStacks [Exc.psOverflow.code] []
    else s.withStacks (e.code :: ps0) rs0).redirect 0x0000#16 none

/-- Exception entry with none of the instruction's effects (R284, R290). -/
def State.raise (e : Exc) (s : State) : State := s.raiseFrom e s s.ps

/-- The address-out-of-range entry of a data access that faults (R236): the operands are gone (`rest` is what lies
below them) or still there, by `MEMFAULT_CONSUMES`. -/
def State.dataFault (before s : State) (rest : List Cell) : State :=
  before.raiseFrom .addressOutOfRange s (if s.cfg.memfaultConsumes then rest else s.ps)

/-! ## How an instruction goes -/

/-- The state `t` an instruction ends in, unless its stacks overflow (R287): then the exception, with none of the
effects. -/
def State.settle (s t : State) : Result :=
  .next (if s.overflows t.ps.length t.rs.length then
      s.raise (if s.ps.length < t.ps.length then .psOverflow else .rsOverflow)
    else t)

/-- The return bit's check (R121), made before any effect (R290). -/
def State.checkReturn (r : Bool) (s : State) (go : Result) : Result :=
  if r && s.rs.isEmpty then .next (s.raise .rsUnderflow) else go

/-- Takes one operand (R285): the top cell and what lies below it. Parameter stack underflow comes before the
return bit's check (R289). -/
def State.pop1 (r : Bool) (s : State) (go : Cell → List Cell → Result) : Result :=
  match s.ps with
  | x :: rest => s.checkReturn r (go x rest)
  | [] => .next (s.raise .psUnderflow)

/-- Takes two operands (R285): the top cell, the next cell and what lies below them. -/
def State.pop2 (r : Bool) (s : State) (go : Cell → Cell → List Cell → Result) : Result :=
  match s.ps with
  | x :: y :: rest => s.checkReturn r (go x y rest)
  | _ => .next (s.raise .psUnderflow)

/-- The instruction waits (R46, R74): the step changes nothing else, and the next one tries it again. -/
def State.wait (w : Wait) (s : State) : Result := .next { s with waiting := w }

/-- A data access on the program bus: made where the bus answers in this step, else waited for (R74, U18; what a
retry leaves is log 42). -/
def State.onBus (s : State) (go : Result) : Result :=
  match s.dataAnswer with
  | .answered => go
  | .held => s.wait .blocked
  | .retry => s.wait .retried

/-- Ends an instruction that leaves the parameter stack `ps'` and touches nothing else (R12, R120). -/
def State.leave (r : Bool) (s : State) (ps' : List Cell) : Result :=
  s.settle ((s.withStacks ps' s.rs).finish r)

end Sys2Proof.Machine
end

