-- ==== Sys2Proof/Machine/Boundary.lean ====
section
/-!
DEFINITION. What happens between instructions: the environment's sample, reset (spec/70_reset_and_hazards.md R320
to R322), interrupt entry (spec/60_exceptions.md R300 to R306), the fetch and its fault (R283), and a blocked
instruction tried again (spec/10_state.md R46).
-/

namespace Sys2Proof.Machine

/-- What a step does before an instruction's own operation: it is over, or it runs this instruction. -/
inductive Begin where
  | done (s : State)
  | run (i : Instr) (s : State)
  deriving DecidableEq, Repr

/-- The writes of other bus masters, in order (R70). -/
def State.busWrites (s : State) (ws : List (Cell × Cell)) : State :=
  ws.foldl (fun t w => t.busWrite w.1 w.2) s

/-- The environment's lines take their values for this step; the free values' counter moves on, the interrupt
acknowledge of the last step ends (R301). DESIGN CHOICE: the order, and that the lines stay as they are after the last
sample (log 8). DESIGN CHOICE: data wait in the input device in order, as many as arrive, and stay until read or until
the sample withdraws them; the spec leaves the buffering open (91 N15), so the sample decides (log 43). -/
def State.latch (s : State) : State :=
  match s.env with
  | [] => { s with irqAck := false, draw := s.draw + 1 }
  | e :: later =>
    { s with
      irqAck := false
      draw := s.draw + 1
      env := later
      irqReq := e.irqReq
      fetchAnswer := e.fetchAnswer
      dataAnswer := e.dataAnswer
      keyQueue := s.keyQueue.drop e.keyWithdrawn ++ e.keyArrivals
      outReady := e.outReady }.busWrites e.busWrites

/-- The environment asserts reset at this step (R320). -/
def State.resetAsserted (s : State) : Bool :=
  match s.env with
  | [] => false
  | e :: _ => e.reset

/-- Reset (R321, R50): the core's state; memory and the environment stay. -/
def State.reboot (s : State) : State :=
  { s with
    pc := 0x0000#16
    ps := [0x0000#16]
    rs := []
    ipsN := 0
    irsN := 0
    ien := s.cfg.ienReset
    ir := 0x0000#16
    stash := []
    waiting := .no
    cof := none }

/-- An interrupt is taken at this boundary (R300). -/
def State.interruptTaken (s : State) : Bool :=
  s.cfg.extIrq && s.ien && s.irqReq != 0x0000#16

/-- Interrupt entry (R300): the address of the next instruction goes on the return stack, interrupts are
disabled, the routine starts. A return stack without room raises the overflow instead. -/
def State.enterInterrupt (s : State) : State :=
  if s.overflows s.ps.length (s.rs.length + 1) then s.raise .rsOverflow
  else
    { s.withStacks s.ps (s.pc :: s.rs) with ien := false, irqAck := true }.redirect s.irqReq
      (some .call)

/-- The word at `pc` goes into the instruction register (R47). -/
def State.fetch (s : State) : State := { s with ir := s.fetchWord }

/-- The instruction that waits is tried again in this step: always where it is blocked (R306), and after a retry
where no interrupt is taken in its place (R74; log 42). -/
def State.triesAgain (s : State) : Bool :=
  match s.waiting with
  | .no => false
  | .blocked => true
  | .retried => !s.interruptTaken

/-- Reset first, then an instruction that waits, then a fetch that the bus holds (no interrupt, R74), then an
interrupt (R304), then a fetch that has to be made again (R74) or faults (R283), else the instruction at `pc`. -/
def State.begin (s : State) : Begin :=
  let t := s.latch
  if s.resetAsserted then .done t.reboot
  else if t.triesAgain then .run (decodeWord t.ir) { t with waiting := .no }
  else if t.waiting = .no ∧ t.fetchAnswer = .held then .done t
  else if t.interruptTaken then .done { t with waiting := .no }.enterInterrupt
  else if t.fetchAnswer = .retry then .done t
  else if !t.cfg.valid t.pc .fetch then .done (t.raise .addressOutOfRange)
  else .run (decodeWord t.fetchWord) t.fetch

/-- The next sample of the environment without reset, interrupt or writes, and with the fetch answered. -/
def quietNext : List EnvSample → List EnvSample
  | [] => []
  | e :: later => { e with reset := false, irqReq := 0x0000#16, fetchAnswer := .answered, busWrites := [] } :: later

/-- A region that lets the word at `a` be fetched from memory. -/
def Region.openAt (a : Cell) (g : Region) : Region :=
  if g.covers a then { g with denyFetch := false, device := false } else g

/-- The machine with the word `w` where the next step fetches: in memory at `pc`, nothing older fetched ahead
there, the address fetchable memory that the bus answers, no waiting instruction, and no reset or interrupt at the
next boundary. -/
def State.placeNext (s : State) (w : Cell) : State :=
  { s with
    cfg := { s.cfg with regions := s.cfg.regions.map (Region.openAt s.pc) }
    mem := Memory.putWord s.cfg.byteOrder s.mem s.pc w
    stash := s.stash.filter fun c => c.1 ≠ s.pc
    waiting := .no
    irqReq := 0x0000#16
    fetchAnswer := .answered
    env := quietNext s.env }

end Sys2Proof.Machine
end

