-- ==== Sys2Proof/Machine/Flags.lean ====
section
/-!
DEFINITION. Flag cells (spec/44_alu.md R150): the N1 has no flag register (R27); a comparison, and a read of an
enable or ready flag, delivers a cell.
-/

namespace Sys2Proof.Machine

/-- TRUE is 0xFFFF and FALSE is 0x0000 (R150, R42). -/
def flag (c : Bool) : Cell := if c then 0xFFFF#16 else 0x0000#16

/-- Equality of two cells (R161, R162). -/
def flagEq (a b : Cell) : Cell := flag (a == b)

/-- Inequality of two cells (R163, R164). -/
def flagNe (a b : Cell) : Cell := flag (a != b)

/-- Unsigned `a < b` (R167). -/
def flagUlt (a b : Cell) : Cell := flag (a.toNat < b.toNat)

/-- Unsigned `a > b` (R165). -/
def flagUgt (a b : Cell) : Cell := flag (a.toNat > b.toNat)

/-- Signed `a < b` (R166). -/
def flagLt (a b : Cell) : Cell := flag (a.toInt < b.toInt)

/-- Signed `a > b` (R168). -/
def flagGt (a b : Cell) : Cell := flag (a.toInt > b.toInt)

/-- A cell read as a flag that is written (R42): any cell but 0x0000 is true. -/
def cellIsTrue (v : Cell) : Bool := v != 0x0000#16

end Sys2Proof.Machine
end

