-- ==== Sys2Proof/Machine/Operands.lean ====
section
/-!
DEFINITION. Operand forms: how an immediate becomes a cell or an address (spec/30_encoding.md R99), and which cells
an ALU instruction works on (spec/44_alu.md R145 to R147).
-/

namespace Sys2Proof.Machine

/-- `uimm` (R99): zero extension. -/
def uimm (imm5 : BitVec 5) : Cell := BitVec.ofNat 16 imm5.toNat

/-- `simm` (R99): sign extension. -/
def simm (imm5 : BitVec 5) : Cell := BitVec.ofInt 16 imm5.toInt

/-- `oimm` (R99): the field less 16, in two's complement. -/
def oimm (imm5 : BitVec 5) : Cell := BitVec.ofInt 16 ((imm5.toNat : Int) - 16)

/-- The immediate of an operator, widened as Table 2-1 says for it (R146, R148). -/
def widen (op : AluOp) (imm5 : BitVec 5) : Cell :=
  match op with
  | .sum => uimm imm5
  | .abs => oimm imm5
  | .difr => uimm imm5
  | .dif => oimm imm5
  | .umin => uimm imm5
  | .max => oimm imm5
  | .umax => uimm imm5
  | .min => oimm imm5
  | .equ => uimm imm5
  | .eq => oimm imm5
  | .neu => uimm imm5
  | .ne => oimm imm5
  | .ugt => uimm imm5
  | .lt => oimm imm5
  | .ult => uimm imm5
  | .gt => oimm imm5
  | .umul => uimm imm5
  | .smul => simm imm5
  | .and => simm imm5
  | .xor => simm imm5
  | .or => uimm imm5
  | .lsr => uimm imm5
  | .lsl => uimm imm5
  | .asr => uimm imm5
  | .lithi => simm imm5

/-- The value a shift shifts (R174): `B` in the immediate form, `A` in the stack form. -/
def shiftValue (immediate : Bool) (a b : Cell) : Cell := if immediate then b else a

/-- The amount a shift shifts by (R174): `A` in the immediate form, `B` in the stack form. -/
def shiftAmount (immediate : Bool) (a b : Cell) : Cell := if immediate then a else b

/-- A literal's cell (R140): `sext_12(lit12)`. -/
def literal (lit12 : BitVec 12) : Cell := BitVec.ofInt 16 lit12.toInt

/-- A branch's target (R99, R135): relative to the instruction after the branch. -/
def branchTarget (pc : Cell) (rel13 : BitVec 13) : Cell := pc + 1#16 + BitVec.ofInt 16 rel13.toInt

/-- A direct jump's or call's target, `T(a14)` (R125): the window's upper two bits and the field. -/
def directTarget (c : Config) (a14 : BitVec 14) : Cell :=
  BitVec.ofNat 16 (c.aadrOffset.toNat / 2 ^ 14 * 2 ^ 14 + a14.toNat)

/-- A direct memory access's address, `D(m8)` (R230): the window's upper byte and the field. -/
def directAddress (c : Config) (m8 : BitVec 8) : Cell :=
  BitVec.ofNat 16 (c.madrOffset.toNat / 2 ^ 8 * 2 ^ 8 + m8.toNat)

end Sys2Proof.Machine
end

