-- ==== Sys2Proof/Machine/Alu.lean ====
section
/-!
DEFINITION. The ALU instructions (spec/44_alu.md R145 to R182): the two result cells of each operator, the generic
instruction of R151, and one meaning per row. The result cells are functions of the operator, the form and the
operands, and of nothing that an implementation fixes (R181).
-/

namespace Sys2Proof.Machine

/-- `lo(op, A, B)` for a shift whose amount is 31 or less; from 32 on the source does not say (R180). -/
def shiftResult (op : AluOp) (v n within : Cell) : Cell :=
  if n.toNat ≤ 31 then within else Config.shiftBig op v n

/-- LSR (R174): the value over 2 to the amount, rounded down, unsigned. -/
def shiftRight (v n : Cell) : Cell := shiftResult .lsr v n (BitVec.ofNat 16 (v.toNat / 2 ^ n.toNat))

/-- LSL (R175): the value times 2 to the amount. -/
def shiftLeft (v n : Cell) : Cell := shiftResult .lsl v n (BitVec.ofNat 16 (v.toNat * 2 ^ n.toNat))

/-- ASR (R176): the value over 2 to the amount, rounded down, signed. -/
def shiftArithmetic (v n : Cell) : Cell := shiftResult .asr v n (BitVec.ofInt 16 (v.toInt / 2 ^ n.toNat))

/-- `lo(op, A, B)`: the low result cell (R153 to R177), a function of the operator and its operands alone (R181). -/
def aluLow (op : AluOp) (immediate : Bool) (a b : Cell) : Cell :=
  match op with
  | .sum => BitVec.ofNat 16 (a.toNat + b.toNat)
  | .abs => BitVec.ofNat 16 (a.toNat + b.toInt.natAbs)
  | .difr => BitVec.ofInt 16 ((b.toNat : Int) - a.toNat)
  | .dif => BitVec.ofInt 16 ((a.toNat : Int) - b.toNat)
  | .umin => if a.toNat ≤ b.toNat then a else b
  | .max => if a.toInt ≥ b.toInt then a else b
  | .umax => if a.toNat ≥ b.toNat then a else b
  | .min => if a.toInt ≤ b.toInt then a else b
  | .equ => flagEq a b
  | .eq => flagEq a b
  | .neu => flagNe a b
  | .ne => flagNe a b
  | .ugt => flagUgt a b
  | .lt => flagLt a b
  | .ult => flagUlt a b
  | .gt => flagGt a b
  | .umul => BitVec.ofNat 16 (a.toNat * b.toNat)
  | .smul => BitVec.ofInt 16 (a.toInt * b.toInt)
  | .and => a &&& b
  | .xor => a ^^^ b
  | .or => a ||| b
  | .lsr => shiftRight (shiftValue immediate a b) (shiftAmount immediate a b)
  | .lsl => shiftLeft (shiftValue immediate a b) (shiftAmount immediate a b)
  | .asr => shiftArithmetic (shiftValue immediate a b) (shiftAmount immediate a b)
  | .lithi => BitVec.ofNat 16 (a.toNat % 16 * 4096 + b.toNat % 4096)

/-- `hi(op, A, B)`: the upper result cell (R152): the products' upper half (R169, R170), the sign of LITHI's
immediate (R177), and a free value for every other operator; for every machine the same (R181). -/
def aluHigh (op : AluOp) (immediate : Bool) (a b : Cell) : Cell :=
  match op with
  | .umul => BitVec.ofNat 16 (a.toNat * b.toNat / 65536)
  | .smul => BitVec.ofInt 16 (a.toInt * b.toInt / 65536)
  | .lithi => if a.toInt < 0 then 0xFFFF#16 else 0x0000#16
  | op => Config.aluHi op immediate a b

/-- What an ALU result leaves on the parameter stack (R149): the low cell, and with a double-cell result the
upper cell on top of it. -/
def aluPush (op : AluOp) (double immediate : Bool) (a b : Cell) (rest : List Cell) : List Cell :=
  if double then aluHigh op immediate a b :: aluLow op immediate a b :: rest
  else aluLow op immediate a b :: rest

/-- The generic ALU instruction (R147, R151): `imm5` = 0 is the stack form, A the next cell and B the top; any
other `imm5` the immediate form, A the widened immediate and B the top. -/
def State.alu (op : AluOp) (double r : Bool) (imm5 : BitVec 5) (s : State) : Result :=
  if imm5 = 0#5 then
    s.pop2 r fun b a rest => s.leave r (aluPush op double false a b rest)
  else
    s.pop1 r fun b rest => s.leave r (aluPush op double true (widen op imm5) b rest)

/-- An undefined opcode (R179, R288): the Undefined word exception, nothing consumed. -/
def State.undefined (s : State) : Result := .next (s.raise .undefinedWord)

/-! ## The meanings -/

/-- LITHI without an immediate (R178): the spec gives the four words no meaning. -/
def execLithiStackForm (_r _t : Bool) (_s : State) : Result := .refused .lithiWithoutImmediate

/-- SUM (R153). -/
def execSum (r : Bool) (imm5 : BitVec 5) (s : State) : Result := s.alu .sum false r imm5

/-- SUM.D (R153). -/
def execSumD (r : Bool) (imm5 : BitVec 5) (s : State) : Result := s.alu .sum true r imm5

/-- ABS (R154). -/
def execAbs (r : Bool) (imm5 : BitVec 5) (s : State) : Result := s.alu .abs false r imm5

/-- ABS.D (R154). -/
def execAbsD (r : Bool) (imm5 : BitVec 5) (s : State) : Result := s.alu .abs true r imm5

/-- DIFR (R155). -/
def execDifr (r : Bool) (imm5 : BitVec 5) (s : State) : Result := s.alu .difr false r imm5

/-- DIFR.D (R155). -/
def execDifrD (r : Bool) (imm5 : BitVec 5) (s : State) : Result := s.alu .difr true r imm5

/-- DIF (R156). -/
def execDif (r : Bool) (imm5 : BitVec 5) (s : State) : Result := s.alu .dif false r imm5

/-- DIF.D (R156). -/
def execDifD (r : Bool) (imm5 : BitVec 5) (s : State) : Result := s.alu .dif true r imm5

/-- UMIN (R157). -/
def execUmin (r : Bool) (imm5 : BitVec 5) (s : State) : Result := s.alu .umin false r imm5

/-- UMIN.D (R157). -/
def execUminD (r : Bool) (imm5 : BitVec 5) (s : State) : Result := s.alu .umin true r imm5

/-- MAX (R158). -/
def execMax (r : Bool) (imm5 : BitVec 5) (s : State) : Result := s.alu .max false r imm5

/-- MAX.D (R158). -/
def execMaxD (r : Bool) (imm5 : BitVec 5) (s : State) : Result := s.alu .max true r imm5

/-- UMAX (R159). -/
def execUmax (r : Bool) (imm5 : BitVec 5) (s : State) : Result := s.alu .umax false r imm5

/-- UMAX.D (R159). -/
def execUmaxD (r : Bool) (imm5 : BitVec 5) (s : State) : Result := s.alu .umax true r imm5

/-- MIN (R160). -/
def execMin (r : Bool) (imm5 : BitVec 5) (s : State) : Result := s.alu .min false r imm5

/-- MIN.D (R160). -/
def execMinD (r : Bool) (imm5 : BitVec 5) (s : State) : Result := s.alu .min true r imm5

/-- EQU (R161). -/
def execEqu (r : Bool) (imm5 : BitVec 5) (s : State) : Result := s.alu .equ false r imm5

/-- EQU.D (R161). -/
def execEquD (r : Bool) (imm5 : BitVec 5) (s : State) : Result := s.alu .equ true r imm5

/-- EQ (R162). -/
def execEq (r : Bool) (imm5 : BitVec 5) (s : State) : Result := s.alu .eq false r imm5

/-- EQ.D (R162). -/
def execEqD (r : Bool) (imm5 : BitVec 5) (s : State) : Result := s.alu .eq true r imm5

/-- NEU (R163). -/
def execNeu (r : Bool) (imm5 : BitVec 5) (s : State) : Result := s.alu .neu false r imm5

/-- NEU.D (R163). -/
def execNeuD (r : Bool) (imm5 : BitVec 5) (s : State) : Result := s.alu .neu true r imm5

/-- NE (R164). -/
def execNe (r : Bool) (imm5 : BitVec 5) (s : State) : Result := s.alu .ne false r imm5

/-- NE.D (R164). -/
def execNeD (r : Bool) (imm5 : BitVec 5) (s : State) : Result := s.alu .ne true r imm5

/-- UGT (R165). -/
def execUgt (r : Bool) (imm5 : BitVec 5) (s : State) : Result := s.alu .ugt false r imm5

/-- UGT.D (R165). -/
def execUgtD (r : Bool) (imm5 : BitVec 5) (s : State) : Result := s.alu .ugt true r imm5

/-- LT (R166). -/
def execLt (r : Bool) (imm5 : BitVec 5) (s : State) : Result := s.alu .lt false r imm5

/-- LT.D (R166). -/
def execLtD (r : Bool) (imm5 : BitVec 5) (s : State) : Result := s.alu .lt true r imm5

/-- ULT (R167). -/
def execUlt (r : Bool) (imm5 : BitVec 5) (s : State) : Result := s.alu .ult false r imm5

/-- ULT.D (R167). -/
def execUltD (r : Bool) (imm5 : BitVec 5) (s : State) : Result := s.alu .ult true r imm5

/-- GT (R168). -/
def execGt (r : Bool) (imm5 : BitVec 5) (s : State) : Result := s.alu .gt false r imm5

/-- GT.D (R168). -/
def execGtD (r : Bool) (imm5 : BitVec 5) (s : State) : Result := s.alu .gt true r imm5

/-- UMUL (R169). -/
def execUmul (r : Bool) (imm5 : BitVec 5) (s : State) : Result := s.alu .umul false r imm5

/-- UMUL.D (R169). -/
def execUmulD (r : Bool) (imm5 : BitVec 5) (s : State) : Result := s.alu .umul true r imm5

/-- SMUL (R170). -/
def execSmul (r : Bool) (imm5 : BitVec 5) (s : State) : Result := s.alu .smul false r imm5

/-- SMUL.D (R170). -/
def execSmulD (r : Bool) (imm5 : BitVec 5) (s : State) : Result := s.alu .smul true r imm5

/-- Reserved operator 10010 (R179), single-cell row. -/
def execRsv10010 (_r : Bool) (_imm5 : BitVec 5) (s : State) : Result := s.undefined

/-- Reserved operator 10010 (R179), double-cell row. -/
def execRsv10010D (_r : Bool) (_imm5 : BitVec 5) (s : State) : Result := s.undefined

/-- Reserved operator 10011 (R179), single-cell row. -/
def execRsv10011 (_r : Bool) (_imm5 : BitVec 5) (s : State) : Result := s.undefined

/-- Reserved operator 10011 (R179), double-cell row. -/
def execRsv10011D (_r : Bool) (_imm5 : BitVec 5) (s : State) : Result := s.undefined

/-- AND (R171). -/
def execAnd (r : Bool) (imm5 : BitVec 5) (s : State) : Result := s.alu .and false r imm5

/-- AND.D (R171). -/
def execAndD (r : Bool) (imm5 : BitVec 5) (s : State) : Result := s.alu .and true r imm5

/-- XOR (R172). -/
def execXor (r : Bool) (imm5 : BitVec 5) (s : State) : Result := s.alu .xor false r imm5

/-- XOR.D (R172). -/
def execXorD (r : Bool) (imm5 : BitVec 5) (s : State) : Result := s.alu .xor true r imm5

/-- OR (R173). -/
def execOr (r : Bool) (imm5 : BitVec 5) (s : State) : Result := s.alu .or false r imm5

/-- OR.D (R173). -/
def execOrD (r : Bool) (imm5 : BitVec 5) (s : State) : Result := s.alu .or true r imm5

/-- Reserved operator 10111 (R179), single-cell row. -/
def execRsv10111 (_r : Bool) (_imm5 : BitVec 5) (s : State) : Result := s.undefined

/-- Reserved operator 10111 (R179), double-cell row. -/
def execRsv10111D (_r : Bool) (_imm5 : BitVec 5) (s : State) : Result := s.undefined

/-- LSR (R174). -/
def execLsr (r : Bool) (imm5 : BitVec 5) (s : State) : Result := s.alu .lsr false r imm5

/-- LSR.D (R174). -/
def execLsrD (r : Bool) (imm5 : BitVec 5) (s : State) : Result := s.alu .lsr true r imm5

/-- LSL (R175). -/
def execLsl (r : Bool) (imm5 : BitVec 5) (s : State) : Result := s.alu .lsl false r imm5

/-- LSL.D (R175). -/
def execLslD (r : Bool) (imm5 : BitVec 5) (s : State) : Result := s.alu .lsl true r imm5

/-- ASR (R176). -/
def execAsr (r : Bool) (imm5 : BitVec 5) (s : State) : Result := s.alu .asr false r imm5

/-- ASR.D (R176). -/
def execAsrD (r : Bool) (imm5 : BitVec 5) (s : State) : Result := s.alu .asr true r imm5

/-- Reserved operator 11011 (R179), single-cell row. -/
def execRsv11011 (_r : Bool) (_imm5 : BitVec 5) (s : State) : Result := s.undefined

/-- Reserved operator 11011 (R179), double-cell row. -/
def execRsv11011D (_r : Bool) (_imm5 : BitVec 5) (s : State) : Result := s.undefined

/-- LITHI (R177). -/
def execLithi (r : Bool) (imm5 : BitVec 5) (s : State) : Result := s.alu .lithi false r imm5

/-- LITHI.D (R177). -/
def execLithiD (r : Bool) (imm5 : BitVec 5) (s : State) : Result := s.alu .lithi true r imm5

/-- Reserved operator 11101 (R179), single-cell row. -/
def execRsv11101 (_r : Bool) (_imm5 : BitVec 5) (s : State) : Result := s.undefined

/-- Reserved operator 11101 (R179), double-cell row. -/
def execRsv11101D (_r : Bool) (_imm5 : BitVec 5) (s : State) : Result := s.undefined

/-- Reserved operator 11110 (R179), single-cell row. -/
def execRsv11110 (_r : Bool) (_imm5 : BitVec 5) (s : State) : Result := s.undefined

/-- Reserved operator 11110 (R179), double-cell row. -/
def execRsv11110D (_r : Bool) (_imm5 : BitVec 5) (s : State) : Result := s.undefined

/-- Reserved operator 11111 (R179), single-cell row. -/
def execRsv11111 (_r : Bool) (_imm5 : BitVec 5) (s : State) : Result := s.undefined

/-- Reserved operator 11111 (R179), double-cell row. -/
def execRsv11111D (_r : Bool) (_imm5 : BitVec 5) (s : State) : Result := s.undefined

end Sys2Proof.Machine
end

