-- ==== Sys2Proof/Machine/Literal.lean ====
section
/-!
DEFINITION. Literals (spec/43_literal.md R140 to R143).
-/

namespace Sys2Proof.Machine

/-- Pushes one cell on the parameter stack and ends the instruction (R12, R120, R140, R241). -/
def State.pushAndLeave (r : Bool) (s : State) (v : Cell) : Result :=
  s.checkReturn r (s.leave r (v :: s.ps))

/-- LIT n (R140). -/
def execLit (r : Bool) (lit12 : BitVec 12) (s : State) : Result := s.pushAndLeave r (literal lit12)

end Sys2Proof.Machine
end

