-- ==== Sys2Proof/Machine/FunctionRegister.lean ====
section
/-!
DEFINITION. Function register access (spec/47_function_register.md R240 to R257; the registers in
spec/10_state.md R38 to R46).
-/

namespace Sys2Proof.Machine

/-- A register that is present only with an extension: without it the access is an Undefined word exception,
before any other check (R256). -/
def State.ifPresent (present : Bool) (s : State) (go : Result) : Result :=
  if present then go else .next (s.raise .undefinedWord)

/-- FRW 0x00, the PSD write (R39, R244): 0x0000 clears the parameter stack. -/
def execFrwPsd (r : Bool) (s : State) : Result :=
  s.pop1 r fun v rest => s.leave r (if v = 0x0000#16 then [] else rest)

/-- FRR 0x00, the PSD read (R38, R243): the depth before the push. -/
def execFrrPsd (r : Bool) (s : State) : Result := s.pushAndLeave r (BitVec.ofNat 16 s.ps.length)

/-- FRW 0x01, the RSD write (R41, R246): 0x0000 clears the return stack. With the return bit it has no meaning
(R122). -/
def execFrwRsd (r : Bool) (s : State) : Result :=
  if r then .refused .returnBitOnReturnStackUse
  else s.pop1 false fun v rest =>
    s.settle ((s.withStacks rest (if v = 0x0000#16 then [] else s.rs)).finish false)

/-- FRR 0x01, the RSD read (R40, R245). -/
def execFrrRsd (r : Bool) (s : State) : Result := s.pushAndLeave r (BitVec.ofNat 16 s.rs.length)

/-- FRW 0x02, a write to PC (R248): "Write accesses are not supported." -/
def execFrwPc (_r : Bool) (s : State) : Result := s.ifPresent s.cfg.extPc (.refused .readOnlyRegister)

/-- FRR 0x02, the PC read (R43, R247). -/
def execFrrPc (r : Bool) (s : State) : Result := s.ifPresent s.cfg.extPc (s.pushAndLeave r s.pc)

/-- FRW 0x03, the IEN write (R42, R250). -/
def execFrwIen (r : Bool) (s : State) : Result :=
  s.ifPresent s.cfg.extIrq
    (s.pop1 r fun v rest =>
      s.settle ({ s.withStacks rest s.rs with ien := cellIsTrue v }.finish r))

/-- FRR 0x03, the IEN read (R42, R249). -/
def execFrrIen (r : Bool) (s : State) : Result :=
  s.ifPresent s.cfg.extIrq (s.pushAndLeave r (flag s.ien))

/-- FRW 0x04, a write to KEY? (R255): read only. -/
def execFrwKeyQ (_r : Bool) (s : State) : Result := s.ifPresent s.cfg.extKey (.refused .readOnlyRegister)

/-- FRR 0x04, the KEY? read (R44, R251): is a datum waiting. -/
def execFrrKeyQ (r : Bool) (s : State) : Result :=
  s.ifPresent s.cfg.extKey (s.pushAndLeave r (flag (!s.keyQueue.isEmpty)))

/-- FRW 0x05, a write to EMIT? (R255): read only. -/
def execFrwEmitQ (_r : Bool) (s : State) : Result := s.ifPresent s.cfg.extKey (.refused .readOnlyRegister)

/-- FRR 0x05, the EMIT? read (R45, R252): is the output device ready. -/
def execFrrEmitQ (r : Bool) (s : State) : Result :=
  s.ifPresent s.cfg.extKey (s.pushAndLeave r (flag s.outReady))

/-- FRW 0x06, the EMIT write (R46, R254): blocks until the output device is ready. -/
def execFrwKeyEmit (r : Bool) (s : State) : Result :=
  s.ifPresent s.cfg.extKey
    (s.pop1 r fun v rest =>
      if s.outReady then
        s.settle ({ s.withStacks rest s.rs with emitted := s.emitted ++ [v] }.finish r)
      else s.wait .blocked)

/-- FRR 0x06, the KEY read (R46, R253): blocks until the input device has a datum, which it then drops. -/
def execFrrKeyEmit (r : Bool) (s : State) : Result :=
  s.ifPresent s.cfg.extKey
    (s.checkReturn r
      (match s.keyQueue with
      | [] => s.wait .blocked
      | v :: rest => s.settle ({ s.withStacks (v :: s.ps) s.rs with keyQueue := rest }.finish r)))

/-- FRW of an address without a register (R256). -/
def execFrw (_r : Bool) (_fadr : BitVec 8) (s : State) : Result := .next (s.raise .undefinedWord)

/-- FRR of an address without a register (R256). -/
def execFrr (_r : Bool) (_fadr : BitVec 8) (s : State) : Result := .next (s.raise .undefinedWord)

end Sys2Proof.Machine
end

