-- ==== Sys2Proof/Machine/Jump.lean ====
section
/-!
DEFINITION. Jump, call and conditional branch (spec/41_jump_call.md R125 to R132, spec/42_branch.md R135 to R139).
-/

namespace Sys2Proof.Machine

/-- JUMP a (R126). -/
def execJump (a14 : BitVec 14) (s : State) : Result :=
  .next (s.redirect (directTarget s.cfg a14) (some .jump))

/-- JUMPI (R127). -/
def execJumpi (s : State) : Result :=
  s.pop1 false fun t rest => .next ((s.withStacks rest s.rs).redirect t (some .jump))

/-- A call to `t` that leaves the parameter stack `rest` (R128, R129): the return address, the next word's, is pushed,
unless R287 says that the return stack overflows. -/
def State.callTo (s : State) (rest : List Cell) (t : Cell) : Result :=
  s.settle ((s.withStacks rest ((s.pc + 1#16) :: s.rs)).redirect t (some .call))

/-- CALL a (R128). -/
def execCall (a14 : BitVec 14) (s : State) : Result := s.callTo s.ps (directTarget s.cfg a14)

/-- CALLI (R129): it takes one cell and pushes one, so by the first line of R287 (D23: never when nothing grows) its
push never overflows (log 41). -/
def execCalli (s : State) : Result := s.pop1 false fun t rest => s.callTo rest t

/-- BRZ d (R135): the tested cell is popped either way. -/
def execBrz (rel13 : BitVec 13) (s : State) : Result :=
  s.pop1 false fun x rest =>
    .next (if x = 0x0000#16 then
        (s.withStacks rest s.rs).redirect (branchTarget s.pc rel13) (some .branch)
      else (s.withStacks rest s.rs).advance)

/-- BRZ with the return bit (R137): the spec gives it no meaning. -/
def execBrzReturn (_rel13 : BitVec 13) (_s : State) : Result := .refused .branchWithReturnBit

end Sys2Proof.Machine
end

