-- ==== Sys2Proof/Machine/MemoryAccess.lean ====
section
/-!
DEFINITION. Memory access instructions (spec/46_memory_access.md R230 to R238).
-/

namespace Sys2Proof.Machine

/-- Stores `v` at `a`, once the bus answers (R74), and ends the instruction with the parameter stack `rest` (R231,
R233). A store that the environment answers with an error may or may not have written (R66). -/
def State.store (r : Bool) (s : State) (a v : Cell) (rest : List Cell) : Result :=
  s.onBus
    (if s.cfg.valid a .write then
      .next (((s.withStacks rest s.rs).storeWord a v).finish r)
    else if Config.faultingStoreWrites s.draw a then .next (s.dataFault (s.storeWord a v) rest)
    else .next (s.dataFault s rest))

/-- Reads `a` onto the parameter stack `rest`, once the bus answers (R74), and ends the instruction (R232, R234). -/
def State.load (r : Bool) (s : State) (a : Cell) (rest : List Cell) : Result :=
  s.onBus
    (if s.cfg.valid a .read then s.leave r (s.readWord .read a :: rest)
    else .next (s.dataFault s rest))

/-- STI (R231): the address is on top, the datum below it. -/
def execSti (r : Bool) (s : State) : Result := s.pop2 r fun a v rest => s.store r a v rest

/-- LDI (R232). -/
def execLdi (r : Bool) (s : State) : Result := s.pop1 r fun a rest => s.load r a rest

/-- ST m (R233). -/
def execSt (r : Bool) (m8 : BitVec 8) (s : State) : Result :=
  s.pop1 r fun v rest => s.store r (directAddress s.cfg m8) v rest

/-- LD m (R234). -/
def execLd (r : Bool) (m8 : BitVec 8) (s : State) : Result :=
  s.checkReturn r (s.load r (directAddress s.cfg m8) s.ps)

end Sys2Proof.Machine
end

