-- ==== Sys2Proof/Machine/Stack.lean ====
section
/-!
DEFINITION. The stack instruction (spec/45_stack.md R200 to R226): the transfers of a transition pattern, its
underflow rules, and one meaning per row.
-/

namespace Sys2Proof.Machine

/-- The cells a transition pattern moves (R200): the upper parameter stack, the upper return stack, and the tops of
the two intermediate stacks, `I` and `J`. -/
inductive Spot where
  | ps0
  | ps1
  | ps2
  | ps3
  | rs0
  | i
  | j
  deriving DecidableEq, Repr

/-- The low bit of a UST field: the upward transfer (R201). -/
def ustUp : Ust → Bool
  | .up => true
  | .exchange => true
  | _ => false

/-- The high bit of a UST field: the downward transfer (R201). -/
def ustDown : Ust → Bool
  | .down => true
  | .exchange => true
  | _ => false

/-- A cell would receive two sources (R204). -/
def reserved (p : StkPattern) : Bool :=
  (ustUp p.u1 && ustDown p.u0) || (ustUp p.u2 && ustDown p.u1) || (ustUp p.u3 && ustDown p.u2)

/-- The pattern reads or writes the return stack (R122, R208). -/
def usesReturnStack (p : StkPattern) : Bool := p.u0 != .none || p.irs

/-- The old PS3 is pushed onto the intermediate stack (R202). -/
def ipsPush (p : StkPattern) : Bool := p.ips && ustDown p.u3

/-- The intermediate stack is pulled into PS3 (R202). -/
def ipsPull (p : StkPattern) : Bool := p.ips && !ustDown p.u3

/-- The old RS0 is pushed onto the intermediate return stack (R203). -/
def irsPush (p : StkPattern) : Bool := p.irs && ustUp p.u0

/-- The intermediate return stack is pulled into RS0 (R203). -/
def irsPull (p : StkPattern) : Bool := p.irs && !ustUp p.u0

/-- Where a cell's new value comes from; none: it keeps its value (R205, step 1). -/
def source (p : StkPattern) : Spot → Option Spot
  | .ps0 => if ustUp p.u1 then some .ps1 else if ustDown p.u0 then some .rs0 else none
  | .ps1 => if ustUp p.u2 then some .ps2 else if ustDown p.u1 then some .ps0 else none
  | .ps2 => if ustUp p.u3 then some .ps3 else if ustDown p.u2 then some .ps1 else none
  | .ps3 => if ustDown p.u3 then some .ps2 else if ipsPull p then some .i else none
  | .rs0 => if ustUp p.u0 then some .ps0 else if irsPull p then some .j else none
  | .i => none
  | .j => none

/-- The cells of the upper stacks. -/
def upperCells : List Spot := [.ps0, .ps1, .ps2, .ps3, .rs0]

/-- `outs(c)` (R205, step 1): how many cells, an intermediate stack among them, take the old value of `c`. -/
def outs (p : StkPattern) (c : Spot) : Nat :=
  (upperCells.filter fun d => source p d = some c).length +
    (if c = .ps3 ∧ ipsPush p then 1 else 0) + (if c = .rs0 ∧ irsPush p then 1 else 0)

/-- "DROP" rule (R206): overwritten without passing its content on. -/
def dropRule (p : StkPattern) (c : Spot) : Bool := (source p c).isSome && outs p c == 0

/-- "DUP" rule (R206): its content is kept and passed on, or passed on twice. -/
def dupRule (p : StkPattern) (c : Spot) : Bool :=
  1 ≤ outs p c && ((source p c).isNone || 2 ≤ outs p c)

/-- "SWAP" rule (R206): one of two cells that are exchanged. -/
def swapRule (p : StkPattern) : Spot → Bool
  | .ps0 => p.u1 == .exchange || p.u0 == .exchange
  | .ps1 => p.u2 == .exchange || p.u1 == .exchange
  | .ps2 => p.u3 == .exchange || p.u2 == .exchange
  | .ps3 => p.u3 == .exchange
  | .rs0 => p.u0 == .exchange
  | .i => false
  | .j => false

/-- "Cross" rule (R206): moved across the boundary of the two stacks. -/
def crossRule (p : StkPattern) : Spot → Bool
  | .ps0 => ustUp p.u0
  | .rs0 => ustDown p.u0
  | _ => false

/-- The cell must hold content (R206). -/
def required (p : StkPattern) (c : Spot) : Bool :=
  dropRule p c || dupRule p c || swapRule p c || crossRule p c

/-- The old value of a cell, if it holds content (R205). -/
def value (ps rs : List Cell) : Spot → Option Cell
  | .ps0 => ps[0]?
  | .ps1 => ps[1]?
  | .ps2 => ps[2]?
  | .ps3 => ps[3]?
  | .rs0 => rs[0]?
  | .i => ps[4]?
  | .j => rs[1]?

/-- The new value of a cell, if it then holds content (R205, step 3). -/
def newValue (p : StkPattern) (ps rs : List Cell) (c : Spot) : Option Cell :=
  value ps rs ((source p c).getD c)

/-- A required cell of the parameter stack holds no content (R206). -/
def lacksParameter (p : StkPattern) (ps rs : List Cell) : Bool :=
  [Spot.ps0, .ps1, .ps2, .ps3].any fun c => required p c && (value ps rs c).isNone

/-- RS0 is required and holds no content (R206). -/
def lacksReturn (p : StkPattern) (ps rs : List Cell) : Bool :=
  required p .rs0 && (value ps rs .rs0).isNone

/-- The parameter stack's cells below the upper stack afterwards (R205, step 3). -/
def newPsDeep (p : StkPattern) (ps : List Cell) : List Cell :=
  if ipsPush p then ps[3]?.toList ++ ps.drop 4
  else if ipsPull p then ps.drop 5
  else ps.drop 4

/-- The return stack's cells below the upper stack afterwards (R205, step 3). -/
def newRsDeep (p : StkPattern) (rs : List Cell) : List Cell :=
  if irsPush p then rs[0]?.toList ++ rs.drop 1
  else if irsPull p then rs.drop 2
  else rs.drop 1

/-- The parameter stack afterwards (R205, step 4). -/
def newPs (p : StkPattern) (ps rs : List Cell) : List Cell :=
  [Spot.ps0, .ps1, .ps2, .ps3].filterMap (newValue p ps rs) ++ newPsDeep p ps

/-- The return stack afterwards (R205, step 4). -/
def newRs (p : StkPattern) (ps rs : List Cell) : List Cell :=
  (newValue p ps rs .rs0).toList ++ newRsDeep p rs

/-- The general stack instruction of a defined pattern (R205 to R208): underflow checks, the parameter stack's
first, then all transfers at once. -/
def State.transition (r : Bool) (p : StkPattern) (s : State) : Result :=
  if lacksParameter p s.ps s.rs then .next (s.raise .psUnderflow)
  else if lacksReturn p s.ps s.rs then .next (s.raise .rsUnderflow)
  else s.checkReturn r
    (s.settle ((s.withStacks (newPs p s.ps s.rs) (newRs p s.ps s.rs)).finish r))

/-- An instruction that uses the return stack has no meaning with the return bit (R122, R208). -/
def withoutReturnBit (r : Bool) (go : Result) : Result :=
  if r then .refused .returnBitOnReturnStackUse else go

/-- A pattern of the ROT extension, reserved without it (R204, R209). -/
def State.rotExtension (s : State) (go : Result) : Result :=
  if s.cfg.extRot then go else .refused .reservedPattern

/-- NOP (R213). -/
def execNop (r : Bool) (s : State) : Result := s.checkReturn r (s.leave r s.ps)

/-- DROP (R214). -/
def execDrop (r : Bool) (s : State) : Result := s.pop1 r fun _ rest => s.leave r rest

/-- DUP (R215). -/
def execDup (r : Bool) (s : State) : Result := s.pop1 r fun a rest => s.leave r (a :: a :: rest)

/-- SWAP (R216). -/
def execSwap (r : Bool) (s : State) : Result := s.pop2 r fun a b rest => s.leave r (b :: a :: rest)

/-- OVER (R217). -/
def execOver (r : Bool) (s : State) : Result := s.pop2 r fun a b rest => s.leave r (b :: a :: b :: rest)

/-- NIP (R218). -/
def execNip (r : Bool) (s : State) : Result := s.pop2 r fun a _ rest => s.leave r (a :: rest)

/-- Takes the top of the return stack (R219, R221, R222), or raises return stack underflow (R286). -/
def State.popReturn (s : State) (go : Cell → List Cell → Result) : Result :=
  match s.rs with
  | x :: rest => go x rest
  | [] => .next (s.raise .rsUnderflow)

/-- Ends an instruction that leaves both stacks and cannot return. -/
def State.leaveBoth (s : State) (ps' rs' : List Cell) : Result :=
  s.settle ((s.withStacks ps' rs').advance)

/-- RDROP (R219). -/
def execRdrop (r : Bool) (s : State) : Result :=
  withoutReturnBit r (s.popReturn fun _ rest => s.leaveBoth s.ps rest)

/-- >R (R220). -/
def execToR (r : Bool) (s : State) : Result :=
  withoutReturnBit r (s.pop1 false fun a rest => s.leaveBoth rest (a :: s.rs))

/-- R@ (R221). -/
def execRFetch (r : Bool) (s : State) : Result :=
  withoutReturnBit r (s.popReturn fun x _ => s.leaveBoth (x :: s.ps) s.rs)

/-- R> (R222). -/
def execRFrom (r : Bool) (s : State) : Result :=
  withoutReturnBit r (s.popReturn fun x rest => s.leaveBoth (x :: s.ps) rest)

/-- TUCK1, ROT extension (R210). -/
def execTuck1 (r : Bool) (s : State) : Result :=
  s.rotExtension (s.pop2 r fun a b rest => s.leave r (a :: b :: a :: rest))

/-- ROT1, ROT extension (R211). Its pattern has U0 set, so it has no meaning with the return bit. -/
def execRot1 (r : Bool) (s : State) : Result :=
  s.rotExtension (withoutReturnBit r
    (match s.ps with
    | a :: b :: c :: rest => s.leave false (c :: a :: b :: rest)
    | _ => .next (s.raise .psUnderflow)))

/-- NROT1, ROT extension (R212). -/
def execNrot1 (r : Bool) (s : State) : Result :=
  s.rotExtension
    (match s.ps with
    | a :: b :: c :: rest => s.checkReturn r (s.leave r (b :: c :: a :: rest))
    | _ => .next (s.raise .psUnderflow))

/-- STK, any other pattern (R205 to R208): a reserved one has no meaning (R204), nor has the return bit on one
that uses the return stack (R122). -/
def execStk (r : Bool) (p : StkPattern) (s : State) : Result :=
  if reserved p then .refused .reservedPattern
  else if r && usesReturnStack p then .refused .returnBitOnReturnStackUse
  else s.transition r p

end Sys2Proof.Machine
end

