-- ==== Sys2Proof/Machine/Dispatch.lean ====
section
/-! DEFINITION. One arm per constructor of Instr: a direct call of the instruction's meaning. -/

namespace Sys2Proof.Machine

/-- The meaning of an instruction in a state. -/
def exec (i : Instr) (s : State) : Host.Outcome State Fault Refusal :=
  match i with
  | .jumpi => Sys2Proof.Machine.execJumpi s
  | .calli => Sys2Proof.Machine.execCalli s
  | .jump a14 => Sys2Proof.Machine.execJump a14 s
  | .call a14 => Sys2Proof.Machine.execCall a14 s
  | .brz rel13 => Sys2Proof.Machine.execBrz rel13 s
  | .brzReturn rel13 => Sys2Proof.Machine.execBrzReturn rel13 s
  | .lit r lit12 => Sys2Proof.Machine.execLit r lit12 s
  | .lithiStackForm r t => Sys2Proof.Machine.execLithiStackForm r t s
  | .sum r imm5 => Sys2Proof.Machine.execSum r imm5 s
  | .sumD r imm5 => Sys2Proof.Machine.execSumD r imm5 s
  | .abs r imm5 => Sys2Proof.Machine.execAbs r imm5 s
  | .absD r imm5 => Sys2Proof.Machine.execAbsD r imm5 s
  | .difr r imm5 => Sys2Proof.Machine.execDifr r imm5 s
  | .difrD r imm5 => Sys2Proof.Machine.execDifrD r imm5 s
  | .dif r imm5 => Sys2Proof.Machine.execDif r imm5 s
  | .difD r imm5 => Sys2Proof.Machine.execDifD r imm5 s
  | .umin r imm5 => Sys2Proof.Machine.execUmin r imm5 s
  | .uminD r imm5 => Sys2Proof.Machine.execUminD r imm5 s
  | .max r imm5 => Sys2Proof.Machine.execMax r imm5 s
  | .maxD r imm5 => Sys2Proof.Machine.execMaxD r imm5 s
  | .umax r imm5 => Sys2Proof.Machine.execUmax r imm5 s
  | .umaxD r imm5 => Sys2Proof.Machine.execUmaxD r imm5 s
  | .min r imm5 => Sys2Proof.Machine.execMin r imm5 s
  | .minD r imm5 => Sys2Proof.Machine.execMinD r imm5 s
  | .equ r imm5 => Sys2Proof.Machine.execEqu r imm5 s
  | .equD r imm5 => Sys2Proof.Machine.execEquD r imm5 s
  | .eq r imm5 => Sys2Proof.Machine.execEq r imm5 s
  | .eqD r imm5 => Sys2Proof.Machine.execEqD r imm5 s
  | .neu r imm5 => Sys2Proof.Machine.execNeu r imm5 s
  | .neuD r imm5 => Sys2Proof.Machine.execNeuD r imm5 s
  | .ne r imm5 => Sys2Proof.Machine.execNe r imm5 s
  | .neD r imm5 => Sys2Proof.Machine.execNeD r imm5 s
  | .ugt r imm5 => Sys2Proof.Machine.execUgt r imm5 s
  | .ugtD r imm5 => Sys2Proof.Machine.execUgtD r imm5 s
  | .lt r imm5 => Sys2Proof.Machine.execLt r imm5 s
  | .ltD r imm5 => Sys2Proof.Machine.execLtD r imm5 s
  | .ult r imm5 => Sys2Proof.Machine.execUlt r imm5 s
  | .ultD r imm5 => Sys2Proof.Machine.execUltD r imm5 s
  | .gt r imm5 => Sys2Proof.Machine.execGt r imm5 s
  | .gtD r imm5 => Sys2Proof.Machine.execGtD r imm5 s
  | .umul r imm5 => Sys2Proof.Machine.execUmul r imm5 s
  | .umulD r imm5 => Sys2Proof.Machine.execUmulD r imm5 s
  | .smul r imm5 => Sys2Proof.Machine.execSmul r imm5 s
  | .smulD r imm5 => Sys2Proof.Machine.execSmulD r imm5 s
  | .rsv10010 r imm5 => Sys2Proof.Machine.execRsv10010 r imm5 s
  | .rsv10010D r imm5 => Sys2Proof.Machine.execRsv10010D r imm5 s
  | .rsv10011 r imm5 => Sys2Proof.Machine.execRsv10011 r imm5 s
  | .rsv10011D r imm5 => Sys2Proof.Machine.execRsv10011D r imm5 s
  | .and r imm5 => Sys2Proof.Machine.execAnd r imm5 s
  | .andD r imm5 => Sys2Proof.Machine.execAndD r imm5 s
  | .xor r imm5 => Sys2Proof.Machine.execXor r imm5 s
  | .xorD r imm5 => Sys2Proof.Machine.execXorD r imm5 s
  | .or r imm5 => Sys2Proof.Machine.execOr r imm5 s
  | .orD r imm5 => Sys2Proof.Machine.execOrD r imm5 s
  | .rsv10111 r imm5 => Sys2Proof.Machine.execRsv10111 r imm5 s
  | .rsv10111D r imm5 => Sys2Proof.Machine.execRsv10111D r imm5 s
  | .lsr r imm5 => Sys2Proof.Machine.execLsr r imm5 s
  | .lsrD r imm5 => Sys2Proof.Machine.execLsrD r imm5 s
  | .lsl r imm5 => Sys2Proof.Machine.execLsl r imm5 s
  | .lslD r imm5 => Sys2Proof.Machine.execLslD r imm5 s
  | .asr r imm5 => Sys2Proof.Machine.execAsr r imm5 s
  | .asrD r imm5 => Sys2Proof.Machine.execAsrD r imm5 s
  | .rsv11011 r imm5 => Sys2Proof.Machine.execRsv11011 r imm5 s
  | .rsv11011D r imm5 => Sys2Proof.Machine.execRsv11011D r imm5 s
  | .lithi r imm5 => Sys2Proof.Machine.execLithi r imm5 s
  | .lithiD r imm5 => Sys2Proof.Machine.execLithiD r imm5 s
  | .rsv11101 r imm5 => Sys2Proof.Machine.execRsv11101 r imm5 s
  | .rsv11101D r imm5 => Sys2Proof.Machine.execRsv11101D r imm5 s
  | .rsv11110 r imm5 => Sys2Proof.Machine.execRsv11110 r imm5 s
  | .rsv11110D r imm5 => Sys2Proof.Machine.execRsv11110D r imm5 s
  | .rsv11111 r imm5 => Sys2Proof.Machine.execRsv11111 r imm5 s
  | .rsv11111D r imm5 => Sys2Proof.Machine.execRsv11111D r imm5 s
  | .nop r => Sys2Proof.Machine.execNop r s
  | .drop r => Sys2Proof.Machine.execDrop r s
  | .dup r => Sys2Proof.Machine.execDup r s
  | .swap r => Sys2Proof.Machine.execSwap r s
  | .overCell r => Sys2Proof.Machine.execOver r s
  | .nip r => Sys2Proof.Machine.execNip r s
  | .rdrop r => Sys2Proof.Machine.execRdrop r s
  | .toR r => Sys2Proof.Machine.execToR r s
  | .rFetch r => Sys2Proof.Machine.execRFetch r s
  | .rFrom r => Sys2Proof.Machine.execRFrom r s
  | .tuck1 r => Sys2Proof.Machine.execTuck1 r s
  | .rot1 r => Sys2Proof.Machine.execRot1 r s
  | .nrot1 r => Sys2Proof.Machine.execNrot1 r s
  | .stk r p => Sys2Proof.Machine.execStk r p s
  | .sti r => Sys2Proof.Machine.execSti r s
  | .ldi r => Sys2Proof.Machine.execLdi r s
  | .st r m8 => Sys2Proof.Machine.execSt r m8 s
  | .ld r m8 => Sys2Proof.Machine.execLd r m8 s
  | .frwPsd r => Sys2Proof.Machine.execFrwPsd r s
  | .frrPsd r => Sys2Proof.Machine.execFrrPsd r s
  | .frwRsd r => Sys2Proof.Machine.execFrwRsd r s
  | .frrRsd r => Sys2Proof.Machine.execFrrRsd r s
  | .frwPc r => Sys2Proof.Machine.execFrwPc r s
  | .frrPc r => Sys2Proof.Machine.execFrrPc r s
  | .frwIen r => Sys2Proof.Machine.execFrwIen r s
  | .frrIen r => Sys2Proof.Machine.execFrrIen r s
  | .frwKeyQ r => Sys2Proof.Machine.execFrwKeyQ r s
  | .frrKeyQ r => Sys2Proof.Machine.execFrrKeyQ r s
  | .frwEmitQ r => Sys2Proof.Machine.execFrwEmitQ r s
  | .frrEmitQ r => Sys2Proof.Machine.execFrrEmitQ r s
  | .frwKeyEmit r => Sys2Proof.Machine.execFrwKeyEmit r s
  | .frrKeyEmit r => Sys2Proof.Machine.execFrrKeyEmit r s
  | .frw r fadr => Sys2Proof.Machine.execFrw r fadr s
  | .frr r fadr => Sys2Proof.Machine.execFrr r fadr s

end Sys2Proof.Machine
end

