-- ==== Sys2Proof/Machine/Step.lean ====
section
/-!
DEFINITION. One step of the N1: one instruction, one reset, one interrupt entry, one fetch fault, one more try of a
waiting instruction, or one wait for the bus (spec/70_reset_and_hazards.md R341, spec/20_memory.md R74).
-/

namespace Sys2Proof.Machine

/-- One step: what stands before the instruction, then the instruction's meaning. -/
def step (s : State) : Host.Outcome State Fault Refusal :=
  match s.begin with
  | .done t => .next t
  | .run i t => exec i t

/-- `s` with the table's word `w` of `nbits` bits stored where the next step fetches (log 36). -/
def State.withFetchWord (s : State) (nbits w : Nat) : State :=
  s.placeNext (BitVec.ofNat 16 (w % 2 ^ nbits))

end Sys2Proof.Machine
end

