-- ==== Sys2Proof/Safety.lean ====
section
/-!
DEFINITION. The terms in which claims about the N1 are stated: what a state that a run can be in satisfies, when the
stacks have room, and the whole state an instruction or an exception leaves.
-/

namespace Sys2Proof.Machine

/-- The deep cells of two stacks of these depths, `deep'` of spec/60_exceptions.md R287. -/
def deepCells (psd rsd : Nat) : Nat := (psd - 4) + (rsd - 1)

/-- Going to these depths does not overflow (R287): nothing grows, or the deep cells fit the lower stack. -/
abbrev State.roomFor (s : State) (psd' rsd' : Nat) : Prop :=
  psd' + rsd' ≤ s.ps.length + s.rs.length ∨ deepCells psd' rsd' ≤ s.cfg.lsCapacity

/-- Going to these depths overflows (R287): something grows, and the deep cells fit nowhere. -/
abbrev State.noRoomFor (s : State) (psd' rsd' : Nat) : Prop :=
  s.ps.length + s.rs.length < psd' + rsd' ∧ s.cfg.lsCapacity < deepCells psd' rsd' ∧
    2 ^ s.cfg.spWidth + s.cfg.ipsEff + s.cfg.irsEff < deepCells psd' rsd'

/-- The return bit finds its cell (R121). -/
abbrev State.canReturn (r : Bool) (s : State) : Prop := r = true → s.rs ≠ []

/-- The return stack's depth after an instruction with the return bit `r` that does not touch it otherwise. -/
abbrev State.rsdAfter (r : Bool) (s : State) : Nat := s.rs.length - (if r then 1 else 0)

/-- The whole state that an instruction with the return bit `r` leaves when it turns the parameter stack into `ps'`
and does nothing else: the return action or the next word (R25, R120), the hidden counters moved along (R24), what
was fetched ahead for this word used up or discarded (R330). -/
def State.after (r : Bool) (s : State) (ps' : List Cell) : State :=
  { s with
    ps := ps'
    ipsN := refill s.cfg.ipsEff s.ipsN (psDeep s.ps.length) (psDeep ps'.length)
    rs := if r then s.rs.tail else s.rs
    irsN := refill s.cfg.irsEff s.irsN (rsDeep s.rs.length)
      (rsDeep (if r then s.rs.tail else s.rs).length)
    pc := if r then s.rs.headD 0x0000#16 else s.pc + 1#16
    cof := if r then some .endOfWord else none
    stash := if r then [] else s.stash.filter fun c => c.1 ≠ s.pc }

/-- The whole state that an instruction without return action leaves when it turns both stacks into these and does
nothing else. -/
def State.afterBoth (s : State) (ps' rs' : List Cell) : State :=
  { s with
    ps := ps'
    ipsN := refill s.cfg.ipsEff s.ipsN (psDeep s.ps.length) (psDeep ps'.length)
    rs := rs'
    irsN := refill s.cfg.irsEff s.irsN (rsDeep s.rs.length) (rsDeep rs'.length)
    pc := s.pc + 1#16
    cof := none
    stash := s.stash.filter fun c => c.1 ≠ s.pc }

/-- The whole state that a change of flow to `t` leaves when it turns both stacks into these and does nothing else
(R330: what was fetched ahead is discarded). -/
def State.gone (s : State) (ps' rs' : List Cell) (t : Cell) (tag : Option Cof) : State :=
  { s with
    ps := ps'
    ipsN := refill s.cfg.ipsEff s.ipsN (psDeep s.ps.length) (psDeep ps'.length)
    rs := rs'
    irsN := refill s.cfg.irsEff s.irsN (rsDeep s.rs.length) (rsDeep rs'.length)
    pc := t
    cof := tag
    stash := [] }

/-- The whole state after an exception's entry that clears both stacks (R284). -/
def State.cleared (s : State) (code : Cell) : State :=
  { s with
    ps := [code]
    ipsN := 0
    rs := []
    irsN := 0
    pc := 0x0000#16
    cof := none
    stash := [] }

/-- How an instruction whose stacks grow to these depths ends (R287): with room in `t`, without room in the entry of
the overflow exception with this throw code, and between the zones in one of the two. -/
abbrev State.endsUnlessFull (s : State) (psd' rsd' : Nat) (code : Cell) (answer : Result) (t : State) :
    Prop :=
  (s.roomFor psd' rsd' → answer = .next t) ∧
    (s.noRoomFor psd' rsd' → answer = .next (s.cleared code)) ∧
    (answer = .next t ∨ answer = .next (s.cleared code))

/-- The two rows of an ALU operator do what R147, R149 and R151 say, for a widened immediate `imm` and result cells
`lo` and `hi` (the Bool is true in the immediate form, then come A and B): the stack form takes two cells, the
immediate form one, the single-cell row leaves `lo`, the double-cell row `lo` with `hi` on top, and only the
double-cell immediate form can overflow. -/
abbrev AluMeans (single double : Bool → BitVec 5 → Instr) (imm : BitVec 5 → Cell)
    (lo hi : Bool → Cell → Cell → Cell) : Prop :=
  ∀ (r : Bool) (s : State), s.canReturn r →
    (∀ b a rest, s.ps = b :: a :: rest →
      exec (single r 0#5) s = .next (s.after r (lo false a b :: rest)) ∧
        exec (double r 0#5) s = .next (s.after r (hi false a b :: lo false a b :: rest))) ∧
    (∀ imm5 b rest, imm5 ≠ 0#5 → s.ps = b :: rest →
      exec (single r imm5) s = .next (s.after r (lo true (imm imm5) b :: rest)) ∧
        s.endsUnlessFull (s.ps.length + 1) (s.rsdAfter r) 0xFFFD#16 (exec (double r imm5) s)
          (s.after r (hi true (imm imm5) b :: lo true (imm imm5) b :: rest)))

/-- The two rows of an ALU operator underflow as R151 says: the parameter stack's check first, then the return
bit's (R289). -/
abbrev AluUnderflows (single double : Bool → BitVec 5 → Instr) : Prop :=
  ∀ (r : Bool) (imm5 : BitVec 5) (s : State),
    (s.ps.length < (if imm5 = 0#5 then 2 else 1) →
      exec (single r imm5) s = .next (s.raise .psUnderflow) ∧
        exec (double r imm5) s = .next (s.raise .psUnderflow)) ∧
    ((if imm5 = 0#5 then 2 else 1) ≤ s.ps.length → r = true → s.rs = [] →
      exec (single r imm5) s = .next (s.raise .rsUnderflow) ∧
        exec (double r imm5) s = .next (s.raise .rsUnderflow))

/-- The seven classes of instruction words (R90). -/
inductive InstrClass where
  | jump
  | branch
  | literal
  | alu
  | stack
  | memory
  | function
  deriving DecidableEq, Repr

/-- The class an instruction belongs to, by the format its row of spec/opcode_table.json gives it. -/
def classOf : Instr → InstrClass
  | .jumpi => .jump
  | .calli => .jump
  | .jump _ => .jump
  | .call _ => .jump
  | .brz _ => .branch
  | .brzReturn _ => .branch
  | .lit _ _ => .literal
  | .lithiStackForm _ _ => .alu
  | .sum _ _ => .alu
  | .sumD _ _ => .alu
  | .abs _ _ => .alu
  | .absD _ _ => .alu
  | .difr _ _ => .alu
  | .difrD _ _ => .alu
  | .dif _ _ => .alu
  | .difD _ _ => .alu
  | .umin _ _ => .alu
  | .uminD _ _ => .alu
  | .max _ _ => .alu
  | .maxD _ _ => .alu
  | .umax _ _ => .alu
  | .umaxD _ _ => .alu
  | .min _ _ => .alu
  | .minD _ _ => .alu
  | .equ _ _ => .alu
  | .equD _ _ => .alu
  | .eq _ _ => .alu
  | .eqD _ _ => .alu
  | .neu _ _ => .alu
  | .neuD _ _ => .alu
  | .ne _ _ => .alu
  | .neD _ _ => .alu
  | .ugt _ _ => .alu
  | .ugtD _ _ => .alu
  | .lt _ _ => .alu
  | .ltD _ _ => .alu
  | .ult _ _ => .alu
  | .ultD _ _ => .alu
  | .gt _ _ => .alu
  | .gtD _ _ => .alu
  | .umul _ _ => .alu
  | .umulD _ _ => .alu
  | .smul _ _ => .alu
  | .smulD _ _ => .alu
  | .rsv10010 _ _ => .alu
  | .rsv10010D _ _ => .alu
  | .rsv10011 _ _ => .alu
  | .rsv10011D _ _ => .alu
  | .and _ _ => .alu
  | .andD _ _ => .alu
  | .xor _ _ => .alu
  | .xorD _ _ => .alu
  | .or _ _ => .alu
  | .orD _ _ => .alu
  | .rsv10111 _ _ => .alu
  | .rsv10111D _ _ => .alu
  | .lsr _ _ => .alu
  | .lsrD _ _ => .alu
  | .lsl _ _ => .alu
  | .lslD _ _ => .alu
  | .asr _ _ => .alu
  | .asrD _ _ => .alu
  | .rsv11011 _ _ => .alu
  | .rsv11011D _ _ => .alu
  | .lithi _ _ => .alu
  | .lithiD _ _ => .alu
  | .rsv11101 _ _ => .alu
  | .rsv11101D _ _ => .alu
  | .rsv11110 _ _ => .alu
  | .rsv11110D _ _ => .alu
  | .rsv11111 _ _ => .alu
  | .rsv11111D _ _ => .alu
  | .nop _ => .stack
  | .drop _ => .stack
  | .dup _ => .stack
  | .swap _ => .stack
  | .overCell _ => .stack
  | .nip _ => .stack
  | .rdrop _ => .stack
  | .toR _ => .stack
  | .rFetch _ => .stack
  | .rFrom _ => .stack
  | .tuck1 _ => .stack
  | .rot1 _ => .stack
  | .nrot1 _ => .stack
  | .stk _ _ => .stack
  | .sti _ => .memory
  | .ldi _ => .memory
  | .st _ _ => .memory
  | .ld _ _ => .memory
  | .frwPsd _ => .function
  | .frrPsd _ => .function
  | .frwRsd _ => .function
  | .frrRsd _ => .function
  | .frwPc _ => .function
  | .frrPc _ => .function
  | .frwIen _ => .function
  | .frrIen _ => .function
  | .frwKeyQ _ => .function
  | .frrKeyQ _ => .function
  | .frwEmitQ _ => .function
  | .frrEmitQ _ => .function
  | .frwKeyEmit _ => .function
  | .frrKeyEmit _ => .function
  | .frw _ _ => .function
  | .frr _ _ => .function

/-- The instruction has the return bit and the spec gives it a meaning with it (R120 to R122): it may end in the
return action. -/
def returning : Instr → Bool
  | .jumpi => false
  | .calli => false
  | .jump _ => false
  | .call _ => false
  | .brz _ => false
  | .brzReturn _ => false
  | .lit r _ => r
  | .lithiStackForm _ _ => false
  | .sum r _ => r
  | .sumD r _ => r
  | .abs r _ => r
  | .absD r _ => r
  | .difr r _ => r
  | .difrD r _ => r
  | .dif r _ => r
  | .difD r _ => r
  | .umin r _ => r
  | .uminD r _ => r
  | .max r _ => r
  | .maxD r _ => r
  | .umax r _ => r
  | .umaxD r _ => r
  | .min r _ => r
  | .minD r _ => r
  | .equ r _ => r
  | .equD r _ => r
  | .eq r _ => r
  | .eqD r _ => r
  | .neu r _ => r
  | .neuD r _ => r
  | .ne r _ => r
  | .neD r _ => r
  | .ugt r _ => r
  | .ugtD r _ => r
  | .lt r _ => r
  | .ltD r _ => r
  | .ult r _ => r
  | .ultD r _ => r
  | .gt r _ => r
  | .gtD r _ => r
  | .umul r _ => r
  | .umulD r _ => r
  | .smul r _ => r
  | .smulD r _ => r
  | .rsv10010 _ _ => false
  | .rsv10010D _ _ => false
  | .rsv10011 _ _ => false
  | .rsv10011D _ _ => false
  | .and r _ => r
  | .andD r _ => r
  | .xor r _ => r
  | .xorD r _ => r
  | .or r _ => r
  | .orD r _ => r
  | .rsv10111 _ _ => false
  | .rsv10111D _ _ => false
  | .lsr r _ => r
  | .lsrD r _ => r
  | .lsl r _ => r
  | .lslD r _ => r
  | .asr r _ => r
  | .asrD r _ => r
  | .rsv11011 _ _ => false
  | .rsv11011D _ _ => false
  | .lithi r _ => r
  | .lithiD r _ => r
  | .rsv11101 _ _ => false
  | .rsv11101D _ _ => false
  | .rsv11110 _ _ => false
  | .rsv11110D _ _ => false
  | .rsv11111 _ _ => false
  | .rsv11111D _ _ => false
  | .nop r => r
  | .drop r => r
  | .dup r => r
  | .swap r => r
  | .overCell r => r
  | .nip r => r
  | .rdrop _ => false
  | .toR _ => false
  | .rFetch _ => false
  | .rFrom _ => false
  | .tuck1 r => r
  | .rot1 _ => false
  | .nrot1 r => r
  | .stk r p => r && !reserved p && !usesReturnStack p
  | .sti r => r
  | .ldi r => r
  | .st r _ => r
  | .ld r _ => r
  | .frwPsd r => r
  | .frrPsd r => r
  | .frwRsd _ => false
  | .frrRsd r => r
  | .frwPc _ => false
  | .frrPc r => r
  | .frwIen r => r
  | .frrIen r => r
  | .frwKeyQ _ => false
  | .frrKeyQ r => r
  | .frwEmitQ _ => false
  | .frrEmitQ r => r
  | .frwKeyEmit r => r
  | .frrKeyEmit r => r
  | .frw _ _ => false
  | .frr _ _ => false

/-- The instructions that may leave another return stack than they found: calls, the words that push on it or take
from it, its clear, the patterns that use it, and whatever has the return bit (R22, R120). -/
def changesReturnStack : Instr → Bool
  | .calli => true
  | .call _ => true
  | .rdrop _ => true
  | .toR _ => true
  | .rFrom _ => true
  | .frwRsd _ => true
  | .stk r p => r || usesReturnStack p
  | i => returning i

/-- The instructions that store to main memory. -/
def storing : Instr → Bool
  | .sti _ => true
  | .st _ _ => true
  | _ => false

/-- How many cells of the parameter stack an instruction of a fixed stack effect takes or reads (R126 to R256): the
number it must find there (R285). A general pattern's are `patternNeeds`. -/
def operandCells : Instr → Nat
  | .jumpi | .calli | .brz _ | .drop _ | .dup _ | .toR _ | .ldi _ | .st _ _ | .frwPsd _ | .frwRsd _ | .frwIen _ |
    .frwKeyEmit _ => 1
  | .swap _ | .overCell _ | .nip _ | .tuck1 _ | .sti _ => 2
  | .rot1 _ | .nrot1 _ => 3
  | .sum _ imm5 | .sumD _ imm5 | .abs _ imm5 | .absD _ imm5 | .difr _ imm5 | .difrD _ imm5 | .dif _ imm5 |
    .difD _ imm5 | .umin _ imm5 | .uminD _ imm5 | .max _ imm5 | .maxD _ imm5 | .umax _ imm5 |
    .umaxD _ imm5 | .min _ imm5 | .minD _ imm5 | .equ _ imm5 | .equD _ imm5 | .eq _ imm5 | .eqD _ imm5 |
    .neu _ imm5 | .neuD _ imm5 | .ne _ imm5 | .neD _ imm5 | .ugt _ imm5 | .ugtD _ imm5 | .lt _ imm5 |
    .ltD _ imm5 | .ult _ imm5 | .ultD _ imm5 | .gt _ imm5 | .gtD _ imm5 | .umul _ imm5 | .umulD _ imm5 |
    .smul _ imm5 | .smulD _ imm5 | .and _ imm5 | .andD _ imm5 | .xor _ imm5 | .xorD _ imm5 | .or _ imm5 |
    .orD _ imm5 | .lsr _ imm5 | .lsrD _ imm5 | .lsl _ imm5 | .lslD _ imm5 | .asr _ imm5 | .asrD _ imm5 |
    .lithi _ imm5 | .lithiD _ imm5 =>
    if imm5 = 0#5 then 2 else 1
  | _ => 0

/-- The extension that an instruction needs is there: ROT for its three words (R209), the optional function registers
for theirs (R256). -/
def extensionPresent (c : Config) : Instr → Bool
  | .tuck1 _ | .rot1 _ | .nrot1 _ => c.extRot
  | .frwPc _ | .frrPc _ => c.extPc
  | .frwIen _ | .frrIen _ => c.extIrq
  | .frwKeyQ _ | .frrKeyQ _ | .frwEmitQ _ | .frrEmitQ _ | .frwKeyEmit _ | .frrKeyEmit _ => c.extKey
  | _ => true

/-! ### A transition pattern read off its transfer bits (spec/45_stack.md R201 to R206) -/

/-- How many of two bits are set. -/
def bitCount (a b : Bool) : Nat := a.toNat + b.toNat

/-- R206 for one cell: it must hold content if it is overwritten and passed on nowhere ("DROP"), if it is passed on and
kept or passed on twice ("DUP"), if it is one of two that are exchanged ("SWAP"), or if it crosses between the stacks
("Cross"). -/
def cellNeeded (written : Bool) (passed : Nat) (exchanged crosses : Bool) : Bool :=
  (written && passed == 0) || (1 ≤ passed && (!written || 2 ≤ passed)) || exchanged || crosses

/-- The pattern requires PS0, PS1, PS2 or PS3 to hold content. A cell is written by the transfers into it and passed on
by those out of it; the intermediate stack takes PS3 or gives to it by IPS and the direction of U3 (R202). -/
def patternNeeds (p : StkPattern) : Fin 4 → Bool
  | 0 => cellNeeded (ustUp p.u1 || ustDown p.u0) (bitCount (ustUp p.u0) (ustDown p.u1))
      (p.u1 == .exchange || p.u0 == .exchange) (ustUp p.u0)
  | 1 => cellNeeded (ustUp p.u2 || ustDown p.u1) (bitCount (ustUp p.u1) (ustDown p.u2))
      (p.u2 == .exchange || p.u1 == .exchange) false
  | 2 => cellNeeded (ustUp p.u3 || ustDown p.u2) (bitCount (ustUp p.u2) (ustDown p.u3))
      (p.u3 == .exchange || p.u2 == .exchange) false
  | 3 => cellNeeded (ustDown p.u3 || p.ips) (bitCount (ustUp p.u3) (p.ips && ustDown p.u3)) (p.u3 == .exchange)
      false

/-- The pattern requires RS0 to hold content; the intermediate return stack takes it or gives to it by IRS and the
direction of U0 (R203). -/
def patternNeedsReturn (p : StkPattern) : Bool :=
  cellNeeded (ustUp p.u0 || p.irs) (bitCount (ustDown p.u0) (p.irs && ustUp p.u0)) (p.u0 == .exchange)
    (ustDown p.u0)

/-- The parameter stack after the transfers (R201, R202, R205): each upper cell takes its one source or keeps its
value, those without content fall away; below them PS3 is pushed, or a cell is pulled, or all stays. -/
def patternPs (p : StkPattern) (ps rs : List Cell) : List Cell :=
  [if ustUp p.u1 then ps[1]? else if ustDown p.u0 then rs[0]? else ps[0]?,
    if ustUp p.u2 then ps[2]? else if ustDown p.u1 then ps[0]? else ps[1]?,
    if ustUp p.u3 then ps[3]? else if ustDown p.u2 then ps[1]? else ps[2]?,
    if ustDown p.u3 then ps[2]? else if p.ips then ps[4]? else ps[3]?].reduceOption ++
  ps.drop (if p.ips then (if ustDown p.u3 then 3 else 5) else 4)

/-- The return stack after the transfers (R201, R203, R205). -/
def patternRs (p : StkPattern) (ps rs : List Cell) : List Cell :=
  (if ustUp p.u0 then ps[0]? else if p.irs then rs[1]? else rs[0]?).toList ++
    rs.drop (if p.irs then (if ustUp p.u0 then 0 else 2) else 1)

/-- The depth of the lower stacks fits what the machine has: more cells than this could not be held (R287). -/
abbrev State.withinCapacity (s : State) : Prop :=
  s.ps.length + s.rs.length ≤ s.cfg.deepLimit + 5

/-- The hidden counters count cells that are there (R24). -/
abbrev State.countersHold (s : State) : Prop :=
  s.ipsN ≤ s.cfg.ipsEff ∧ s.ipsN ≤ psDeep s.ps.length ∧
    s.irsN ≤ s.cfg.irsEff ∧ s.irsN ≤ rsDeep s.rs.length

/-- Words can have been fetched ahead at `pc` and the address after it, and while an instruction waits also at the one
after that (R47, R330): the instruction that waits, and two words beyond it. -/
abbrev State.stashAhead (s : State) : Prop :=
  ∀ c ∈ s.stash, c.1 = s.pc ∨ c.1 = s.pc + 1#16 ∨ (s.waiting ≠ .no ∧ c.1 = s.pc + 2#16)

/-- The instructions that make a data access on the program bus (R231 to R234). -/
def accessesMemory : Instr → Bool
  | .sti _ | .ldi _ | .st _ _ | .ld _ _ => true
  | _ => false

/-- The instructions that may wait: an access of the KEY/EMIT register (R46), or of memory (R74). -/
def mayWait : Instr → Bool
  | .frrKeyEmit _ | .frwKeyEmit _ => true
  | i => accessesMemory i

/-- What every state of a run satisfies: legal parameters, memory in its canonical form, counters that count cells
that are there, stacks the machine can hold, words fetched ahead only where `stashAhead` lets them lie, and waiting
only in an instruction that may wait, after a retry only in one that accesses memory. -/
structure State.Inv (s : State) : Prop where
  legal : s.cfg.legal
  memory : Memory.wf s.mem
  counters : s.countersHold
  capacity : s.withinCapacity
  ahead : s.stashAhead
  waits : s.waiting ≠ .no → mayWait (decodeWord s.ir) = true
  retried : s.waiting = .retried → accessesMemory (decodeWord s.ir) = true

end Sys2Proof.Machine
end

