-- ==== Sys2Proof/Certificates/Slice0/Obligations.lean ====
section
/-!
DEFINITION. The statements for the provers (OBLIGATIONS.json), each from the numbered rules of spec/.
-/

open Sys2Proof Sys2Proof.Machine

/-- Words written out from the encodings decode to their instructions (30_encoding.md R100; 30_encoding.md R101;
95_test_vectors.md section 2.1). decodeWord gives CALLI for 0x7FFF, JUMP 0x0123 for 0xC123, CALL 0x0123 for 0x4123,
BRZ -1 for 0x3FFF, the branch with the return bit for 0xA003, LIT -1 ; for 0x9FFF, SUM in its stack form for 0x0C00,
SUM.D for 0x0800, XOR #-1 for 0x0EBF, the reserved operator 11111 for 0x0FFF, DROP for 0x06A8, the pattern that
exchanges PS1 and PS2 for 0x0460, STI for 0x02FF, LD 0x10 for 0x0310, the PSD write for 0x0000 and an unimplemented
register read for 0x01FF. -/
def Obligations.WordsOfEveryClassDecode : Prop :=
  decodeWord 0x7FFF#16 = .calli ∧ decodeWord 0xC123#16 = .jump 0x0123#14 ∧
  decodeWord 0x4123#16 = .call 0x0123#14 ∧ decodeWord 0x3FFF#16 = .brz 0x1FFF#13 ∧
  decodeWord 0xA003#16 = .brzReturn 0x0003#13 ∧ decodeWord 0x9FFF#16 = .lit true 0xFFF#12 ∧
  decodeWord 0x0C00#16 = .sum false 0#5 ∧ decodeWord 0x0800#16 = .sumD false 0#5 ∧
  decodeWord 0x0EBF#16 = .xor false 31#5 ∧ decodeWord 0x0FFF#16 = .rsv11111 false 31#5 ∧
  decodeWord 0x06A8#16 = .drop false ∧
  decodeWord 0x0460#16 = .stk false ⟨false, .none, .exchange, .none, .none, false⟩ ∧
  decodeWord 0x02FF#16 = .sti false ∧ decodeWord 0x0310#16 = .ld false 0x10#8 ∧
  decodeWord 0x0000#16 = .frwPsd false ∧ decodeWord 0x01FF#16 = .frr false 0xFF#8

/-- Decoding an encoded instruction gives the instruction back (30_encoding.md R92 to R98; 30_encoding.md R100). For
every well-formed instruction, with every operand at every value its encoding admits, the decoder reads the
instruction back from the word the encoder writes. -/
def Obligations.DecodeOfEncodeIsTheInstruction : Prop :=
  ∀ i : Instr, i.wellFormed = true → decodeWord (encode i) = i

/-- Every word is the encoding of exactly the well-formed instruction it decodes to (30_encoding.md R90; 30_encoding.md
R100). For each of the 65536 words the decoded instruction is well-formed, and its encoding is the word again: no
word is without an instruction and no bit is dropped. -/
def Obligations.EncodeOfDecodeIsTheWord : Prop :=
  ∀ w : Cell, (decodeWord w).wellFormed = true ∧ encode (decodeWord w) = w

/-- The class of an instruction is the position of the leading one among bits 14 to 9 (30_encoding.md R90;
30_encoding.md R100). For every word the class of the decoded instruction is jump or call if bit 14 is set, else
branch if bit 13, else literal if bit 12, else ALU if bit 11, else stack if bit 10, else memory access if bit 9,
else function register access. -/
def Obligations.ClassIsTheLeadingOne : Prop :=
  ∀ w : Cell, classOf (decodeWord w) =
    if w.getLsbD 14 then .jump else if w.getLsbD 13 then .branch else if w.getLsbD 12 then .literal
    else if w.getLsbD 11 then .alu else if w.getLsbD 10 then .stack else if w.getLsbD 9 then .memory
    else .function

/-- A step runs the instruction that the bytes at the program counter decode to (70_reset_and_hazards.md R341;
10_state.md R25; 10_state.md R47; 20_memory.md R65; 20_memory.md R74). Let t be the state once the environment has
been sampled. If no reset is asserted, no instruction waits, the bus answers the fetch, no interrupt is taken, the
address is fetchable memory, nothing older was fetched ahead for it, and the two bytes at pc decode to i, then step
is exec of i in t with the word in the instruction register. -/
def Obligations.StepRunsTheDecodedInstruction : Prop :=
  ∀ (s t : State) (b0 b1 : Byte) (i : Instr), t = s.latch → s.resetAsserted = false →
    t.waiting = .no → t.fetchAnswer = .answered → ¬(t.cfg.extIrq = true ∧ t.ien = true ∧ t.irqReq ≠ 0x0000#16) →
    t.cfg.valid t.pc .fetch = true → t.cfg.isDevice t.pc = false → (∀ c ∈ t.stash, c.1 ≠ t.pc) →
    Memory.byte? t.mem (2 * t.pc.toNat) = some b0 →
    Memory.byte? t.mem (2 * t.pc.toNat + 1) = some b1 →
    decode t.cfg.byteOrder [b0, b1] = .ok (i, []) →
    step s = exec i { t with ir := bytesWord t.cfg.byteOrder b0 b1 }

/-- Sampling takes the environment's next sample, other masters' writes with it, or keeps its lines (10_state.md R20;
10_state.md R47; 20_memory.md R70; 20_memory.md R73; 60_exceptions.md R301; 93_implementation_defined.md U22). Of
the operation that begins every step. Without a sample left the lines stay; with one, the request line, the bus's
answers, the readiness, the input data (the oldest withdrawn, the arrived behind them) are taken from it, it is used
up, and its writes by other bus masters are made in their order. Either way the acknowledge ends and the counter of
the free values advances, and the core keeps everything else. A write by another master at an address that no device
answers is read back, every other word and every byte outside its two reads as before, the word that stood there is
kept as one that may have been fetched exactly if the address is one of the two words to execute next (pc and pc +
1, or pc + 1 and pc + 2 while an instruction waits), and it changes nothing else. The order and the fields are the
model's own choice, log entries 8, 15, 34, 38 and 43; that an old word may execute is log entry 14. -/
def Obligations.SamplingTakesTheEnvironmentsLinesAndWrites : Prop :=
  (∀ s : State, s.env = [] → s.latch = { s with irqAck := false, draw := s.draw + 1 }) ∧
  (∀ (s : State) (e : EnvSample) (later : List EnvSample), s.env = e :: later →
    s.latch = { s with
      irqAck := false, draw := s.draw + 1, env := later, irqReq := e.irqReq, fetchAnswer := e.fetchAnswer,
      dataAnswer := e.dataAnswer, keyQueue := s.keyQueue.drop e.keyWithdrawn ++ e.keyArrivals,
      outReady := e.outReady }.busWrites e.busWrites) ∧
  (∀ s : State, s.busWrites [] = s ∧ ∀ (a v : Cell) (more : List (Cell × Cell)),
    s.busWrites ((a, v) :: more) = (s.busWrite a v).busWrites more) ∧
  (∀ (s : State) (a v next : Cell), next = (if s.waiting = .no then s.pc else s.pc + 1#16) →
    (s.cfg.isDevice a = false → ∀ k : Access, (s.busWrite a v).readWord k a = v) ∧
    (∀ (k : Access) (b : Cell), b ≠ a → (s.busWrite a v).readWord k b = s.readWord k b) ∧
    (∀ (k : Access) (n : Nat), n ≠ 2 * a.toNat → n ≠ 2 * a.toNat + 1 →
      (s.busWrite a v).readByte k n = s.readByte k n) ∧
    (s.busWrite a v).stash =
      (if a = next ∨ a = next + 1#16 then [(a, s.readWord .fetch a)] else []) ++ s.stash ∧
    ∃ m : Memory, s.busWrite a v = { s with mem := m, stash := (s.busWrite a v).stash })

/-- An enabled request at an instruction boundary starts the service routine (60_exceptions.md R300; 60_exceptions.md
R287; 60_exceptions.md R302; 20_memory.md R74). Let t be the state once the environment has been sampled, with no
reset, the extension present, interrupts enabled and a non-zero request, at a boundary whose fetch the bus does not
hold, or where the instruction's data access was ended by a retry. With room on the return stack the step pushes pc
there, clears the enable flag, acknowledges, and goes to the requested address, with the tag of a call, no
instruction waiting, and nothing else changed; without room it is the entry of the return stack overflow; between
the zones one of the two. The sequence is the spec's decision D24; that an overflow leaves the flag is the model's
reading, log entry 29; that a retried access is begun anew after the interrupt is the model's choice, log entry 42. -/
def Obligations.InterruptEntryAtABoundary : Prop :=
  ∀ s t : State, t = { s.latch with waiting := .no } → s.resetAsserted = false → s.latch.waiting ≠ .blocked →
    (s.latch.waiting = .no → t.fetchAnswer ≠ .held) →
    t.cfg.extIrq = true → t.ien = true → t.irqReq ≠ 0x0000#16 →
    t.endsUnlessFull t.ps.length (t.rs.length + 1) 0xFFFB#16 (step s)
      { t.gone t.ps (t.pc :: t.rs) t.irqReq (some .call) with ien := false, irqAck := true }

/-- A restricted address that is next to execute raises address out of range in its place (60_exceptions.md R283;
60_exceptions.md R289). With no reset, no waiting instruction, no interrupt taken and the bus answering, a pc that
may not be fetched makes the step the entry of the address-out-of-range exception, with the stacks as the previous
instruction left them. That the fault is raised only when the restricted word is next to execute, and that the
interrupt goes first, is the spec's own decision (D39, D24), which the source does not state: log entries 28 and 29. -/
def Obligations.FetchFaultTakesTheException : Prop :=
  ∀ s t : State, t = s.latch → s.resetAsserted = false → t.waiting = .no → t.fetchAnswer = .answered →
    ¬(t.cfg.extIrq = true ∧ t.ien = true ∧ t.irqReq ≠ 0x0000#16) →
    t.cfg.valid t.pc .fetch = false → step s = .next (t.raise .addressOutOfRange)

/-- Reset leaves the reset indicator, an empty return stack and pc 0x0000, from every state (R321). In State.reset, and
in the next state of every step at which the environment asserts reset: the return stack is empty, the parameter
stack holds exactly one cell 0x0000, pc is 0x0000, the enable flag is IEN_RESET and the hidden counters are 0. In
the second case memory, the devices, the interrupt line and the parameters are as the environment left them, what
was fetched ahead and an instruction that waited are gone; the instruction register and the trace tag are left open. -/
def Obligations.ResetHoldsTheResetIndicator : Prop :=
  (State.reset.pc = 0x0000#16 ∧ State.reset.ps = [0x0000#16] ∧ State.reset.rs = [] ∧
    State.reset.ipsN = 0 ∧ State.reset.irsN = 0 ∧ State.reset.lpsN = 0 ∧ State.reset.lrsN = 0 ∧
    State.reset.ien = State.reset.cfg.ienReset) ∧
  ∀ s t : State, t = s.latch → s.resetAsserted = true →
    ∃ (w : Cell) (tag : Option Cof), step s = .next { t with
      pc := 0x0000#16, ps := [0x0000#16], rs := [], ipsN := 0, irsN := 0, ien := t.cfg.ienReset,
      ir := w, stash := [], waiting := .no, cof := tag }

/-- An instruction or fetch that waits is tried again, and while it is blocked or held no interrupt is taken
(60_exceptions.md R306; 60_exceptions.md R315; 10_state.md R46; 20_memory.md R74; 93_implementation_defined.md U18).
With no reset: an instruction that is blocked is run again from the instruction register, whatever is requested on
the interrupt line; after a retry of its data access it is run again if no interrupt is taken; at a boundary whose
fetch the bus holds the step changes nothing but what the sample brings, whatever is requested; where the bus asks
to fetch again, likewise if no interrupt is taken. That a KEY or EMIT access that waits takes no interrupt is not
stated by the source: the spec's choice (R306, D31; log entry 27). That a retried access has had no effect is the
model's choice, log entry 42. -/
def Obligations.WaitingInstructionAndFetchAreTriedAgain : Prop :=
  ∀ s t : State, t = s.latch → s.resetAsserted = false →
    (t.waiting = .blocked → step s = exec (decodeWord t.ir) { t with waiting := .no }) ∧
    (t.waiting = .no → t.fetchAnswer = .held → step s = .next t) ∧
    (¬(t.cfg.extIrq = true ∧ t.ien = true ∧ t.irqReq ≠ 0x0000#16) →
      (t.waiting = .retried → step s = exec (decodeWord t.ir) { t with waiting := .no }) ∧
      (t.waiting = .no → t.fetchAnswer = .retry → step s = .next t))

/-- The throw codes are the 16-bit values of Table 6-1, and only the overflows clear the stacks (60_exceptions.md R281;
60_exceptions.md R282). The codes are -3, -4, -5, -6, -9 and -13 in 16-bit two's complement for parameter stack
overflow and underflow, return stack overflow and underflow, address out of range and undefined word. -/
def Obligations.ThrowCodesAreTheTable : Prop :=
  Exc.code .psOverflow = BitVec.ofInt 16 (-3) ∧ Exc.code .psUnderflow = BitVec.ofInt 16 (-4) ∧
  Exc.code .rsOverflow = BitVec.ofInt 16 (-5) ∧ Exc.code .rsUnderflow = BitVec.ofInt 16 (-6) ∧
  Exc.code .addressOutOfRange = BitVec.ofInt 16 (-9) ∧
  Exc.code .undefinedWord = BitVec.ofInt 16 (-13) ∧
  ∀ e : Exc, e.clearsStacks = true ↔ e = .psOverflow ∨ e = .rsOverflow

/-- Exception entry pushes the throw code and goes to 0x0000, or clears both stacks first (60_exceptions.md R284;
60_exceptions.md R295; 60_exceptions.md R287). The two overflows leave exactly the throw code on the parameter stack
and an empty return stack. The other four push their code on the stacks as they were, if there is room; if there is
none the entry is that of the parameter stack overflow; between the zones one of the two. Nothing else of the state
changes, the enable flag included. Not the source's but the spec's own choices, log entry 28: clearing before the
push (D36), the conversion of a code that does not fit (R295, D33), the flag unchanged (D40). -/
def Obligations.ExceptionEntryPushesTheThrowCode : Prop :=
  (∀ s : State, s.raise .psOverflow = s.cleared 0xFFFD#16 ∧ s.raise .rsOverflow = s.cleared 0xFFFB#16) ∧
  (∀ (s : State) (e : Exc), e ≠ .psOverflow → e ≠ .rsOverflow →
    s.endsUnlessFull (s.ps.length + 1) s.rs.length 0xFFFD#16 (.next (s.raise e))
      (s.gone (e.code :: s.ps) s.rs 0x0000#16 none))

/-- After any exception entry pc is 0x0000, a throw code is on top, and ien, memory and devices are as before
(60_exceptions.md R284; 60_exceptions.md R291; 95_test_vectors.md section 4). For every exception, state the
instruction began in, state it leaves and parameter stack the entry finds: pc is 0x0000, the top of the parameter
stack is one of the six throw codes, and the enable flag, the parameters, memory and the device are those of the
state left. That the enable flag is as before is the spec's own decision D40, log entry 28. -/
def Obligations.EveryEntryLeavesAThrowCodeOnTop : Prop :=
  ∀ (before s : State) (ps : List Cell) (e : Exc), (before.raiseFrom e s ps).pc = 0x0000#16 ∧
    (∃ e' : Exc, (before.raiseFrom e s ps).ps.head? = some e'.code) ∧
    (before.raiseFrom e s ps).ien = s.ien ∧ (before.raiseFrom e s ps).cfg = s.cfg ∧
    (before.raiseFrom e s ps).mem = s.mem ∧ (before.raiseFrom e s ps).keyQueue = s.keyQueue ∧
    (before.raiseFrom e s ps).emitted = s.emitted ∧ (before.raiseFrom e s ps).stash = []

/-- With an empty return stack the return bit raises return stack underflow and nothing is done (40_return.md R121;
60_exceptions.md R290; 60_exceptions.md R289; 45_stack.md R206; 45_stack.md R208). For every instruction with the
return bit that the spec gives a meaning (literals, ALU, stack instructions that do not use the return stack, memory
access, function registers), where the extension that this instruction needs is present and the parameter stack
holds the cells that this instruction needs: if the return stack is empty the answer is the entry of the return
stack underflow, with none of the instruction's own effects. That the check comes before any effect, and after the
parameter stack's, is the spec's reading (R290, D6, D22; R289, D25): log entries 17 and 28. The cells a general
pattern needs are the spec's formalisation (R206, D17; log entry 25). -/
def Obligations.ReturnBitNeedsAReturnAddress : Prop :=
  ∀ (i : Instr) (s : State), i.wellFormed = true → returning i = true → extensionPresent s.cfg i = true →
    operandCells i ≤ s.ps.length →
    (∀ (r : Bool) (p : StkPattern), i = .stk r p → ∀ k : Fin 4, patternNeeds p k = true → k.val < s.ps.length) →
    s.rs = [] → exec i s = .next (s.raise .rsUnderflow)

/-- JUMP goes to the window's address and touches neither stack (41_jump_call.md R126; 41_jump_call.md R125). For every
a14 but the indirect marker, JUMP sets pc to the two upper bits of PBUS_AADR_OFFSET followed by a14, discards what
was fetched ahead, and changes nothing else: neither stack is read or written. The window's formula, upper bits
replaced, is the spec's own choice (R68, D2; log entry 6). -/
def Obligations.JumpGoesToTheDirectTarget : Prop :=
  ∀ (a14 : BitVec 14) (s : State), a14 ≠ 0x3FFF#14 →
    exec (.jump a14) s = .next { s with
      pc := BitVec.extractLsb' 14 2 s.cfg.aadrOffset ++ a14, cof := some .jump, stash := [] }

/-- JUMPI pops its target, all 16 bits of it, or underflows (R127). With a cell on the parameter stack JUMPI removes it
and sets pc to it; nothing else changes. With none it is the entry of the parameter stack underflow. -/
def Obligations.IndirectJumpTakesItsTarget : Prop :=
  (∀ (s : State) (t : Cell) (rest : List Cell), s.ps = t :: rest →
    exec .jumpi s = .next (s.gone rest s.rs t (some .jump))) ∧
  (∀ s : State, s.ps = [] → exec .jumpi s = .next (s.raise .psUnderflow))

/-- CALL pushes the address of the next word and goes to the window's address (41_jump_call.md R128; 60_exceptions.md
R287). For every a14 but the indirect marker: with room, CALL pushes pc + 1 (modulo 2^16) on the return stack, goes
to the direct target, and changes nothing else; without room it is the entry of the return stack overflow; between
the zones one of the two. The window's formula (D2; log entry 6), pc + 1 as the return address and its wrap (D4, D5;
log entry 16) and the zones (D23; log entry 3) are the spec's own choices. -/
def Obligations.CallPushesTheReturnAddress : Prop :=
  ∀ (a14 : BitVec 14) (s : State), a14 ≠ 0x3FFF#14 →
    s.endsUnlessFull s.ps.length (s.rs.length + 1) 0xFFFB#16 (exec (.call a14) s)
      (s.gone s.ps ((s.pc + 1#16) :: s.rs) (BitVec.extractLsb' 14 2 s.cfg.aadrOffset ++ a14)
        (some .call))

/-- CALLI pops its target, pushes the address of the next word and never overflows (41_jump_call.md R129;
60_exceptions.md R287). With a cell on the parameter stack, on stacks of any depth: CALLI removes the cell, pushes
pc + 1 on the return stack and goes to the cell, nothing else changing. With no cell it is the entry of the
parameter stack underflow. CALLI takes a cell and pushes one, so by the first line of R287 (D23: never when nothing
grows) it never overflows, where R129 calls an overflow possible: log entry 41. The return address is the spec's
choice (D4, D5; log entry 16). -/
def Obligations.IndirectCallTakesItsTarget : Prop :=
  (∀ (s : State) (t : Cell) (rest : List Cell), s.ps = t :: rest →
    exec .calli s = .next (s.gone rest ((s.pc + 1#16) :: s.rs) t (some .call))) ∧
  (∀ s : State, s.ps = [] → exec .calli s = .next (s.raise .psUnderflow))

/-- BRZ pops a cell and branches exactly when it is zero (42_branch.md R135; 90_conflicts.md C1; 30_encoding.md R99).
With a cell on the parameter stack BRZ removes it; if it is 0x0000 pc becomes pc + 1 plus the sign-extended offset
modulo 2^16, otherwise pc + 1; nothing else changes. With none it is the entry of the parameter stack underflow.
That the tested cell is popped, taken or not, is general knowledge G3 (R135, D38; log entry 18, PRESUMED); the wrap
of pc is D5 (log entry 16). -/
def Obligations.BranchIsTakenOnZero : Prop :=
  (∀ (rel13 : BitVec 13) (s : State) (x : Cell) (rest : List Cell), s.ps = x :: rest →
    exec (.brz rel13) s = .next
      (if x = 0x0000#16 then
        s.gone rest s.rs (s.pc + 1#16 + rel13.signExtend 16) (some .branch)
      else s.afterBoth rest s.rs)) ∧
  (∀ (rel13 : BitVec 13) (s : State), s.ps = [] → exec (.brz rel13) s = .next (s.raise .psUnderflow))

/-- A conditional branch with the return bit is refused in every state (R137). For every offset and state the answer is
the refusal branchWithReturnBit. -/
def Obligations.BranchWithReturnBitHasNoMeaning : Prop :=
  ∀ (rel13 : BitVec 13) (s : State), exec (.brzReturn rel13) s = .refused .branchWithReturnBit

/-- LIT pushes its 12-bit field sign-extended, and returns if its return bit is set (43_literal.md R140; 40_return.md
R120; 60_exceptions.md R287). With a return address where the return bit asks for one: with room, LIT pushes the
field sign-extended to 16 bits and ends the instruction, nothing else changing; without room it is the entry of the
parameter stack overflow; between the zones one of the two. The three zones are the spec's decision D23, taken at
the depths after the return action (log entries 3 and 31). -/
def Obligations.LiteralPushesItsSignExtension : Prop :=
  ∀ (r : Bool) (lit12 : BitVec 12) (s : State), s.canReturn r →
    s.endsUnlessFull (s.ps.length + 1) (s.rsdAfter r) 0xFFFD#16 (exec (.lit r lit12) s)
      (s.after r (lit12.signExtend 16 :: s.ps))

/-- LIT of the low twelve bits and LITHI of the upper four push any 16-bit value (43_literal.md R141; 44_alu.md R177).
For every value v, with room for one more cell: LIT of v[11:0] and then LITHI with the immediate v[15:12], or 16 if
that is 0, both complete, and v is on top of the stack as it was. What LITHI computes is the spec's reading of its
expression (D14; log entry 23). -/
def Obligations.LiteralAndLithiPushAnyCell : Prop :=
  ∀ (v : Cell) (s : State), s.roomFor (s.ps.length + 1) s.rs.length →
    ∃ t u : State, exec (.lit false (BitVec.extractLsb' 0 12 v)) s = .next t ∧
      exec (.lithi false (if BitVec.extractLsb' 12 4 v = 0#4 then 16#5
        else (BitVec.extractLsb' 12 4 v).setWidth 5)) t = .next u ∧
      u.ps = v :: s.ps ∧ u.rs = s.rs ∧ u.pc = s.pc + 2#16 ∧ u.mem = s.mem

/-- SUM, ABS, DIFR and DIF push the sum or difference of their operands modulo 2^16 (44_alu.md R151; 44_alu.md R153;
44_alu.md R154; 44_alu.md R155; 44_alu.md R156; 44_alu.md R152; 44_alu.md R149; 44_alu.md R181). Single and double-
cell rows, stack and immediate forms, with and without the return bit: SUM A + B, ABS A + |B|, DIFR B - A, DIF A -
B, A the widened immediate (uimm, oimm, uimm, oimm) or the next cell, B the top; the upper cell of the double row is
a free value. The return stack changes only by the return action; memory, devices and every other register stay.
That the upper cell lies on top is general knowledge G1 (R149, D11; log entry 20, PRESUMED), what it holds a free
value (R152, log entry 11). The three zones are the spec's decision D23, taken at the depths after the return action
(log entries 3 and 31). The result cells are the same on every machine, whatever its parameters and the draw (R181). -/
def Obligations.SumsAndDifferences : Prop :=
  AluMeans .sum .sumD (fun imm => imm.setWidth 16)
    (fun _ a b => a + b) (Config.aluHi .sum) ∧
  AluMeans .abs .absD (fun imm => imm.setWidth 16 - 16#16)
    (fun _ a b => a + BitVec.ofNat 16 b.toInt.natAbs) (Config.aluHi .abs) ∧
  AluMeans .difr .difrD (fun imm => imm.setWidth 16)
    (fun _ a b => b - a) (Config.aluHi .difr) ∧
  AluMeans .dif .difD (fun imm => imm.setWidth 16 - 16#16)
    (fun _ a b => a - b) (Config.aluHi .dif)

/-- UMIN, MAX, UMAX and MIN push the smaller or greater operand (44_alu.md R151; 44_alu.md R157; 44_alu.md R158;
44_alu.md R159; 44_alu.md R160; 44_alu.md R152; 44_alu.md R149). All forms: UMIN and UMAX compare unsigned (uimm),
MIN and MAX signed (oimm); the upper cell of the double row is a free value. The return stack changes only by the
return action; memory, devices and every other register stay. That the upper cell lies on top is general knowledge
G1 (R149, D11; log entry 20, PRESUMED), what it holds a free value (R152, log entry 11). The three zones are the
spec's decision D23, taken at the depths after the return action (log entries 3 and 31). -/
def Obligations.MinimaAndMaxima : Prop :=
  AluMeans .umin .uminD (fun imm => imm.setWidth 16)
    (fun _ a b => if b.ult a then b else a) (Config.aluHi .umin) ∧
  AluMeans .max .maxD (fun imm => imm.setWidth 16 - 16#16)
    (fun _ a b => if a.slt b then b else a) (Config.aluHi .max) ∧
  AluMeans .umax .umaxD (fun imm => imm.setWidth 16)
    (fun _ a b => if a.ult b then b else a) (Config.aluHi .umax) ∧
  AluMeans .min .minD (fun imm => imm.setWidth 16 - 16#16)
    (fun _ a b => if b.slt a then b else a) (Config.aluHi .min)

/-- The eight comparisons push 0xFFFF when they hold and 0x0000 when not (44_alu.md R150; 44_alu.md R151; 44_alu.md R161
to R168; 44_alu.md R152; 44_alu.md R149). All forms: EQU and EQ equality, NEU and NE inequality, UGT and ULT
unsigned, LT and GT signed, A on the left; the immediates are uimm for EQU, NEU, UGT, ULT and oimm for EQ, NE, LT,
GT; the upper cell of the double row is a free value. The return stack changes only by the return action; memory,
devices and every other register stay. That TRUE is 0xFFFF is the spec's own reading (R150, D9; log entry 19). That
the upper cell lies on top is general knowledge G1 (R149, D11; log entry 20, PRESUMED), what it holds a free value
(R152, log entry 11). The three zones are the spec's decision D23, taken at the depths after the return action (log
entries 3 and 31). -/
def Obligations.ComparisonsPushAFlagCell : Prop :=
  AluMeans .equ .equD (fun imm => imm.setWidth 16)
    (fun _ a b => if a = b then 0xFFFF#16 else 0x0000#16) (Config.aluHi .equ) ∧
  AluMeans .eq .eqD (fun imm => imm.setWidth 16 - 16#16)
    (fun _ a b => if a = b then 0xFFFF#16 else 0x0000#16) (Config.aluHi .eq) ∧
  AluMeans .neu .neuD (fun imm => imm.setWidth 16)
    (fun _ a b => if a ≠ b then 0xFFFF#16 else 0x0000#16) (Config.aluHi .neu) ∧
  AluMeans .ne .neD (fun imm => imm.setWidth 16 - 16#16)
    (fun _ a b => if a ≠ b then 0xFFFF#16 else 0x0000#16) (Config.aluHi .ne) ∧
  AluMeans .ugt .ugtD (fun imm => imm.setWidth 16)
    (fun _ a b => if b.ult a then 0xFFFF#16 else 0x0000#16) (Config.aluHi .ugt) ∧
  AluMeans .lt .ltD (fun imm => imm.setWidth 16 - 16#16)
    (fun _ a b => if a.slt b then 0xFFFF#16 else 0x0000#16) (Config.aluHi .lt) ∧
  AluMeans .ult .ultD (fun imm => imm.setWidth 16)
    (fun _ a b => if a.ult b then 0xFFFF#16 else 0x0000#16) (Config.aluHi .ult) ∧
  AluMeans .gt .gtD (fun imm => imm.setWidth 16 - 16#16)
    (fun _ a b => if b.slt a then 0xFFFF#16 else 0x0000#16) (Config.aluHi .gt)

/-- UMUL and SMUL push the low half of the 32-bit product, and the upper half on top in the double row (44_alu.md R169;
44_alu.md R170; 44_alu.md R149; 44_alu.md R151; 44_alu.md R181). All forms: the product of the unsigned readings
(uimm) or of the signed readings (simm) as 32 bits; its low 16 bits are the single result and the lower cell of the
double one, its upper 16 bits the cell on top. The return stack changes only by the return action; memory, devices
and every other register stay. The result cells are the same on every machine, whatever its parameters and the draw
(R181). That the upper half lies on top is general knowledge G1 (R149, D11; log entry 20, PRESUMED). The three zones
are the spec's decision D23, taken at the depths after the return action (log entries 3 and 31). -/
def Obligations.ProductsFillTwoCells : Prop :=
  AluMeans .umul .umulD (fun imm => imm.setWidth 16)
    (fun _ a b => a * b) (fun _ a b => BitVec.extractLsb' 16 16 (a.setWidth 32 * b.setWidth 32)) ∧
  AluMeans .smul .smulD (fun imm => imm.signExtend 16)
    (fun _ a b => a * b) (fun _ a b => BitVec.extractLsb' 16 16 (a.signExtend 32 * b.signExtend 32))

/-- AND, XOR and OR combine their operands bit by bit (44_alu.md R171; 44_alu.md R172; 44_alu.md R173; 44_alu.md R151;
44_alu.md R152; 44_alu.md R149). All forms: AND and XOR take a sign-extended immediate, OR a zero-extended one; the
upper cell of the double row is a free value. The return stack changes only by the return action; memory, devices
and every other register stay. That the upper cell lies on top is general knowledge G1 (R149, D11; log entry 20,
PRESUMED), what it holds a free value (R152, log entry 11). The three zones are the spec's decision D23, taken at
the depths after the return action (log entries 3 and 31). -/
def Obligations.BitwiseLogic : Prop :=
  AluMeans .and .andD (fun imm => imm.signExtend 16)
    (fun _ a b => a &&& b) (Config.aluHi .and) ∧
  AluMeans .xor .xorD (fun imm => imm.signExtend 16)
    (fun _ a b => a ^^^ b) (Config.aluHi .xor) ∧
  AluMeans .or .orD (fun imm => imm.setWidth 16)
    (fun _ a b => a ||| b) (Config.aluHi .or)

/-- LSR, LSL and ASR shift the next cell by the top, or the top by the immediate (44_alu.md R174; 44_alu.md R175;
44_alu.md R176; 44_alu.md R180; 44_alu.md R151; 44_alu.md R149). All forms: for an amount below 32 the mathematical
shift (zero fill, zero fill, sign fill); from 32 on, which only the stack form can ask for, a free value; the upper
cell of the double row is a free value. The return stack changes only by the return action; memory, devices and
every other register stay. That amounts of 16 to 31 follow the formula is the spec's own choice (R180, D12; log
entry 21), the result from 32 on a free value (log entry 12). That the upper cell lies on top is general knowledge
G1 (R149, D11; log entry 20, PRESUMED), what it holds a free value (R152, log entry 11). The three zones are the
spec's decision D23, taken at the depths after the return action (log entries 3 and 31). -/
def Obligations.ShiftsByLessThan32 : Prop :=
  AluMeans .lsr .lsrD (fun imm => imm.setWidth 16)
    (fun immediate a b =>
      if (if immediate then a else b).toNat < 32 then
        (if immediate then b else a) >>> (if immediate then a else b).toNat
      else Config.shiftBig .lsr (if immediate then b else a) (if immediate then a else b))
    (Config.aluHi .lsr) ∧
  AluMeans .lsl .lslD (fun imm => imm.setWidth 16)
    (fun immediate a b =>
      if (if immediate then a else b).toNat < 32 then
        (if immediate then b else a) <<< (if immediate then a else b).toNat
      else Config.shiftBig .lsl (if immediate then b else a) (if immediate then a else b))
    (Config.aluHi .lsl) ∧
  AluMeans .asr .asrD (fun imm => imm.setWidth 16)
    (fun immediate a b =>
      if (if immediate then a else b).toNat < 32 then
        (if immediate then b else a).sshiftRight (if immediate then a else b).toNat
      else Config.shiftBig .asr (if immediate then b else a) (if immediate then a else b))
    (Config.aluHi .asr)

/-- LITHI replaces bits 15 to 12 of the top by its immediate, the sign of which is the upper cell (44_alu.md R177;
44_alu.md R149; 44_alu.md R151). For every immediate but 0: the single row leaves {imm5[3:0], B[11:0]}, the double
row also 0xFFFF on top if imm5[4] is set and 0x0000 if not. The return stack changes only by the return action;
memory, devices and every other register stay. The concatenation and the sign as upper cell are the spec's
derivation (R177, D14; log entry 23), and that the upper cell lies on top is general knowledge G1 (D11; log entry
20, PRESUMED). The three zones are the spec's decision D23, taken at the depths after the return action (log entries
3 and 31). -/
def Obligations.LithiSetsTheUpperFourBits : Prop :=
  ∀ (r : Bool) (imm5 : BitVec 5) (s : State) (b : Cell) (rest : List Cell), imm5 ≠ 0#5 →
    s.canReturn r → s.ps = b :: rest →
    exec (.lithi r imm5) s =
      .next (s.after r ((BitVec.extractLsb' 0 4 imm5 ++ BitVec.extractLsb' 0 12 b) :: rest)) ∧
    s.endsUnlessFull (s.ps.length + 1) (s.rsdAfter r) 0xFFFD#16 (exec (.lithiD r imm5) s)
      (s.after r ((if imm5.getLsbD 4 then 0xFFFF#16 else 0x0000#16) ::
        (BitVec.extractLsb' 0 4 imm5 ++ BitVec.extractLsb' 0 12 b) :: rest))

/-- LITHI in the stack form is refused in every state (R178). For both result sizes, both values of the return bit and
every state the answer is the refusal lithiWithoutImmediate. -/
def Obligations.LithiWithoutImmediateHasNoMeaning : Prop :=
  ∀ (r t : Bool) (s : State), exec (.lithiStackForm r t) s = .refused .lithiWithoutImmediate

/-- Each of the 14 rows of a reserved operator raises undefined word, whatever its bits and the stacks (44_alu.md R179;
60_exceptions.md R288; 60_exceptions.md R289). For the operators 10010, 10011, 10111, 11011, 11101, 11110 and 11111,
single and double, every immediate and return bit, and every state, the answer is the entry of the undefined word
exception: no cell is consumed, no underflow is raised. That these operators raise the exception is the spec's own
decision, the source calls them reserved and no more (R179, D13; log entry 22). -/
def Obligations.ReservedOperatorsRaiseUndefinedWord : Prop :=
  ∀ (r : Bool) (imm5 : BitVec 5) (s : State), ∀ i ∈ [
      Instr.rsv10010 r imm5, Instr.rsv10010D r imm5,
      Instr.rsv10011 r imm5, Instr.rsv10011D r imm5,
      Instr.rsv10111 r imm5, Instr.rsv10111D r imm5,
      Instr.rsv11011 r imm5, Instr.rsv11011D r imm5,
      Instr.rsv11101 r imm5, Instr.rsv11101D r imm5,
      Instr.rsv11110 r imm5, Instr.rsv11110D r imm5,
      Instr.rsv11111 r imm5, Instr.rsv11111D r imm5],
    exec i s = .next (s.raise .undefinedWord)

/-- An ALU instruction with too few cells, or without its return address, changes nothing but the exception (44_alu.md
R151; 60_exceptions.md R289; 60_exceptions.md R290). For all 24 operators with a stack form and LITHI in its
immediate form, single and double: fewer cells than the form needs is the entry of the parameter stack underflow;
enough cells but an empty return stack under the return bit is the entry of the return stack underflow. The order of
the two checks (R289, D25) and that they come before any effect, the operands still in place (R290, D22, D6), are
the spec's own choices: log entries 17 and 28. -/
def Obligations.AluChecksItsOperandsFirst : Prop :=
  AluUnderflows .sum .sumD ∧
  AluUnderflows .abs .absD ∧
  AluUnderflows .difr .difrD ∧
  AluUnderflows .dif .difD ∧
  AluUnderflows .umin .uminD ∧
  AluUnderflows .max .maxD ∧
  AluUnderflows .umax .umaxD ∧
  AluUnderflows .min .minD ∧
  AluUnderflows .equ .equD ∧
  AluUnderflows .eq .eqD ∧
  AluUnderflows .neu .neuD ∧
  AluUnderflows .ne .neD ∧
  AluUnderflows .ugt .ugtD ∧
  AluUnderflows .lt .ltD ∧
  AluUnderflows .ult .ultD ∧
  AluUnderflows .gt .gtD ∧
  AluUnderflows .umul .umulD ∧
  AluUnderflows .smul .smulD ∧
  AluUnderflows .and .andD ∧
  AluUnderflows .xor .xorD ∧
  AluUnderflows .or .orD ∧
  AluUnderflows .lsr .lsrD ∧
  AluUnderflows .lsl .lslD ∧
  AluUnderflows .asr .asrD ∧
  ∀ (r : Bool) (imm5 : BitVec 5) (s : State),
    (s.ps = [] → exec (.lithi r imm5) s = .next (s.raise .psUnderflow) ∧
      exec (.lithiD r imm5) s = .next (s.raise .psUnderflow)) ∧
    (imm5 ≠ 0#5 → s.ps ≠ [] → r = true → s.rs = [] →
      exec (.lithi r imm5) s = .next (s.raise .rsUnderflow) ∧
        exec (.lithiD r imm5) s = .next (s.raise .rsUnderflow))

/-- NOP, DROP, DUP, SWAP, OVER and NIP do what their stack effects say (45_stack.md R213 to R218; 40_return.md R120;
60_exceptions.md R287). With the cells they need and a return address where the return bit asks for one: NOP leaves
the stack, DROP removes the top, DUP doubles it, SWAP exchanges the two upper cells, OVER copies the second on top,
NIP removes the second; DUP and OVER overflow as R287 says; nothing else changes but the return action. The three
zones are the spec's decision D23, taken at the depths after the return action (log entries 3 and 31). -/
def Obligations.ParameterStackWords : Prop :=
  (∀ (r : Bool) (s : State), s.canReturn r → exec (.nop r) s = .next (s.after r s.ps)) ∧
  (∀ (r : Bool) (s : State) (a : Cell) (rest : List Cell), s.canReturn r → s.ps = a :: rest →
    exec (.drop r) s = .next (s.after r rest) ∧
    s.endsUnlessFull (s.ps.length + 1) (s.rsdAfter r) 0xFFFD#16 (exec (.dup r) s)
      (s.after r (a :: a :: rest))) ∧
  (∀ (r : Bool) (s : State) (a b : Cell) (rest : List Cell), s.canReturn r → s.ps = a :: b :: rest →
    exec (.swap r) s = .next (s.after r (b :: a :: rest)) ∧
    exec (.nip r) s = .next (s.after r (a :: rest)) ∧
    s.endsUnlessFull (s.ps.length + 1) (s.rsdAfter r) 0xFFFD#16 (exec (.overCell r) s)
      (s.after r (b :: a :: b :: rest)))

/-- RDROP, >R, R@ and R> move cells between the stacks as their stack effects say (45_stack.md R219 to R222;
60_exceptions.md R287). Without the return bit and with the cell they need: RDROP removes the top of the return
stack, >R moves the top of the parameter stack there, R> moves it back, R@ copies it; >R, R> and RDROP never
overflow, R@ overflows as R287 says; nothing else changes but pc. -/
def Obligations.ReturnStackWords : Prop :=
  (∀ (s : State) (a : Cell) (rest : List Cell), s.ps = a :: rest →
    exec (.toR false) s = .next (s.afterBoth rest (a :: s.rs))) ∧
  (∀ (s : State) (x : Cell) (rest : List Cell), s.rs = x :: rest →
    exec (.rdrop false) s = .next (s.afterBoth s.ps rest) ∧
    exec (.rFrom false) s = .next (s.afterBoth (x :: s.ps) rest) ∧
    s.endsUnlessFull (s.ps.length + 1) s.rs.length 0xFFFD#16 (exec (.rFetch false) s)
      (s.afterBoth (x :: s.ps) s.rs))

/-- A named stack word without the cells it needs raises the underflow of the stack that lacks them (45_stack.md R206;
45_stack.md R213 to R222). DROP and DUP with an empty parameter stack, SWAP, OVER and NIP with fewer than two cells,
>R with none: parameter stack underflow; RDROP, R@ and R> with an empty return stack: return stack underflow. -/
def Obligations.StackWordsUnderflow : Prop :=
  (∀ (r : Bool) (s : State), s.ps = [] →
    exec (.drop r) s = .next (s.raise .psUnderflow) ∧ exec (.dup r) s = .next (s.raise .psUnderflow) ∧
    exec (.toR false) s = .next (s.raise .psUnderflow)) ∧
  (∀ (r : Bool) (s : State), s.ps.length < 2 →
    exec (.swap r) s = .next (s.raise .psUnderflow) ∧ exec (.overCell r) s = .next (s.raise .psUnderflow) ∧
    exec (.nip r) s = .next (s.raise .psUnderflow)) ∧
  (∀ s : State, s.rs = [] →
    exec (.rdrop false) s = .next (s.raise .rsUnderflow) ∧
    exec (.rFetch false) s = .next (s.raise .rsUnderflow) ∧
    exec (.rFrom false) s = .next (s.raise .rsUnderflow))

/-- Each named stack word is the general stack instruction with its transition pattern (45_stack.md R205; 45_stack.md
R206; 45_stack.md R213 to R222). In every state, the meanings of NOP, DROP, DUP, SWAP, OVER and NIP (with and
without the return bit) and of RDROP, >R, R@ and R> (without it), written from their stack effects, equal the
general transition of R205 and R206 for the pattern of their word: same underflow, same overflow, same cells. -/
def Obligations.StackWordsAreTheirPatterns : Prop :=
  ∀ s : State,
    (∀ r : Bool,
      exec (.nop r) s = s.transition r (decodePattern 0x0400#16) ∧
      exec (.drop r) s = s.transition r (decodePattern 0x06A8#16) ∧
      exec (.dup r) s = s.transition r (decodePattern 0x0750#16) ∧
      exec (.swap r) s = s.transition r (decodePattern 0x0418#16) ∧
      exec (.overCell r) s = s.transition r (decodePattern 0x0758#16) ∧
      exec (.nip r) s = s.transition r (decodePattern 0x06A0#16)) ∧
    exec (.rdrop false) s = s.transition false (decodePattern 0x0401#16) ∧
    exec (.toR false) s = s.transition false (decodePattern 0x06AB#16) ∧
    exec (.rFetch false) s = s.transition false (decodePattern 0x0754#16) ∧
    exec (.rFrom false) s = s.transition false (decodePattern 0x0755#16)

/-- >R and then R>, and a call and then a return, leave both stacks as they were (45_stack.md R220; 45_stack.md R222;
41_jump_call.md R128; 40_return.md R120; 95_test_vectors.md section 4). With a cell on the parameter stack, at any
depth: >R completes, R> after it completes, and both stacks, memory and the enable flag are as before. With room for
the return address: CALL completes, NOP with the return bit at its target completes, and pc is the address after the
call, both stacks as before. The return address, pc + 1, is the spec's own choice (D4, D5; log entry 16). -/
def Obligations.ReturnStackRoundTrips : Prop :=
  (∀ s : State, s.ps ≠ [] →
    ∃ t u : State, exec (.toR false) s = .next t ∧ exec (.rFrom false) t = .next u ∧
      u.ps = s.ps ∧ u.rs = s.rs ∧ u.pc = s.pc + 2#16 ∧ u.mem = s.mem ∧ u.ien = s.ien) ∧
  (∀ (a14 : BitVec 14) (s : State), a14 ≠ 0x3FFF#14 → s.roomFor s.ps.length (s.rs.length + 1) →
    ∃ t u : State, exec (.call a14) s = .next t ∧ exec (.nop true) t = .next u ∧
      u.pc = s.pc + 1#16 ∧ u.ps = s.ps ∧ u.rs = s.rs ∧ u.mem = s.mem ∧ u.ien = s.ien)

/-- TUCK1, ROT1 and NROT1 reorder the upper cells where EXT_ROT is set, and are reserved where not (45_stack.md R210;
45_stack.md R211; 45_stack.md R212; 45_stack.md R204). With EXT_ROT and enough cells: TUCK1 leaves x2 x1 x2
(overflowing as R287 says), ROT1 x2 x3 x1 and NROT1 x3 x1 x2, the return stack untouched but for the return action;
with fewer than two or three cells the parameter stack underflow; ROT1 with the return bit is refused; without
EXT_ROT all three are refused as reserved patterns. That exactly these three patterns have a meaning is the spec's
own choice (R209, D16; log entry 24). The three zones are the spec's decision D23, taken at the depths after the
return action (log entries 3 and 31). -/
def Obligations.RotExtensionWords : Prop :=
  (∀ (r : Bool) (s : State) (x1 x2 : Cell) (rest : List Cell), s.cfg.extRot = true → s.canReturn r →
    s.ps = x2 :: x1 :: rest →
    s.endsUnlessFull (s.ps.length + 1) (s.rsdAfter r) 0xFFFD#16 (exec (.tuck1 r) s)
      (s.after r (x2 :: x1 :: x2 :: rest))) ∧
  (∀ (r : Bool) (s : State) (x1 x2 x3 : Cell) (rest : List Cell), s.cfg.extRot = true →
    s.ps = x3 :: x2 :: x1 :: rest →
    exec (.rot1 false) s = .next (s.after false (x1 :: x3 :: x2 :: rest)) ∧
    (s.canReturn r → exec (.nrot1 r) s = .next (s.after r (x2 :: x1 :: x3 :: rest)))) ∧
  (∀ (r : Bool) (s : State), s.cfg.extRot = true →
    (s.ps.length < 2 → exec (.tuck1 r) s = .next (s.raise .psUnderflow)) ∧
    (s.ps.length < 3 → exec (.rot1 false) s = .next (s.raise .psUnderflow) ∧
      exec (.nrot1 r) s = .next (s.raise .psUnderflow)) ∧
    exec (.rot1 true) s = .refused .returnBitOnReturnStackUse) ∧
  (∀ (r : Bool) (s : State), s.cfg.extRot = false →
    exec (.tuck1 r) s = .refused .reservedPattern ∧ exec (.rot1 r) s = .refused .reservedPattern ∧
    exec (.nrot1 r) s = .refused .reservedPattern)

/-- A pattern in which a cell would receive two sources is refused; there are 592 of the 1024 (45_stack.md R204). In
every state a general stack instruction is refused as reserved if PS0 would receive from PS1 and RS0, PS1 from PS2
and PS0, or PS2 from PS3 and PS1; 592 of the 1024 patterns are such (three of them the rows of the ROT extension).
Refusing, and not the logic OR, is the spec's own choice (D15; log entry 24). -/
def Obligations.ReservedPatternsHaveNoMeaning : Prop :=
  (∀ (r : Bool) (p : StkPattern) (s : State),
    (p.u1 ∈ [Ust.up, .exchange] ∧ p.u0 ∈ [Ust.down, .exchange]) ∨
      (p.u2 ∈ [Ust.up, .exchange] ∧ p.u1 ∈ [Ust.down, .exchange]) ∨
      (p.u3 ∈ [Ust.up, .exchange] ∧ p.u2 ∈ [Ust.down, .exchange]) →
    exec (.stk r p) s = .refused .reservedPattern) ∧
  ((List.range 1024).filter fun n => reserved (decodePattern (BitVec.ofNat 16 n))).length = 592

/-- The return bit on an instruction that itself uses the return stack is refused (R122). In every state RDROP, >R, R@,
R>, a defined general pattern with U0 or IRS set, and the RSD write are refused with the return bit. -/
def Obligations.ReturnBitOnReturnStackUseHasNoMeaning : Prop :=
  (∀ s : State, ∀ i ∈ [Instr.rdrop true, .toR true, .rFetch true, .rFrom true, .frwRsd true],
    exec i s = .refused .returnBitOnReturnStackUse) ∧
  (∀ (p : StkPattern) (s : State), reserved p = false → (p.u0 ≠ .none ∨ p.irs = true) →
    exec (.stk true p) s = .refused .returnBitOnReturnStackUse)

/-- A defined pattern moves every cell as its transfer bits say, all at once (45_stack.md R201; 45_stack.md R202;
45_stack.md R203; 45_stack.md R205; 45_stack.md R208). With five cells or more on the parameter stack and two or
more on the return stack, for every defined pattern: each of PS0 to PS3 and RS0 takes its one source or keeps its
value, the cells below are pushed, pulled or left as IPS and IRS with U3 and U0 say, and nothing else changes but
pc; with the return bit, on a pattern that does not use the return stack, the return action follows; growing stacks
overflow as R287 says. The three zones are the spec's decision D23, taken at the depths after the return action (log
entries 3 and 31). -/
def Obligations.DefinedPatternMovesFullCells : Prop :=
  ∀ (p : StkPattern) (s : State) (a b c d e x y : Cell) (rest more ps' rs' : List Cell),
    reserved p = false → s.ps = a :: b :: c :: d :: e :: rest → s.rs = x :: y :: more →
    ps' = (if ustUp p.u1 then b else if ustDown p.u0 then x else a) ::
        (if ustUp p.u2 then c else if ustDown p.u1 then a else b) ::
        (if ustUp p.u3 then d else if ustDown p.u2 then b else c) ::
        (if ustDown p.u3 then c else if p.ips then e else d) ::
        (if p.ips then (if ustDown p.u3 then d :: e :: rest else rest) else e :: rest) →
    rs' = (if ustUp p.u0 then a else if p.irs then y else x) ::
        (if p.irs then (if ustUp p.u0 then x :: y :: more else more) else y :: more) →
    s.endsUnlessFull ps'.length rs'.length
      (if s.ps.length < ps'.length then 0xFFFD#16 else 0xFFFB#16) (exec (.stk false p) s)
      (s.afterBoth ps' rs') ∧
    (p.u0 = .none → p.irs = false →
      s.endsUnlessFull ps'.length (s.rsdAfter true) 0xFFFD#16 (exec (.stk true p) s) (s.after true ps'))

/-- A defined pattern runs exactly when the cells its rules require hold content (45_stack.md R201; 45_stack.md R202;
45_stack.md R203; 45_stack.md R205; 45_stack.md R206; 45_stack.md R208). For every defined pattern and every depth
of both stacks, all read off the transfer bits (patternNeeds, patternNeedsReturn, patternPs and patternRs of
Safety.lean, not the model's own functions): if a cell of the parameter stack that the pattern needs is empty, the
parameter stack underflow; else if it needs RS0 and that is empty, the return stack underflow; else each upper cell
takes its one source or keeps its value, cells without content fall away, the cells below are pushed, pulled or
left, growing as R287 says, and nothing else changes but pc. With the return bit, on a pattern that does not use the
return stack, the same checks, then the return address's, then the return action. Which cells are needed is the
spec's formalisation (R206, D17; log entry 25). The three zones are the spec's decision D23, taken at the depths
after the return action (log entries 3 and 31). -/
def Obligations.DefinedPatternChecksItsCells : Prop :=
  ∀ (p : StkPattern) (s : State), reserved p = false →
    ((∃ k : Fin 4, patternNeeds p k = true ∧ s.ps.length ≤ k.val) →
      exec (.stk false p) s = .next (s.raise .psUnderflow) ∧
      (p.u0 = .none → p.irs = false → exec (.stk true p) s = .next (s.raise .psUnderflow))) ∧
    ((∀ k : Fin 4, patternNeeds p k = true → k.val < s.ps.length) →
      (patternNeedsReturn p = true → s.rs = [] →
        exec (.stk false p) s = .next (s.raise .rsUnderflow)) ∧
      ((patternNeedsReturn p = true → s.rs ≠ []) →
        s.endsUnlessFull (patternPs p s.ps s.rs).length (patternRs p s.ps s.rs).length
          (if s.ps.length < (patternPs p s.ps s.rs).length then 0xFFFD#16 else 0xFFFB#16)
          (exec (.stk false p) s) (s.afterBoth (patternPs p s.ps s.rs) (patternRs p s.ps s.rs))) ∧
      (p.u0 = .none → p.irs = false →
        (s.rs = [] → exec (.stk true p) s = .next (s.raise .rsUnderflow)) ∧
        (s.rs ≠ [] →
          s.endsUnlessFull (patternPs p s.ps s.rs).length (s.rsdAfter true) 0xFFFD#16
            (exec (.stk true p) s) (s.after true (patternPs p s.ps s.rs)))))

/-- A defined pattern that passes its checks leaves no gap and changes each depth by at most one (45_stack.md R205;
45_stack.md R207). For every defined pattern and any two stacks on which no required cell is empty: a cell of the
upper parameter stack holds content afterwards only if the cell above it does, deeper cells only below a full upper
stack, and each depth changes by -1, 0 or +1. Which cells are required is the spec's formalisation (R206, D17; log
entry 25). -/
def Obligations.PatternsKeepTheUpperStackContiguous : Prop :=
  ∀ (p : StkPattern) (ps rs : List Cell), reserved p = false → lacksParameter p ps rs = false →
    lacksReturn p ps rs = false →
    ((newValue p ps rs .ps1).isSome → (newValue p ps rs .ps0).isSome) ∧
    ((newValue p ps rs .ps2).isSome → (newValue p ps rs .ps1).isSome) ∧
    ((newValue p ps rs .ps3).isSome → (newValue p ps rs .ps2).isSome) ∧
    (newPsDeep p ps ≠ [] → (newValue p ps rs .ps3).isSome) ∧
    (newRsDeep p rs ≠ [] → (newValue p ps rs .rs0).isSome) ∧
    (newPs p ps rs).length ≤ ps.length + 1 ∧ ps.length ≤ (newPs p ps rs).length + 1 ∧
    (newRs p ps rs).length ≤ rs.length + 1 ∧ rs.length ≤ (newRs p ps rs).length + 1

/-- STI and ST write one word to memory and take their operands, or wait for the bus (46_memory_access.md R230;
46_memory_access.md R231; 46_memory_access.md R233; 20_memory.md R66; 70_reset_and_hazards.md R330; 20_memory.md
R74). With the operands, a return address where the return bit asks for one, a bus that answers, and an address the
platform accepts: STI stores the second cell at the address on top, ST the top at the upper byte of PBUS_MADR_OFFSET
followed by m8; the word goes to memory (or to the device that answers there), what may have been fetched ahead at
that address is kept as possible, the operands are taken, and nothing else changes but the return action. Where the
bus holds the access or asks for it again, only that the instruction waits is changed. Fewer operands underflow. Not
stated by the source: the window's formula (R68, D3; log entry 6). The model's own choices: keeping the old word as
one that may execute rather than refusing (log entry 14), a device that takes the word (log entry 10), the wait
after a retry (log entry 42). -/
def Obligations.StoresWriteOneWord : Prop :=
  (∀ (r : Bool) (s : State) (a v : Cell) (rest : List Cell), s.canReturn r → s.ps = a :: v :: rest →
    s.dataAnswer = .answered → s.cfg.valid a .write = true →
    exec (.sti r) s = .next
      { s.after r rest with
        mem := if s.cfg.isDevice a then s.mem else Memory.putWord s.cfg.byteOrder s.mem a v,
        stash := if r then [] else
          (if a = s.pc + 1#16 ∨ a = s.pc + 2#16 then [(a, s.readWord .fetch a)] else []) ++
            s.stash.filter fun c => c.1 ≠ s.pc }) ∧
  (∀ (r : Bool) (m8 : BitVec 8) (s : State) (a v : Cell) (rest : List Cell), m8 ≠ 0xFF#8 →
    s.canReturn r → s.ps = v :: rest → s.dataAnswer = .answered →
    a = BitVec.extractLsb' 8 8 s.cfg.madrOffset ++ m8 → s.cfg.valid a .write = true →
    exec (.st r m8) s = .next
      { s.after r rest with
        mem := if s.cfg.isDevice a then s.mem else Memory.putWord s.cfg.byteOrder s.mem a v,
        stash := if r then [] else
          (if a = s.pc + 1#16 ∨ a = s.pc + 2#16 then [(a, s.readWord .fetch a)] else []) ++
            s.stash.filter fun c => c.1 ≠ s.pc }) ∧
  (∀ (r : Bool) (m8 : BitVec 8) (s : State), s.canReturn r →
    (2 ≤ s.ps.length → (s.dataAnswer = .held → exec (.sti r) s = .next { s with waiting := .blocked }) ∧
      (s.dataAnswer = .retry → exec (.sti r) s = .next { s with waiting := .retried })) ∧
    (s.ps ≠ [] → (s.dataAnswer = .held → exec (.st r m8) s = .next { s with waiting := .blocked }) ∧
      (s.dataAnswer = .retry → exec (.st r m8) s = .next { s with waiting := .retried }))) ∧
  (∀ (r : Bool) (m8 : BitVec 8) (s : State),
    (s.ps.length < 2 → exec (.sti r) s = .next (s.raise .psUnderflow)) ∧
    (s.ps = [] → exec (.st r m8) s = .next (s.raise .psUnderflow)))

/-- LDI and LD push the word they read, or wait for the bus (46_memory_access.md R230; 46_memory_access.md R232;
46_memory_access.md R234; 20_memory.md R65; 20_memory.md R74). With the operand, a return address where the return
bit asks for one, a bus that answers, and an address the platform accepts: LDI replaces the address on top by the
word read there, LD pushes the word at the upper byte of PBUS_MADR_OFFSET followed by m8, overflowing as R287 says;
nothing else changes but the return action. Where the bus holds the access or asks for it again, only that the
instruction waits is changed. LDI with an empty parameter stack underflows. Not stated by the source: LD's address,
the window's formula (R68, D3; log entry 6). The model's own choices: a device's word and a word that nothing has
written are free (log entries 10 and 9), the wait after a retry (log entry 42). The three zones are the spec's
decision D23, taken at the depths after the return action (log entries 3 and 31). -/
def Obligations.LoadsPushOneWord : Prop :=
  (∀ (r : Bool) (s : State) (a : Cell) (rest : List Cell), s.canReturn r → s.ps = a :: rest →
    s.dataAnswer = .answered → s.cfg.valid a .read = true →
    exec (.ldi r) s = .next (s.after r (s.readWord .read a :: rest))) ∧
  (∀ (r : Bool) (m8 : BitVec 8) (s : State) (a : Cell), m8 ≠ 0xFF#8 → s.canReturn r →
    s.dataAnswer = .answered →
    a = BitVec.extractLsb' 8 8 s.cfg.madrOffset ++ m8 → s.cfg.valid a .read = true →
    s.endsUnlessFull (s.ps.length + 1) (s.rsdAfter r) 0xFFFD#16 (exec (.ld r m8) s)
      (s.after r (s.readWord .read a :: s.ps))) ∧
  (∀ (r : Bool) (m8 : BitVec 8) (s : State), s.canReturn r →
    (s.ps ≠ [] → (s.dataAnswer = .held → exec (.ldi r) s = .next { s with waiting := .blocked }) ∧
      (s.dataAnswer = .retry → exec (.ldi r) s = .next { s with waiting := .retried })) ∧
      (s.dataAnswer = .held → exec (.ld r m8) s = .next { s with waiting := .blocked }) ∧
      (s.dataAnswer = .retry → exec (.ld r m8) s = .next { s with waiting := .retried })) ∧
  (∀ (r : Bool) (s : State), s.ps = [] → exec (.ldi r) s = .next (s.raise .psUnderflow))

/-- A data access the platform refuses enters address out of range, its operands taken or not (46_memory_access.md R236;
60_exceptions.md R283; 20_memory.md R66). With the operands and a return address where the return bit asks for one,
and a bus that ends the access: a refused read is the entry of the exception on the stack with its operand, or
without it, as MEMFAULT_CONSUMES says; memory stays. A refused store likewise, and memory either stays or has taken
the word. Whether the operands are taken is a parameter (D22; log entry 4), whether the store wrote a free value
(U14; log entry 13); that the throw code always fits where the operands are gone is the model's choice (R295; log
entry 44); the window's formula is the spec's choice (D3; log entry 6). -/
def Obligations.FaultingDataAccessTakesTheException : Prop :=
  (∀ (r : Bool) (s : State) (a : Cell) (rest : List Cell), s.dataAnswer = .answered → s.canReturn r → s.ps = a :: rest →
    s.cfg.valid a .read = false →
    exec (.ldi r) s = .next (if s.cfg.memfaultConsumes then
      s.gone (0xFFF7#16 :: rest) s.rs 0x0000#16 none else s.raise .addressOutOfRange)) ∧
  (∀ (r : Bool) (m8 : BitVec 8) (s : State), m8 ≠ 0xFF#8 → s.dataAnswer = .answered → s.canReturn r →
    s.cfg.valid (BitVec.extractLsb' 8 8 s.cfg.madrOffset ++ m8) .read = false →
    exec (.ld r m8) s = .next (s.raise .addressOutOfRange)) ∧
  (∀ (r : Bool) (s : State) (a v : Cell) (rest : List Cell), s.dataAnswer = .answered →
    s.canReturn r → s.ps = a :: v :: rest →
    s.cfg.valid a .write = false →
    ∃ t : State, exec (.sti r) s = .next t ∧ (t.mem = s.mem ∨ t.mem = (s.putWord a v).mem) ∧
      { t with mem := s.mem } = if s.cfg.memfaultConsumes then
        s.gone (0xFFF7#16 :: rest) s.rs 0x0000#16 none else s.raise .addressOutOfRange) ∧
  (∀ (r : Bool) (m8 : BitVec 8) (s : State) (a v : Cell) (rest : List Cell), m8 ≠ 0xFF#8 →
    s.dataAnswer = .answered → s.canReturn r → s.ps = v :: rest → a = BitVec.extractLsb' 8 8 s.cfg.madrOffset ++ m8 →
    s.cfg.valid a .write = false →
    ∃ t : State, exec (.st r m8) s = .next t ∧ (t.mem = s.mem ∨ t.mem = (s.putWord a v).mem) ∧
      { t with mem := s.mem } = if s.cfg.memfaultConsumes then
        s.gone (0xFFF7#16 :: rest) s.rs 0x0000#16 none else s.raise .addressOutOfRange)

/-- A read gives the word last written there, and no other word changes (20_memory.md R65; 20_memory.md R66;
20_memory.md R70). After a word is written to an address that no device answers: reading it, in any access kind and
at any draw, gives the word; every other word address reads as before; and every byte outside the two stored ones
reads as before. -/
def Obligations.StoredWordIsReadBack : Prop :=
  ∀ (s : State) (a v : Cell) (k : Access),
    (s.cfg.isDevice a = false → (s.putWord a v).readWord k a = v) ∧
    (∀ b : Cell, b ≠ a → (s.putWord a v).readWord k b = s.readWord k b) ∧
    (∀ n : Nat, n ≠ 2 * a.toNat → n ≠ 2 * a.toNat + 1 →
      (s.putWord a v).readByte k n = s.readByte k n)

/-- A store to one of the two following words may be missed by falling into it, and by nothing else
(70_reset_and_hazards.md R330; 20_memory.md R73). For a store of v at address a, answered by no device, by the
instruction at pc: if a is the next word, the word that executes there next is v, or the old one, or one that was
fetched there still earlier; if a is the word after that, likewise after one more instruction that only advances; if
a is neither, what may have been fetched ahead is as before, and if nothing was fetched ahead at a, fetching there
gives v; after any change of flow to a it is v. That either word may execute, and the model does not refuse, is the
model's choice among the two that R330 leaves (D27; log entry 14). -/
def Obligations.StoreIntoFetchedAheadWords : Prop :=
  ∀ (s : State) (a v : Cell), s.cfg.isDevice a = false →
    (a = s.pc + 1#16 → (s.storeWord a v).advance.fetchWord = v ∨
      (s.storeWord a v).advance.fetchWord = s.readWord .fetch a ∨
      (a, (s.storeWord a v).advance.fetchWord) ∈ s.stash) ∧
    (a = s.pc + 2#16 → (s.storeWord a v).advance.advance.fetchWord = v ∨
      (s.storeWord a v).advance.advance.fetchWord = s.readWord .fetch a ∨
      (a, (s.storeWord a v).advance.advance.fetchWord) ∈ s.stash) ∧
    (a ≠ s.pc + 1#16 → a ≠ s.pc + 2#16 → (s.storeWord a v).stash = s.stash ∧
      ((∀ c ∈ s.stash, c.1 ≠ a) → { s.storeWord a v with pc := a }.fetchWord = v)) ∧
    (∀ tag : Option Cof, ((s.storeWord a v).redirect a tag).fetchWord = v)

/-- PSD and RSD read the depths before the push, and a written 0x0000 clears their stack (47_function_register.md R243;
47_function_register.md R244; 47_function_register.md R245; 47_function_register.md R246; 10_state.md R38 to R41).
With a return address where the return bit asks for one: the PSD and RSD reads push the depth modulo 2^16 as it was,
overflowing as R287 says; the PSD write takes the top and, if it is 0x0000, empties the parameter stack; the RSD
write (without the return bit) takes the top and, if it is 0x0000, empties the return stack; with an empty parameter
stack the writes underflow; nothing else changes but the return action. The depth modulo 2^16 is the spec's own
choice (R38, D30; log entry 26). The three zones are the spec's decision D23, taken at the depths after the return
action (log entries 3 and 31). -/
def Obligations.DepthRegistersReadAndClear : Prop :=
  (∀ (r : Bool) (s : State), s.canReturn r →
    s.endsUnlessFull (s.ps.length + 1) (s.rsdAfter r) 0xFFFD#16 (exec (.frrPsd r) s)
      (s.after r (BitVec.ofNat 16 s.ps.length :: s.ps)) ∧
    s.endsUnlessFull (s.ps.length + 1) (s.rsdAfter r) 0xFFFD#16 (exec (.frrRsd r) s)
      (s.after r (BitVec.ofNat 16 s.rs.length :: s.ps))) ∧
  (∀ (r : Bool) (s : State) (v : Cell) (rest : List Cell), s.canReturn r → s.ps = v :: rest →
    exec (.frwPsd r) s = .next (s.after r (if v = 0x0000#16 then [] else rest))) ∧
  (∀ (s : State) (v : Cell) (rest : List Cell), s.ps = v :: rest →
    exec (.frwRsd false) s = .next (s.afterBoth rest (if v = 0x0000#16 then [] else s.rs))) ∧
  (∀ (r : Bool) (s : State), s.ps = [] → exec (.frwPsd r) s = .next (s.raise .psUnderflow) ∧
    exec (.frwRsd false) s = .next (s.raise .psUnderflow))

/-- PC reads the address of the reading instruction, IEN reads and writes the enable flag (47_function_register.md R247;
47_function_register.md R249; 47_function_register.md R250; 10_state.md R42; 10_state.md R43). With the extension
and a return address where the return bit asks for one: the PC read pushes pc, the IEN read pushes 0xFFFF or 0x0000,
both overflowing as R287 says; the IEN write takes the top and enables interrupts exactly if it is not 0x0000, or
underflows; nothing else changes but the return action. 0xFFFF for true, and that every other cell than 0x0000
enables, is the spec's own choice (R42, D20; log entry 19). The three zones are the spec's decision D23, taken at
the depths after the return action (log entries 3 and 31). -/
def Obligations.PcAndIenRegisters : Prop :=
  (∀ (r : Bool) (s : State), s.cfg.extPc = true → s.canReturn r →
    s.endsUnlessFull (s.ps.length + 1) (s.rsdAfter r) 0xFFFD#16 (exec (.frrPc r) s)
      (s.after r (s.pc :: s.ps))) ∧
  (∀ (r : Bool) (s : State), s.cfg.extIrq = true → s.canReturn r →
    s.endsUnlessFull (s.ps.length + 1) (s.rsdAfter r) 0xFFFD#16 (exec (.frrIen r) s)
      (s.after r ((if s.ien then 0xFFFF#16 else 0x0000#16) :: s.ps))) ∧
  (∀ (r : Bool) (s : State) (v : Cell) (rest : List Cell), s.cfg.extIrq = true → s.canReturn r →
    s.ps = v :: rest →
    exec (.frwIen r) s = .next { s.after r rest with ien := decide (v ≠ 0x0000#16) }) ∧
  (∀ (r : Bool) (s : State), s.cfg.extIrq = true → s.ps = [] →
    exec (.frwIen r) s = .next (s.raise .psUnderflow))

/-- KEY? and EMIT? read the device's readiness, KEY takes a datum, EMIT gives one, both wait (47_function_register.md
R251; 47_function_register.md R252; 47_function_register.md R253; 47_function_register.md R254; 10_state.md R44 to
R46). With the extension and a return address where the return bit asks for one: the KEY? and EMIT? reads push
0xFFFF or 0x0000 and leave the device alone; the KEY read pushes the oldest datum and the device drops it, and
blocks while there is none, nothing else changing; the EMIT write takes the top and the device receives it, blocks
while the device is not ready, and underflows without a cell. The flag cells are the spec's own choice (D20; log
entry 19), the wait as a step that changes only that the instruction waits is its decision D31 (log entry 27), and
that a datum whose push overflows stays in the device is the model's choice (log entry 27). The three zones are the
spec's decision D23, taken at the depths after the return action (log entries 3 and 31). -/
def Obligations.KeyAndEmitRegisters : Prop :=
  (∀ (r : Bool) (s : State), s.cfg.extKey = true → s.canReturn r →
    s.endsUnlessFull (s.ps.length + 1) (s.rsdAfter r) 0xFFFD#16 (exec (.frrKeyQ r) s)
      (s.after r ((if s.keyQueue = [] then 0x0000#16 else 0xFFFF#16) :: s.ps)) ∧
    s.endsUnlessFull (s.ps.length + 1) (s.rsdAfter r) 0xFFFD#16 (exec (.frrEmitQ r) s)
      (s.after r ((if s.outReady then 0xFFFF#16 else 0x0000#16) :: s.ps)) ∧
    (s.keyQueue = [] → exec (.frrKeyEmit r) s = .next { s with waiting := .blocked }) ∧
    (∀ (v : Cell) (later : List Cell), s.keyQueue = v :: later →
      s.endsUnlessFull (s.ps.length + 1) (s.rsdAfter r) 0xFFFD#16 (exec (.frrKeyEmit r) s)
        { s.after r (v :: s.ps) with keyQueue := later })) ∧
  (∀ (r : Bool) (s : State) (v : Cell) (rest : List Cell), s.cfg.extKey = true → s.canReturn r →
    s.ps = v :: rest →
    (s.outReady = true →
      exec (.frwKeyEmit r) s = .next { s.after r rest with emitted := s.emitted ++ [v] }) ∧
    (s.outReady = false → exec (.frwKeyEmit r) s = .next { s with waiting := .blocked })) ∧
  (∀ (r : Bool) (s : State), s.cfg.extKey = true → s.ps = [] →
    exec (.frwKeyEmit r) s = .next (s.raise .psUnderflow))

/-- An access to a register that is not there raises undefined word and takes nothing (R256). FRW and FRR of the
addresses 0x07 to 0xFF always, and both accesses to PC without EXT_PC, to IEN without EXT_IRQ, and to KEY?, EMIT?
and KEY/EMIT without EXT_KEY: the entry of the undefined word exception, before any other check. -/
def Obligations.UnimplementedRegistersRaiseUndefinedWord : Prop :=
  (∀ (r : Bool) (fadr : BitVec 8) (s : State), 0x06#8 < fadr →
    exec (.frw r fadr) s = .next (s.raise .undefinedWord) ∧
    exec (.frr r fadr) s = .next (s.raise .undefinedWord)) ∧
  (∀ (r : Bool) (s : State), s.cfg.extPc = false → ∀ i ∈ [Instr.frrPc r, .frwPc r],
    exec i s = .next (s.raise .undefinedWord)) ∧
  (∀ (r : Bool) (s : State), s.cfg.extIrq = false → ∀ i ∈ [Instr.frrIen r, .frwIen r],
    exec i s = .next (s.raise .undefinedWord)) ∧
  (∀ (r : Bool) (s : State), s.cfg.extKey = false →
    ∀ i ∈ [Instr.frrKeyQ r, .frwKeyQ r, .frrEmitQ r, .frwEmitQ r, .frrKeyEmit r, .frwKeyEmit r],
    exec i s = .next (s.raise .undefinedWord))

/-- A write to PC, KEY? or EMIT? is refused where the register is present (47_function_register.md R248;
47_function_register.md R255). With EXT_PC the PC write, and with EXT_KEY the KEY? and EMIT? writes, answer the
refusal readOnlyRegister in every state. Refusing is the spec's own choice (D19; log entry 26). -/
def Obligations.ReadOnlyRegisterWritesHaveNoMeaning : Prop :=
  (∀ (r : Bool) (s : State), s.cfg.extPc = true → exec (.frwPc r) s = .refused .readOnlyRegister) ∧
  (∀ (r : Bool) (s : State), s.cfg.extKey = true →
    exec (.frwKeyQ r) s = .refused .readOnlyRegister ∧
    exec (.frwEmitQ r) s = .refused .readOnlyRegister)

/-- No instruction but the IEN write changes the interrupt enable flag, not even by raising an exception (10_state.md
R42; 60_exceptions.md R302; 95_test_vectors.md section 4; 60_exceptions.md R284). For every instruction other than
FRW 0x03 and every state: if exec answers a next state, the enable flag is as before. (Interrupt entry and reset,
which are no instructions, change it.) That an exception's entry leaves it is the spec's own decision D40, log entry
28. -/
def Obligations.NoInstructionButTheIenWriteChangesIen : Prop :=
  ∀ (i : Instr) (s t : State), (∀ r : Bool, i ≠ .frwIen r) → exec i s = .next t → t.ien = s.ien

/-- Memory is unchanged but for the two bytes of the word a store goes to (20_memory.md R66; 20_memory.md R69;
46_memory_access.md R230). For every instruction that answers a next state, exceptions included: if it is not STI or
ST, every byte reads as before; for STI every byte outside the two of the word whose address is the top of the
parameter stack, for ST every byte outside the two of the word at directAddress of m8, and for either every byte if
the operands are missing. The address of ST is the window's formula, the spec's own choice (D3; log entry 6). -/
def Obligations.MemoryChangesOnlyWhereAStoreGoes : Prop :=
  ∀ (i : Instr) (s t : State), exec i s = .next t →
    (storing i = false → t.mem = s.mem ∧ ∀ (k : Access) (n : Nat), t.readByte k n = s.readByte k n) ∧
    (∀ r : Bool, i = .sti r →
      (∀ (a : Cell), s.ps.head? = some a → ∀ (k : Access) (n : Nat), n ≠ 2 * a.toNat →
        n ≠ 2 * a.toNat + 1 → t.readByte k n = s.readByte k n) ∧
      (s.ps.length < 2 → t.mem = s.mem)) ∧
    (∀ (r : Bool) (m8 : BitVec 8), i = .st r m8 →
      (∀ (a : Cell), a = directAddress s.cfg m8 → ∀ (k : Access) (n : Nat), n ≠ 2 * a.toNat →
        n ≠ 2 * a.toNat + 1 → t.readByte k n = s.readByte k n) ∧
      (s.ps = [] → t.mem = s.mem))

/-- No instruction changes the parameters, the environment's lines, the instruction register or another device's data
(10_state.md R20; 10_state.md R46; 10_state.md R48; 47_function_register.md R253; 47_function_register.md R254;
20_memory.md R74). For every instruction that answers a next state, exceptions included: the parameters, the
instruction register, the interrupt line and acknowledge, the bus's answers, the output device's readiness, the
samples to come and the counter of the free values are as before; the input data unless it is the KEY read; the
output data unless it is the EMIT write; and it waits only in one of those two or in a memory access, after a retry
only in the latter. -/
def Obligations.InstructionsKeepWhatIsNotTheirs : Prop :=
  ∀ (i : Instr) (s t : State), exec i s = .next t →
    t.cfg = s.cfg ∧ t.ir = s.ir ∧ t.irqReq = s.irqReq ∧ t.irqAck = s.irqAck ∧
    t.fetchAnswer = s.fetchAnswer ∧ t.dataAnswer = s.dataAnswer ∧
    t.outReady = s.outReady ∧ t.env = s.env ∧ t.draw = s.draw ∧
    ((∀ r : Bool, i ≠ .frrKeyEmit r) → t.keyQueue = s.keyQueue) ∧
    ((∀ r : Bool, i ≠ .frwKeyEmit r) → t.emitted = s.emitted) ∧
    (mayWait i = false → t.waiting = s.waiting) ∧
    (accessesMemory i = false → t.waiting = s.waiting ∨ t.waiting = .blocked)

/-- No instruction other than a call, a return, a return stack word or its clear changes the return stack, but by
overflow (10_state.md R22; 60_exceptions.md R284; 20_memory.md R69). For a literal, an ALU instruction, a stack word
or pattern that does not use the return stack, a memory access, or a function register access other than the RSD
write, without the return bit, and for a jump or branch: a next state has the return stack as before, or is the
entry of a parameter stack overflow, with both stacks cleared. (Interrupt entry pushes on it and reset clears it:
neither is an instruction.) -/
def Obligations.NoOtherInstructionChangesTheReturnStack : Prop :=
  ∀ (i : Instr) (s t : State), changesReturnStack i = false → exec i s = .next t →
    t.rs = s.rs ∨ (t.rs = [] ∧ t.ps = [0xFFFD#16] ∧ t.pc = 0x0000#16)

/-- Every step from a state that satisfies the invariant leads to one that does (10_state.md R24; 60_exceptions.md R287;
20_memory.md R60; 70_reset_and_hazards.md R330; 10_state.md R46; 20_memory.md R74; 10_state.md R47). If the
parameters are legal, memory is in its canonical form, the hidden counters count cells that are there, the two
stacks together fit the machine, words fetched ahead lie only at pc and pc + 1, and while an instruction waits also
at pc + 2, an instruction that waits is a KEY, EMIT or memory access, and one that waits after a retry a memory
access, then all of this holds after a step, whatever the environment does (instruction, exception, interrupt,
reset, fetch fault or wait), and the parameters are as before. How the counters move is log entry 30, when the
stacks overflow log entry 3. -/
def Obligations.EveryStepKeepsTheInvariant : Prop :=
  ∀ s t : State, s.Inv → step s = .next t → t.Inv ∧ t.cfg = s.cfg

/-- The state after reset satisfies the invariant that every step keeps (10_state.md R50; 00_scope.md R5). State.reset
has legal parameters, memory in its canonical form, counters that count cells that are there, stacks that fit the
machine, words fetched ahead only where they may lie, and no instruction that waits without being one that may. The
parameters, the empty memory and that nothing is fetched ahead in State.reset are the model's own choices: log
entries 1, 3, 7 and 9. -/
def Obligations.ResetStateSatisfiesTheInvariant : Prop :=
  State.reset.Inv

/-- After withFetchWord the next step runs the word placed (10_state.md R25; 10_state.md R47; 20_memory.md R65). For
every state and every 16-bit word: the step after placing the word is exec of the instruction the word decodes to,
in a state with the word in the instruction register and the same pc, stacks and enable flag. (Placing stands for a
load from outside, log entry 36.) -/
def Obligations.PlacedWordIsTheNextInstruction : Prop :=
  ∀ (s : State) (w : Cell), ∃ t : State, step (s.withFetchWord 16 w.toNat) = exec (decodeWord w) t ∧
    t.ir = w ∧ t.pc = s.pc ∧ t.ps = s.ps ∧ t.rs = s.rs ∧ t.ien = s.ien ∧ t.waiting = .no
end

