-- ==== Sys2Proof/Laws/Decode.lean ====
section
/-!
SUPPORT. Laws of the bit fields of a word and of the fields of a transition pattern.
-/

set_option Elab.async false

namespace Sys2Proof

/-- A bit of the word of a number. -/
theorem wordBit_ofNat (n i : Nat) (h : n < 65536) : wordBit (BitVec.ofNat 16 n) i = (n / 2 ^ i % 2 == 1) := by
  simp [wordBit, Nat.mod_eq_of_lt h]

/-- A field of the word of a number. -/
theorem wordField_ofNat (n lo len : Nat) (h : n < 65536) :
    wordField (BitVec.ofNat 16 n) lo len = BitVec.ofNat len (n / 2 ^ lo) := by
  simp [wordField, Nat.mod_eq_of_lt h]

/-- The number of a field of a word. -/
theorem wordField_toNat (w : Cell) (lo len : Nat) :
    (wordField w lo len).toNat = w.toNat / 2 ^ lo % 2 ^ len := by
  simp [wordField]

/-- A transfer code is two bits. -/
theorem encodeUst_lt (u : Ust) : encodeUst u < 4 := by cases u <;> decide

/-- A transfer is read back from its code. -/
theorem decodeUst_encodeUst (u : Ust) : decodeUst (encodeUst u) = u := by cases u <;> rfl

/-- A code of two bits is written back from its transfer. -/
theorem encodeUst_decodeUst {n : Nat} (h : n < 4) : encodeUst (decodeUst n) = n := by
  match n, h with
  | 0, _ => rfl
  | 1, _ => rfl
  | 2, _ => rfl
  | 3, _ => rfl

/-- The ten bits of a pattern are written back from its fields. -/
theorem encodePattern_decodePattern (w : Cell) : encodePattern (decodePattern w) = w.toNat % 1024 := by
  have f (lo : Nat) : encodeUst (decodeUst (wordField w lo 2).toNat) = w.toNat / 2 ^ lo % 4 := by
    rw [encodeUst_decodeUst (by rw [wordField_toNat]; omega), wordField_toNat]
    rfl
  have b (i : Nat) : w.toNat / 2 ^ i % 2 = if wordBit w i then 1 else 0 := by
    rcases Nat.mod_two_eq_zero_or_one (w.toNat / 2 ^ i) with h | h <;> simp [wordBit, h]
  have u3 : encodeUst (decodePattern w).u3 = w.toNat / 2 ^ 7 % 4 := f 7
  have u2 : encodeUst (decodePattern w).u2 = w.toNat / 2 ^ 5 % 4 := f 5
  have u1 : encodeUst (decodePattern w).u1 = w.toNat / 2 ^ 3 % 4 := f 3
  have u0 : encodeUst (decodePattern w).u0 = w.toNat / 2 ^ 1 % 4 := f 1
  have ips : w.toNat / 2 ^ 9 % 2 = if (decodePattern w).ips then 1 else 0 := b 9
  have irs : w.toNat / 2 ^ 0 % 2 = if (decodePattern w).irs then 1 else 0 := b 0
  simp only [encodePattern, u3, u2, u1, u0]
  generalize (decodePattern w).ips = x at ips ⊢
  generalize (decodePattern w).irs = y at irs ⊢
  cases x <;> cases y <;> simp only [if_true, if_false, Bool.false_eq_true] at ips irs ⊢ <;> omega

/-- The fields of a pattern are read back from its ten bits, whatever stands above them. -/
theorem decodePattern_encodePattern (p : StkPattern) (c : Nat) (hc : 1024 * c + encodePattern p < 65536) :
    decodePattern (BitVec.ofNat 16 (1024 * c + encodePattern p)) = p := by
  have u3 := encodeUst_lt p.u3
  have u2 := encodeUst_lt p.u2
  have u1 := encodeUst_lt p.u1
  have u0 := encodeUst_lt p.u0
  have hips : (1024 * c + encodePattern p) / 2 ^ 9 % 2 = if p.ips then 1 else 0 := by
    simp only [encodePattern]; split <;> split <;> omega
  have hirs : (1024 * c + encodePattern p) / 2 ^ 0 % 2 = if p.irs then 1 else 0 := by
    simp only [encodePattern]; split <;> split <;> omega
  have h3 : (1024 * c + encodePattern p) / 2 ^ 7 % 4 = encodeUst p.u3 := by
    simp only [encodePattern]; split <;> split <;> omega
  have h2 : (1024 * c + encodePattern p) / 2 ^ 5 % 4 = encodeUst p.u2 := by
    simp only [encodePattern]; split <;> split <;> omega
  have h1 : (1024 * c + encodePattern p) / 2 ^ 3 % 4 = encodeUst p.u1 := by
    simp only [encodePattern]; split <;> split <;> omega
  have h0 : (1024 * c + encodePattern p) / 2 ^ 1 % 4 = encodeUst p.u0 := by
    simp only [encodePattern]; split <;> split <;> omega
  simp only [decodePattern, wordBit_ofNat _ _ hc, wordField_ofNat _ _ _ hc, BitVec.toNat_ofNat, hips, hirs,
    show 2 ^ 2 = 4 from rfl, h3, h2, h1, h0, decodeUst_encodeUst]
  cases p with
  | mk ips _ _ _ _ irs => cases ips <;> cases irs <;> rfl

/-- Different patterns have different bits. -/
theorem encodePattern_injective {p q : StkPattern} (h : encodePattern p = encodePattern q) : p = q := by
  have lt (p : StkPattern) : encodePattern p < 1024 := by
    have u3 := encodeUst_lt p.u3
    have u2 := encodeUst_lt p.u2
    have u1 := encodeUst_lt p.u1
    have u0 := encodeUst_lt p.u0
    simp only [encodePattern]
    split <;> split <;> omega
  have hp := decodePattern_encodePattern p 0 (by have := lt p; omega)
  have hq := decodePattern_encodePattern q 0 (by have := lt q; omega)
  rw [← hp, h, hq]

end Sys2Proof
end

