-- ==== Sys2Proof/Laws/State.lean ====
section
/-!
SUPPORT. What each field of the state is after each update of the shared operations, one lemma per field and update,
so that no proof unfolds a record update.
-/

set_option Elab.async false

namespace Sys2Proof.Machine

/-! ## `withStacks` -/

@[simp] theorem State.withStacks_cfg (s : State) (ps' rs' : List Cell) :
    (s.withStacks ps' rs').cfg = s.cfg := rfl

@[simp] theorem State.withStacks_pc (s : State) (ps' rs' : List Cell) :
    (s.withStacks ps' rs').pc = s.pc := rfl

@[simp] theorem State.withStacks_ps (s : State) (ps' rs' : List Cell) :
    (s.withStacks ps' rs').ps = ps' := rfl

@[simp] theorem State.withStacks_rs (s : State) (ps' rs' : List Cell) :
    (s.withStacks ps' rs').rs = rs' := rfl

@[simp] theorem State.withStacks_ipsN (s : State) (ps' rs' : List Cell) :
    (s.withStacks ps' rs').ipsN = refill s.cfg.ipsEff s.ipsN (psDeep s.ps.length) (psDeep ps'.length) := rfl

@[simp] theorem State.withStacks_irsN (s : State) (ps' rs' : List Cell) :
    (s.withStacks ps' rs').irsN = refill s.cfg.irsEff s.irsN (rsDeep s.rs.length) (rsDeep rs'.length) := rfl

@[simp] theorem State.withStacks_ien (s : State) (ps' rs' : List Cell) :
    (s.withStacks ps' rs').ien = s.ien := rfl

@[simp] theorem State.withStacks_ir (s : State) (ps' rs' : List Cell) :
    (s.withStacks ps' rs').ir = s.ir := rfl

@[simp] theorem State.withStacks_stash (s : State) (ps' rs' : List Cell) :
    (s.withStacks ps' rs').stash = s.stash := rfl

@[simp] theorem State.withStacks_waiting (s : State) (ps' rs' : List Cell) :
    (s.withStacks ps' rs').waiting = s.waiting := rfl

@[simp] theorem State.withStacks_cof (s : State) (ps' rs' : List Cell) :
    (s.withStacks ps' rs').cof = s.cof := rfl

@[simp] theorem State.withStacks_mem (s : State) (ps' rs' : List Cell) :
    (s.withStacks ps' rs').mem = s.mem := rfl

@[simp] theorem State.withStacks_irqReq (s : State) (ps' rs' : List Cell) :
    (s.withStacks ps' rs').irqReq = s.irqReq := rfl

@[simp] theorem State.withStacks_irqAck (s : State) (ps' rs' : List Cell) :
    (s.withStacks ps' rs').irqAck = s.irqAck := rfl

@[simp] theorem State.withStacks_fetchAnswer (s : State) (ps' rs' : List Cell) :
    (s.withStacks ps' rs').fetchAnswer = s.fetchAnswer := rfl

@[simp] theorem State.withStacks_dataAnswer (s : State) (ps' rs' : List Cell) :
    (s.withStacks ps' rs').dataAnswer = s.dataAnswer := rfl

@[simp] theorem State.withStacks_keyQueue (s : State) (ps' rs' : List Cell) :
    (s.withStacks ps' rs').keyQueue = s.keyQueue := rfl

@[simp] theorem State.withStacks_outReady (s : State) (ps' rs' : List Cell) :
    (s.withStacks ps' rs').outReady = s.outReady := rfl

@[simp] theorem State.withStacks_emitted (s : State) (ps' rs' : List Cell) :
    (s.withStacks ps' rs').emitted = s.emitted := rfl

@[simp] theorem State.withStacks_env (s : State) (ps' rs' : List Cell) :
    (s.withStacks ps' rs').env = s.env := rfl

@[simp] theorem State.withStacks_draw (s : State) (ps' rs' : List Cell) :
    (s.withStacks ps' rs').draw = s.draw := rfl

/-! ## `advance` -/

@[simp] theorem State.advance_cfg (s : State) :
    (s.advance).cfg = s.cfg := rfl

@[simp] theorem State.advance_pc (s : State) :
    (s.advance).pc = s.pc + 1#16 := rfl

@[simp] theorem State.advance_ps (s : State) :
    (s.advance).ps = s.ps := rfl

@[simp] theorem State.advance_rs (s : State) :
    (s.advance).rs = s.rs := rfl

@[simp] theorem State.advance_ipsN (s : State) :
    (s.advance).ipsN = s.ipsN := rfl

@[simp] theorem State.advance_irsN (s : State) :
    (s.advance).irsN = s.irsN := rfl

@[simp] theorem State.advance_ien (s : State) :
    (s.advance).ien = s.ien := rfl

@[simp] theorem State.advance_ir (s : State) :
    (s.advance).ir = s.ir := rfl

@[simp] theorem State.advance_stash (s : State) :
    (s.advance).stash = s.stash.filter fun c => c.1 ≠ s.pc := rfl

@[simp] theorem State.advance_waiting (s : State) :
    (s.advance).waiting = s.waiting := rfl

@[simp] theorem State.advance_cof (s : State) :
    (s.advance).cof = none := rfl

@[simp] theorem State.advance_mem (s : State) :
    (s.advance).mem = s.mem := rfl

@[simp] theorem State.advance_irqReq (s : State) :
    (s.advance).irqReq = s.irqReq := rfl

@[simp] theorem State.advance_irqAck (s : State) :
    (s.advance).irqAck = s.irqAck := rfl

@[simp] theorem State.advance_fetchAnswer (s : State) :
    (s.advance).fetchAnswer = s.fetchAnswer := rfl

@[simp] theorem State.advance_dataAnswer (s : State) :
    (s.advance).dataAnswer = s.dataAnswer := rfl

@[simp] theorem State.advance_keyQueue (s : State) :
    (s.advance).keyQueue = s.keyQueue := rfl

@[simp] theorem State.advance_outReady (s : State) :
    (s.advance).outReady = s.outReady := rfl

@[simp] theorem State.advance_emitted (s : State) :
    (s.advance).emitted = s.emitted := rfl

@[simp] theorem State.advance_env (s : State) :
    (s.advance).env = s.env := rfl

@[simp] theorem State.advance_draw (s : State) :
    (s.advance).draw = s.draw := rfl

/-! ## `redirect` -/

@[simp] theorem State.redirect_cfg (s : State) (t : Cell) (tag : Option Cof) :
    (s.redirect t tag).cfg = s.cfg := rfl

@[simp] theorem State.redirect_pc (s : State) (t : Cell) (tag : Option Cof) :
    (s.redirect t tag).pc = t := rfl

@[simp] theorem State.redirect_ps (s : State) (t : Cell) (tag : Option Cof) :
    (s.redirect t tag).ps = s.ps := rfl

@[simp] theorem State.redirect_rs (s : State) (t : Cell) (tag : Option Cof) :
    (s.redirect t tag).rs = s.rs := rfl

@[simp] theorem State.redirect_ipsN (s : State) (t : Cell) (tag : Option Cof) :
    (s.redirect t tag).ipsN = s.ipsN := rfl

@[simp] theorem State.redirect_irsN (s : State) (t : Cell) (tag : Option Cof) :
    (s.redirect t tag).irsN = s.irsN := rfl

@[simp] theorem State.redirect_ien (s : State) (t : Cell) (tag : Option Cof) :
    (s.redirect t tag).ien = s.ien := rfl

@[simp] theorem State.redirect_ir (s : State) (t : Cell) (tag : Option Cof) :
    (s.redirect t tag).ir = s.ir := rfl

@[simp] theorem State.redirect_stash (s : State) (t : Cell) (tag : Option Cof) :
    (s.redirect t tag).stash = [] := rfl

@[simp] theorem State.redirect_waiting (s : State) (t : Cell) (tag : Option Cof) :
    (s.redirect t tag).waiting = s.waiting := rfl

@[simp] theorem State.redirect_cof (s : State) (t : Cell) (tag : Option Cof) :
    (s.redirect t tag).cof = tag := rfl

@[simp] theorem State.redirect_mem (s : State) (t : Cell) (tag : Option Cof) :
    (s.redirect t tag).mem = s.mem := rfl

@[simp] theorem State.redirect_irqReq (s : State) (t : Cell) (tag : Option Cof) :
    (s.redirect t tag).irqReq = s.irqReq := rfl

@[simp] theorem State.redirect_irqAck (s : State) (t : Cell) (tag : Option Cof) :
    (s.redirect t tag).irqAck = s.irqAck := rfl

@[simp] theorem State.redirect_fetchAnswer (s : State) (t : Cell) (tag : Option Cof) :
    (s.redirect t tag).fetchAnswer = s.fetchAnswer := rfl

@[simp] theorem State.redirect_dataAnswer (s : State) (t : Cell) (tag : Option Cof) :
    (s.redirect t tag).dataAnswer = s.dataAnswer := rfl

@[simp] theorem State.redirect_keyQueue (s : State) (t : Cell) (tag : Option Cof) :
    (s.redirect t tag).keyQueue = s.keyQueue := rfl

@[simp] theorem State.redirect_outReady (s : State) (t : Cell) (tag : Option Cof) :
    (s.redirect t tag).outReady = s.outReady := rfl

@[simp] theorem State.redirect_emitted (s : State) (t : Cell) (tag : Option Cof) :
    (s.redirect t tag).emitted = s.emitted := rfl

@[simp] theorem State.redirect_env (s : State) (t : Cell) (tag : Option Cof) :
    (s.redirect t tag).env = s.env := rfl

@[simp] theorem State.redirect_draw (s : State) (t : Cell) (tag : Option Cof) :
    (s.redirect t tag).draw = s.draw := rfl

/-! ## `putWord` -/

@[simp] theorem State.putWord_cfg (s : State) (a v : Cell) :
    (s.putWord a v).cfg = s.cfg := rfl

@[simp] theorem State.putWord_pc (s : State) (a v : Cell) :
    (s.putWord a v).pc = s.pc := rfl

@[simp] theorem State.putWord_ps (s : State) (a v : Cell) :
    (s.putWord a v).ps = s.ps := rfl

@[simp] theorem State.putWord_rs (s : State) (a v : Cell) :
    (s.putWord a v).rs = s.rs := rfl

@[simp] theorem State.putWord_ipsN (s : State) (a v : Cell) :
    (s.putWord a v).ipsN = s.ipsN := rfl

@[simp] theorem State.putWord_irsN (s : State) (a v : Cell) :
    (s.putWord a v).irsN = s.irsN := rfl

@[simp] theorem State.putWord_ien (s : State) (a v : Cell) :
    (s.putWord a v).ien = s.ien := rfl

@[simp] theorem State.putWord_ir (s : State) (a v : Cell) :
    (s.putWord a v).ir = s.ir := rfl

@[simp] theorem State.putWord_stash (s : State) (a v : Cell) :
    (s.putWord a v).stash = s.stash := rfl

@[simp] theorem State.putWord_waiting (s : State) (a v : Cell) :
    (s.putWord a v).waiting = s.waiting := rfl

@[simp] theorem State.putWord_cof (s : State) (a v : Cell) :
    (s.putWord a v).cof = s.cof := rfl

@[simp] theorem State.putWord_mem (s : State) (a v : Cell) :
    (s.putWord a v).mem = if s.cfg.isDevice a then s.mem else Memory.putWord s.cfg.byteOrder s.mem a v := rfl

@[simp] theorem State.putWord_irqReq (s : State) (a v : Cell) :
    (s.putWord a v).irqReq = s.irqReq := rfl

@[simp] theorem State.putWord_irqAck (s : State) (a v : Cell) :
    (s.putWord a v).irqAck = s.irqAck := rfl

@[simp] theorem State.putWord_fetchAnswer (s : State) (a v : Cell) :
    (s.putWord a v).fetchAnswer = s.fetchAnswer := rfl

@[simp] theorem State.putWord_dataAnswer (s : State) (a v : Cell) :
    (s.putWord a v).dataAnswer = s.dataAnswer := rfl

@[simp] theorem State.putWord_keyQueue (s : State) (a v : Cell) :
    (s.putWord a v).keyQueue = s.keyQueue := rfl

@[simp] theorem State.putWord_outReady (s : State) (a v : Cell) :
    (s.putWord a v).outReady = s.outReady := rfl

@[simp] theorem State.putWord_emitted (s : State) (a v : Cell) :
    (s.putWord a v).emitted = s.emitted := rfl

@[simp] theorem State.putWord_env (s : State) (a v : Cell) :
    (s.putWord a v).env = s.env := rfl

@[simp] theorem State.putWord_draw (s : State) (a v : Cell) :
    (s.putWord a v).draw = s.draw := rfl

/-! ## `keepFetched` -/

@[simp] theorem State.keepFetched_cfg (s : State) (a : Cell) :
    (s.keepFetched a).cfg = s.cfg := rfl

@[simp] theorem State.keepFetched_pc (s : State) (a : Cell) :
    (s.keepFetched a).pc = s.pc := rfl

@[simp] theorem State.keepFetched_ps (s : State) (a : Cell) :
    (s.keepFetched a).ps = s.ps := rfl

@[simp] theorem State.keepFetched_rs (s : State) (a : Cell) :
    (s.keepFetched a).rs = s.rs := rfl

@[simp] theorem State.keepFetched_ipsN (s : State) (a : Cell) :
    (s.keepFetched a).ipsN = s.ipsN := rfl

@[simp] theorem State.keepFetched_irsN (s : State) (a : Cell) :
    (s.keepFetched a).irsN = s.irsN := rfl

@[simp] theorem State.keepFetched_ien (s : State) (a : Cell) :
    (s.keepFetched a).ien = s.ien := rfl

@[simp] theorem State.keepFetched_ir (s : State) (a : Cell) :
    (s.keepFetched a).ir = s.ir := rfl

@[simp] theorem State.keepFetched_stash (s : State) (a : Cell) :
    (s.keepFetched a).stash = (a, s.readWord .fetch a) :: s.stash := rfl

@[simp] theorem State.keepFetched_waiting (s : State) (a : Cell) :
    (s.keepFetched a).waiting = s.waiting := rfl

@[simp] theorem State.keepFetched_cof (s : State) (a : Cell) :
    (s.keepFetched a).cof = s.cof := rfl

@[simp] theorem State.keepFetched_mem (s : State) (a : Cell) :
    (s.keepFetched a).mem = s.mem := rfl

@[simp] theorem State.keepFetched_irqReq (s : State) (a : Cell) :
    (s.keepFetched a).irqReq = s.irqReq := rfl

@[simp] theorem State.keepFetched_irqAck (s : State) (a : Cell) :
    (s.keepFetched a).irqAck = s.irqAck := rfl

@[simp] theorem State.keepFetched_fetchAnswer (s : State) (a : Cell) :
    (s.keepFetched a).fetchAnswer = s.fetchAnswer := rfl

@[simp] theorem State.keepFetched_dataAnswer (s : State) (a : Cell) :
    (s.keepFetched a).dataAnswer = s.dataAnswer := rfl

@[simp] theorem State.keepFetched_keyQueue (s : State) (a : Cell) :
    (s.keepFetched a).keyQueue = s.keyQueue := rfl

@[simp] theorem State.keepFetched_outReady (s : State) (a : Cell) :
    (s.keepFetched a).outReady = s.outReady := rfl

@[simp] theorem State.keepFetched_emitted (s : State) (a : Cell) :
    (s.keepFetched a).emitted = s.emitted := rfl

@[simp] theorem State.keepFetched_env (s : State) (a : Cell) :
    (s.keepFetched a).env = s.env := rfl

@[simp] theorem State.keepFetched_draw (s : State) (a : Cell) :
    (s.keepFetched a).draw = s.draw := rfl

/-! ## `reboot` -/

@[simp] theorem State.reboot_cfg (s : State) :
    (s.reboot).cfg = s.cfg := rfl

@[simp] theorem State.reboot_pc (s : State) :
    (s.reboot).pc = 0x0000#16 := rfl

@[simp] theorem State.reboot_ps (s : State) :
    (s.reboot).ps = [0x0000#16] := rfl

@[simp] theorem State.reboot_rs (s : State) :
    (s.reboot).rs = [] := rfl

@[simp] theorem State.reboot_ipsN (s : State) :
    (s.reboot).ipsN = 0 := rfl

@[simp] theorem State.reboot_irsN (s : State) :
    (s.reboot).irsN = 0 := rfl

@[simp] theorem State.reboot_ien (s : State) :
    (s.reboot).ien = s.cfg.ienReset := rfl

@[simp] theorem State.reboot_ir (s : State) :
    (s.reboot).ir = 0x0000#16 := rfl

@[simp] theorem State.reboot_stash (s : State) :
    (s.reboot).stash = [] := rfl

@[simp] theorem State.reboot_waiting (s : State) :
    (s.reboot).waiting = .no := rfl

@[simp] theorem State.reboot_cof (s : State) :
    (s.reboot).cof = none := rfl

@[simp] theorem State.reboot_mem (s : State) :
    (s.reboot).mem = s.mem := rfl

@[simp] theorem State.reboot_irqReq (s : State) :
    (s.reboot).irqReq = s.irqReq := rfl

@[simp] theorem State.reboot_irqAck (s : State) :
    (s.reboot).irqAck = s.irqAck := rfl

@[simp] theorem State.reboot_fetchAnswer (s : State) :
    (s.reboot).fetchAnswer = s.fetchAnswer := rfl

@[simp] theorem State.reboot_dataAnswer (s : State) :
    (s.reboot).dataAnswer = s.dataAnswer := rfl

@[simp] theorem State.reboot_keyQueue (s : State) :
    (s.reboot).keyQueue = s.keyQueue := rfl

@[simp] theorem State.reboot_outReady (s : State) :
    (s.reboot).outReady = s.outReady := rfl

@[simp] theorem State.reboot_emitted (s : State) :
    (s.reboot).emitted = s.emitted := rfl

@[simp] theorem State.reboot_env (s : State) :
    (s.reboot).env = s.env := rfl

@[simp] theorem State.reboot_draw (s : State) :
    (s.reboot).draw = s.draw := rfl

/-! ## `fetch` -/

@[simp] theorem State.fetch_cfg (s : State) :
    (s.fetch).cfg = s.cfg := rfl

@[simp] theorem State.fetch_pc (s : State) :
    (s.fetch).pc = s.pc := rfl

@[simp] theorem State.fetch_ps (s : State) :
    (s.fetch).ps = s.ps := rfl

@[simp] theorem State.fetch_rs (s : State) :
    (s.fetch).rs = s.rs := rfl

@[simp] theorem State.fetch_ipsN (s : State) :
    (s.fetch).ipsN = s.ipsN := rfl

@[simp] theorem State.fetch_irsN (s : State) :
    (s.fetch).irsN = s.irsN := rfl

@[simp] theorem State.fetch_ien (s : State) :
    (s.fetch).ien = s.ien := rfl

@[simp] theorem State.fetch_ir (s : State) :
    (s.fetch).ir = s.fetchWord := rfl

@[simp] theorem State.fetch_stash (s : State) :
    (s.fetch).stash = s.stash := rfl

@[simp] theorem State.fetch_waiting (s : State) :
    (s.fetch).waiting = s.waiting := rfl

@[simp] theorem State.fetch_cof (s : State) :
    (s.fetch).cof = s.cof := rfl

@[simp] theorem State.fetch_mem (s : State) :
    (s.fetch).mem = s.mem := rfl

@[simp] theorem State.fetch_irqReq (s : State) :
    (s.fetch).irqReq = s.irqReq := rfl

@[simp] theorem State.fetch_irqAck (s : State) :
    (s.fetch).irqAck = s.irqAck := rfl

@[simp] theorem State.fetch_fetchAnswer (s : State) :
    (s.fetch).fetchAnswer = s.fetchAnswer := rfl

@[simp] theorem State.fetch_dataAnswer (s : State) :
    (s.fetch).dataAnswer = s.dataAnswer := rfl

@[simp] theorem State.fetch_keyQueue (s : State) :
    (s.fetch).keyQueue = s.keyQueue := rfl

@[simp] theorem State.fetch_outReady (s : State) :
    (s.fetch).outReady = s.outReady := rfl

@[simp] theorem State.fetch_emitted (s : State) :
    (s.fetch).emitted = s.emitted := rfl

@[simp] theorem State.fetch_env (s : State) :
    (s.fetch).env = s.env := rfl

@[simp] theorem State.fetch_draw (s : State) :
    (s.fetch).draw = s.draw := rfl

end Sys2Proof.Machine
end

