-- ==== Sys2Proof/Laws/Memory.lean ====
section
/-!
SUPPORT. Laws of main memory: a read after a write, the two bytes of a word, and the canonical form that every memory
operation keeps.
-/

set_option Elab.async false

namespace Sys2Proof.Machine

/-! ## Bytes -/

/-- A byte reads back after it is written, and no other byte changes. -/
theorem Memory.byte?_put (m : Memory) (a : Nat) (v : Byte) (n : Nat) :
    Memory.byte? (Memory.put m a v) n = if n = a then some v else Memory.byte? m n := by
  induction m with
  | nil => simp [Memory.put, Memory.byte?]
  | cons c m ih =>
    obtain ⟨b, w⟩ := c
    simp only [Memory.put]
    split
    · simp [Memory.byte?]
    · split
      · subst_vars
        simp only [Memory.byte?]
        split <;> simp_all
      · simp only [Memory.byte?, ih]
        by_cases hn : n = b <;> by_cases ha : n = a <;> simp_all

/-- The entries of a written memory are those of the memory and the one written. -/
theorem Memory.mem_put {m : Memory} {a : Nat} {v : Byte} {c : Host.Cell} (h : c ∈ Memory.put m a v) :
    c = (a, v) ∨ c ∈ m := by
  induction m with
  | nil => simpa [Memory.put] using h
  | cons d m ih =>
    obtain ⟨b, w⟩ := d
    simp only [Memory.put] at h
    split at h
    · simpa using h
    · split at h
      · simp only [List.mem_cons] at h ⊢
        tauto
      · simp only [List.mem_cons] at h ⊢
        rcases h with h | h
        · exact .inr (.inl h)
        · exact (ih h).imp_right .inr

/-- Writing one byte of the address space keeps the canonical form. -/
theorem Memory.wf_put {m : Memory} {a : Nat} (v : Byte) (h : m.wf) (ha : a < memoryBytes) :
    (Memory.put m a v).wf := by
  refine ⟨?_, fun c hc => (Memory.mem_put hc).elim (fun e => by simpa [e] using ha) (h.2 c)⟩
  have hs := h.1
  clear h ha
  induction m with
  | nil => simp [Memory.put]
  | cons d m ih =>
    obtain ⟨b, w⟩ := d
    obtain ⟨hb, hm⟩ := List.pairwise_cons.1 hs
    simp only [Memory.put]
    split
    · rename_i hab
      refine List.pairwise_cons.2 ⟨fun c hc => ?_, hs⟩
      rcases List.mem_cons.1 hc with rfl | hc
      · exact hab
      · exact Nat.lt_trans hab (hb c hc)
    · split
      · subst_vars
        exact List.pairwise_cons.2 ⟨hb, hm⟩
      · refine List.pairwise_cons.2 ⟨fun c hc => ?_, ih hm⟩
        rcases Memory.mem_put hc with rfl | hc
        · simp only
          omega
        · exact hb c hc

/-! ## Words -/

/-- Writing a word keeps the canonical form. -/
theorem Memory.wf_putWord {m : Memory} (o : ByteOrder) (a v : Cell) (h : m.wf) :
    (Memory.putWord o m a v).wf := by
  have := a.isLt
  exact Memory.wf_put _ (Memory.wf_put _ h (by simp only [memoryBytes]; omega))
    (by simp only [memoryBytes]; omega)

/-- The bytes of a written word, and of every other address. -/
theorem Memory.byte?_putWord (o : ByteOrder) (m : Memory) (a v : Cell) (n : Nat) :
    Memory.byte? (Memory.putWord o m a v) n =
      if n = 2 * a.toNat + 1 then some (secondByte o v)
      else if n = 2 * a.toNat then some (firstByte o v) else Memory.byte? m n := by
  simp [Memory.putWord, Memory.byte?_put]

/-- A word is its two bytes put together again. -/
theorem bytesWord_bytes (o : ByteOrder) (v : Cell) : bytesWord o (firstByte o v) (secondByte o v) = v := by
  have h := v.isLt
  cases o <;> apply BitVec.eq_of_toNat_eq <;>
    simp [bytesWord, firstByte, secondByte, lowByte, highByte, wordField] <;> omega

/-- A byte outside the two of the word written reads as before. -/
theorem State.readByte_putWord_of_ne (s : State) (a v : Cell) (k : Access) (n : Nat)
    (h0 : n ≠ 2 * a.toNat) (h1 : n ≠ 2 * a.toNat + 1) :
    (s.putWord a v).readByte k n = s.readByte k n := by
  by_cases hd : s.cfg.isDevice a = true <;> simp [State.readByte, hd, Memory.byte?_putWord, h0, h1]

/-- The memory after a word arrives is canonical if it was. -/
theorem State.wf_putWord {s : State} (a v : Cell) (h : s.mem.wf) : (s.putWord a v).mem.wf := by
  simp only [State.putWord_mem]
  split
  · exact h
  · exact Memory.wf_putWord _ _ _ h

/-- The memory after reset is canonical. -/
theorem State.reset_mem_wf : State.reset.mem.wf := ⟨List.Pairwise.nil, by simp [State.reset]⟩

/-- Storing a word leaves the memory that putting it there leaves. -/
@[simp] theorem State.storeWord_mem (s : State) (a v : Cell) : (s.storeWord a v).mem = (s.putWord a v).mem := by
  unfold State.storeWord; split <;> rfl

/-- A write by another bus master leaves the memory that putting the word there leaves. -/
@[simp] theorem State.busWrite_mem (s : State) (a v : Cell) : (s.busWrite a v).mem = (s.putWord a v).mem := by
  unfold State.busWrite; split <;> rfl

end Sys2Proof.Machine
end

