-- ==== Sys2Proof/Laws/Ops.lean ====
section
/-!
SUPPORT. What each shared operation can do, said once: the provers cite these lemmas instead of unfolding the
operations.
-/

set_option Elab.async false

namespace Sys2Proof.Machine

/-! ## The hidden counters (R24) -/

/-- A stack without deep cells has none in the intermediate stack. -/
@[simp] theorem refill_none (room n d : Nat) : refill room n d 0 = 0 := by simp [refill]

/-- Passing through a depth between the old one and the new one makes no difference. -/
theorem refill_refill_self (room n d d' : Nat) : refill room (refill room n d d') d' d' = refill room n d d' := by
  unfold refill; split <;> simp_all

/-- Keeping the depth first and then shrinking is shrinking. -/
theorem refill_self_refill (room n d d' : Nat) (h : d' ≤ d) :
    refill room (refill room n d d) d d' = refill room n d d' := by
  unfold refill; split
  · rfl
  · split
    · simp
      omega
    · have : d ≠ 0 := by omega
      simp [this]

/-- The intermediate stack holds no more than it has room for, and no more than there are. -/
theorem refill_le (room n d d' : Nat) (h : n ≤ room) (hd : n ≤ d) :
    refill room n d d' ≤ room ∧ refill room n d d' ≤ d' := by
  unfold refill; split
  · simp_all
  · split
    · simp_all
    · constructor <;> omega

/-! ## Overflow (R287) -/

/-- Deep cells that fit the lower stack do not overflow it. -/
theorem State.deepOverflows_eq_false {s : State} {p r : Nat} (h : deepCells p r ≤ s.cfg.lsCapacity) :
    s.deepOverflows p r = false := by
  simp only [deepCells] at h
  simp [State.deepOverflows, psDeep, rsDeep, h]

/-- Deep cells that fit nowhere overflow it. -/
theorem State.deepOverflows_eq_true {s : State} {p r : Nat} (h : s.cfg.lsCapacity < deepCells p r)
    (h' : 2 ^ s.cfg.spWidth + s.cfg.ipsEff + s.cfg.irsEff < deepCells p r) : s.deepOverflows p r = true := by
  simp only [deepCells] at h h'
  have a2 : ¬ psDeep p + rsDeep r ≤ s.cfg.lsCapacity := by simp only [psDeep, rsDeep]; omega
  have a3 : s.cfg.deepLimit < psDeep p + rsDeep r := by simpa [Config.deepLimit, psDeep, rsDeep] using h'
  simp [State.deepOverflows, a2, a3]

/-- Deep cells that do not overflow fit what the machine can hold. -/
theorem State.le_deepLimit_of_not_deepOverflows {s : State} {p r : Nat} (hl : s.cfg.lsCapacity ≤ s.cfg.deepLimit)
    (h : s.deepOverflows p r = false) : psDeep p + rsDeep r ≤ s.cfg.deepLimit := by
  unfold State.deepOverflows at h
  split at h
  · omega
  · split at h
    · simp at h
    · omega

/-- With room nothing overflows. -/
theorem State.overflows_eq_false {s : State} {p r : Nat} (h : s.roomFor p r) : s.overflows p r = false := by
  unfold State.overflows
  split
  · rfl
  · exact State.deepOverflows_eq_false (h.resolve_left ‹_›)

/-- Without room it does. -/
theorem State.overflows_eq_true {s : State} {p r : Nat} (h : s.noRoomFor p r) : s.overflows p r = true := by
  have : ¬ p + r ≤ s.ps.length + s.rs.length := by omega
  simp [State.overflows, this, State.deepOverflows_eq_true h.2.1 h.2.2]

/-- What does not overflow does not grow, or fits what the machine can hold. -/
theorem State.fits_of_not_overflows {s : State} {p r : Nat} (hl : s.cfg.lsCapacity ≤ s.cfg.deepLimit)
    (h : s.overflows p r = false) :
    p + r ≤ s.ps.length + s.rs.length ∨ psDeep p + rsDeep r ≤ s.cfg.deepLimit := by
  unfold State.overflows at h
  split at h
  · exact .inl ‹_›
  · exact .inr (State.le_deepLimit_of_not_deepOverflows hl h)

/-! ## Exception entry (R284) -/

/-- The entry of an exception that clears both stacks. -/
theorem State.raiseFrom_of_clears (b s : State) (ps : List Cell) {e : Exc} (h : e.clearsStacks = true) :
    b.raiseFrom e s ps = s.cleared e.code := by
  have h0 : b.overflows 1 0 = false := State.overflows_eq_false (.inr (by simp [deepCells]))
  simp [State.raiseFrom, h, h0, State.cleared, State.redirect, State.withStacks, psDeep, rsDeep]

/-- Parameter stack overflow. -/
@[simp] theorem State.raise_psOverflow (s : State) : s.raise .psOverflow = s.cleared 0xFFFD#16 :=
  s.raiseFrom_of_clears s s.ps rfl

/-- Return stack overflow. -/
@[simp] theorem State.raise_rsOverflow (s : State) : s.raise .rsOverflow = s.cleared 0xFFFB#16 :=
  s.raiseFrom_of_clears s s.ps rfl

/-- The entry of one of the other exceptions: its code is pushed, or does not fit (R295). -/
theorem State.raiseFrom_cases (b s : State) (ps : List Cell) {e : Exc} (h : e.clearsStacks = false) :
    b.raiseFrom e s ps =
      if b.overflows (ps.length + 1) s.rs.length then s.cleared 0xFFFD#16
      else s.gone (e.code :: ps) s.rs 0x0000#16 none := by
  simp only [State.raiseFrom, h, Bool.false_eq_true, if_false]
  split
  · simp [State.cleared, State.redirect, State.withStacks, psDeep, rsDeep, Exc.code]
  · rfl

/-- Every entry is one of the two: both stacks cleared under a throw code, or a throw code pushed. -/
theorem State.raiseFrom_eq (b s : State) (ps : List Cell) (e : Exc) :
    (∃ e' : Exc, b.raiseFrom e s ps = s.cleared e'.code) ∨
      b.overflows (ps.length + 1) s.rs.length = false ∧
        b.raiseFrom e s ps = s.gone (e.code :: ps) s.rs 0x0000#16 none := by
  by_cases h : e.clearsStacks = true
  · exact .inl ⟨e, b.raiseFrom_of_clears s ps h⟩
  · rw [b.raiseFrom_cases s ps (by simpa using h)]
    split
    · exact .inl ⟨.psOverflow, rfl⟩
    · rename_i ho
      exact .inr ⟨by simpa using ho, rfl⟩

/-! ## Ends of instructions -/

/-- The end of an instruction whose return bit finds its cell. -/
theorem State.finish_withStacks {r : Bool} {s : State} (ps' : List Cell) (h : s.canReturn r) :
    (s.withStacks ps' s.rs).finish r = s.after r ps' := by
  cases r with
  | false => rfl
  | true =>
    obtain ⟨a, rs', hr⟩ := List.exists_cons_of_ne_nil (h rfl)
    simp only [State.finish, State.withStacks_rs, hr]
    simp only [State.redirect, State.withStacks, State.after, hr, refill_refill_self]
    rw [refill_self_refill _ _ _ _ (by simp [rsDeep])]
    simp

/-- The same with the enable flag written. -/
theorem State.finish_withStacks_ien {r : Bool} {s : State} (ps' : List Cell) (b : Bool) (h : s.canReturn r) :
    { s.withStacks ps' s.rs with ien := b }.finish r = { s.after r ps' with ien := b } := by
  rw [← State.finish_withStacks ps' h]
  cases r
  · rfl
  · cases hr : s.rs <;> simp [State.finish, State.withStacks, State.redirect, State.advance, hr]

/-- The same with a datum given to the output device. -/
theorem State.finish_withStacks_emitted {r : Bool} {s : State} (ps' l : List Cell) (h : s.canReturn r) :
    { s.withStacks ps' s.rs with emitted := l }.finish r = { s.after r ps' with emitted := l } := by
  rw [← State.finish_withStacks ps' h]
  cases r
  · rfl
  · cases hr : s.rs <;> simp [State.finish, State.withStacks, State.redirect, State.advance, hr]

/-- The same with a datum taken from the input device. -/
theorem State.finish_withStacks_keyQueue {r : Bool} {s : State} (ps' l : List Cell) (h : s.canReturn r) :
    { s.withStacks ps' s.rs with keyQueue := l }.finish r = { s.after r ps' with keyQueue := l } := by
  rw [← State.finish_withStacks ps' h]
  cases r
  · rfl
  · cases hr : s.rs <;> simp [State.finish, State.withStacks, State.redirect, State.advance, hr]

/-- The depth of the return stack after the return action. -/
@[simp] theorem State.after_rs_length (r : Bool) (s : State) (ps' : List Cell) :
    (s.after r ps').rs.length = s.rsdAfter r := by
  cases r <;> simp [State.after, State.rsdAfter]

/-- An instruction that settles ends in its state or in the entry of the overflow of the stack that grew. -/
theorem State.settle_ends (s t : State) :
    s.endsUnlessFull t.ps.length t.rs.length (if s.ps.length < t.ps.length then 0xFFFD#16 else 0xFFFB#16)
      (s.settle t) t := by
  have key : (s.raise (if s.ps.length < t.ps.length then Exc.psOverflow else .rsOverflow)) =
      s.cleared (if s.ps.length < t.ps.length then 0xFFFD#16 else 0xFFFB#16) := by
    split <;> simp
  refine ⟨fun h => ?_, fun h => ?_, ?_⟩
  · simp [State.settle, State.overflows_eq_false h]
  · rw [State.settle, State.overflows_eq_true h, key]; simp
  · rw [State.settle, key]
    split
    · exact .inr rfl
    · exact .inl rfl

/-- The return bit's check passes when its cell is there. -/
theorem State.checkReturn_of_canReturn {r : Bool} {s : State} (go : Result) (h : s.canReturn r) :
    s.checkReturn r go = go := by
  cases r <;> simp_all [State.checkReturn]

/-- What `checkReturn` can answer. -/
theorem State.checkReturn_eq (r : Bool) (s : State) (go : Result) :
    (r = true ∧ s.rs = [] ∧ s.checkReturn r go = .next (s.raise .rsUnderflow)) ∨
      (s.canReturn r ∧ s.checkReturn r go = go) := by
  cases r <;> cases h : s.rs <;> simp [State.checkReturn, h]

/-- What an instruction with one operand can answer. -/
theorem State.pop1_eq (r : Bool) (s : State) (go : Cell → List Cell → Result) :
    (s.ps = [] ∧ s.pop1 r go = .next (s.raise .psUnderflow)) ∨
      (∃ x rest, s.ps = x :: rest ∧ s.pop1 r go = s.checkReturn r (go x rest)) := by
  cases h : s.ps <;> simp [State.pop1, h]

/-- What an instruction with two operands can answer. -/
theorem State.pop2_eq (r : Bool) (s : State) (go : Cell → Cell → List Cell → Result) :
    (s.ps.length < 2 ∧ s.pop2 r go = .next (s.raise .psUnderflow)) ∨
      (∃ x y rest, s.ps = x :: y :: rest ∧ s.pop2 r go = s.checkReturn r (go x y rest)) := by
  match h : s.ps with
  | [] => simp [State.pop2, h]
  | [x] => simp [State.pop2, h]
  | x :: y :: rest => simp [State.pop2, h]

/-- An instruction that leaves a parameter stack ends in `after`, or overflows if the stack grew. -/
theorem State.leave_ends {r : Bool} {s : State} (ps' : List Cell) (h : s.canReturn r) :
    s.endsUnlessFull ps'.length (s.rsdAfter r) (if s.ps.length < ps'.length then 0xFFFD#16 else 0xFFFB#16)
      (s.leave r ps') (s.after r ps') := by
  have := s.settle_ends (s.after r ps')
  rw [State.after_rs_length] at this
  rw [State.leave, State.finish_withStacks ps' h]
  exact this

/-- One that does not grow it ends in `after`. -/
theorem State.leave_eq {r : Bool} {s : State} (ps' : List Cell) (h : s.canReturn r)
    (hl : ps'.length ≤ s.ps.length) : s.leave r ps' = .next (s.after r ps') :=
  (s.leave_ends ps' h).1 (.inl (by simp only [State.rsdAfter]; omega))

/-- What a data access on the bus can answer: it is made, or the instruction waits. -/
theorem State.onBus_eq (s : State) (go : Result) :
    (s.dataAnswer = .answered ∧ s.onBus go = go) ∨
      (s.dataAnswer = .held ∧ s.onBus go = .next { s with waiting := .blocked }) ∨
      (s.dataAnswer = .retry ∧ s.onBus go = .next { s with waiting := .retried }) := by
  cases h : s.dataAnswer <;> simp [State.onBus, State.wait, h]

/-- Without return action, the end of an instruction that turns both stacks. -/
theorem State.advance_withStacks (s : State) (ps' rs' : List Cell) :
    (s.withStacks ps' rs').advance = s.afterBoth ps' rs' := rfl

/-- A change of flow that turns both stacks. -/
theorem State.redirect_withStacks (s : State) (ps' rs' : List Cell) (t : Cell) (tag : Option Cof) :
    (s.withStacks ps' rs').redirect t tag = s.gone ps' rs' t tag := rfl

/-! ## The environment -/

/-- A write by another bus master changes memory and what was fetched ahead, and nothing else. -/
theorem State.busWrite_eq (s : State) (a v : Cell) :
    s.busWrite a v = { s with mem := (s.putWord a v).mem, stash := (s.busWrite a v).stash } := by
  unfold State.busWrite; split <;> rfl

/-- What may have been fetched ahead after such a write. -/
theorem State.busWrite_stash (s : State) (a v : Cell) :
    (s.busWrite a v).stash =
      if a = s.upcoming ∨ a = s.upcoming + 1#16 then (a, s.readWord .fetch a) :: s.stash else s.stash := by
  unfold State.busWrite; split <;> rfl

/-- Several such writes change memory and what was fetched ahead, and nothing else. -/
theorem State.busWrites_eq (s : State) (ws : List (Cell × Cell)) :
    s.busWrites ws = { s with mem := (s.busWrites ws).mem, stash := (s.busWrites ws).stash } := by
  have key : ∃ m st, s.busWrites ws = { s with mem := m, stash := st } := by
    induction ws generalizing s with
    | nil => exact ⟨s.mem, s.stash, rfl⟩
    | cons w ws ih =>
      obtain ⟨m, st, h⟩ := ih (s.busWrite w.1 w.2)
      obtain ⟨m0, st0, h0⟩ : ∃ m0 st0, s.busWrite w.1 w.2 = { s with mem := m0, stash := st0 } :=
        ⟨_, _, s.busWrite_eq w.1 w.2⟩
      exact ⟨m, st, h.trans (by rw [h0])⟩
  obtain ⟨m, st, h⟩ := key
  rw [h]

/-- Sampling the environment keeps the core, but for the acknowledge, what other masters write, and what may then
have been fetched ahead. -/
theorem State.latch_keeps (s : State) :
    s.latch.cfg = s.cfg ∧ s.latch.pc = s.pc ∧ s.latch.ps = s.ps ∧ s.latch.rs = s.rs ∧ s.latch.ipsN = s.ipsN ∧
      s.latch.irsN = s.irsN ∧ s.latch.ien = s.ien ∧ s.latch.ir = s.ir ∧ s.latch.waiting = s.waiting ∧
      s.latch.cof = s.cof ∧ s.latch.emitted = s.emitted := by
  unfold State.latch
  split
  · simp
  · rw [State.busWrites_eq]; simp

end Sys2Proof.Machine
end

