-- ==== Sys2Proof/Laws/Exec.lean ====
section
/-!
SUPPORT. Everything an instruction can do, said once: the shapes of the next states of `exec`. A claim about every
instruction is a claim about these shapes.
-/

set_option Elab.async false

namespace Sys2Proof.Machine

/-- The whole state after a store: the word in memory (or taken by the device that answers there), what may have
been fetched ahead at that address kept as possible, and the end of the instruction. -/
theorem State.finish_storeWord {r : Bool} {s : State} (rest : List Cell) (a v : Cell) (hc : s.canReturn r) :
    ((s.withStacks rest s.rs).storeWord a v).finish r =
      { s.after r rest with
        mem := (s.putWord a v).mem
        stash := if r then [] else
          (if a = s.pc + 1#16 ∨ a = s.pc + 2#16 then [(a, s.readWord .fetch a)] else []) ++
            s.stash.filter fun c => c.1 ≠ s.pc } := by
  have hne : ¬ (s.pc + 1#16 = s.pc) ∧ ¬ (s.pc + 2#16 = s.pc) := by constructor <;> bv_omega
  rw [← State.finish_withStacks rest hc]
  cases r with
  | false =>
    by_cases h : a = s.pc + 1#16 ∨ a = s.pc + 2#16
    · have : a ≠ s.pc := by rcases h with h | h <;> rw [h] <;> simp [hne]
      simp only [State.finish, State.storeWord, State.withStacks_pc, h, if_true]
      simp only [State.advance, State.putWord, State.keepFetched, State.withStacks]
      congr 1
      exact List.filter_cons_of_pos (decide_eq_true this)
    · simp only [State.finish, State.storeWord, State.withStacks_pc, h, if_false]
      rfl
  | true =>
    obtain ⟨x, rs', hr⟩ := List.exists_cons_of_ne_nil (hc rfl)
    by_cases h : a = s.pc + 1#16 ∨ a = s.pc + 2#16
    · simp only [State.storeWord, State.withStacks_pc, h, if_true]
      simp [State.finish, State.redirect, State.putWord, State.keepFetched, State.withStacks, hr]
    · simp only [State.storeWord, State.withStacks_pc, h, if_false]
      simp [State.finish, State.redirect, State.putWord, State.withStacks, hr]

/-- A store touches memory and what was fetched ahead, and nothing else. -/
theorem State.storeWord_eq (s : State) (a v : Cell) :
    s.storeWord a v = { s with mem := (s.putWord a v).mem, stash := (s.storeWord a v).stash } := by
  unfold State.storeWord; split <;> rfl

/-- Going to these depths does not grow the stacks, or was found not to overflow. -/
abbrev State.fits (s : State) (p r : Nat) : Prop :=
  p + r ≤ s.ps.length + s.rs.length ∨ s.overflows p r = false

/-- The address at which an instruction that has its operands stores. -/
def storesAt (i : Instr) (s : State) (a : Cell) : Prop :=
  match i with
  | .sti _ => ∃ v rest, s.ps = a :: v :: rest
  | .st _ m8 => a = directAddress s.cfg m8 ∧ s.ps ≠ []
  | _ => False

/-- Only the storing instructions store. -/
theorem storing_of_storesAt {i : Instr} {s : State} {a : Cell} (h : storesAt i s a) : storing i = true := by
  unfold storesAt at h
  split at h
  · rfl
  · rfl
  · exact h.elim

/-- An instruction that may return may change the return stack. -/
theorem changesReturnStack_of_returning {i : Instr} (h : returning i = true) :
    changesReturnStack i = true := by
  unfold changesReturnStack
  split <;> first | rfl | exact h | simp_all [returning]

/-- The next states of an instruction. -/
inductive Ends (i : Instr) (s : State) : State → Prop
  /-- An exception with none of the instruction's effects. -/
  | raised (e : Exc) (he : e = .rsOverflow → changesReturnStack i = true) : Ends i s (s.raise e)
  /-- The parameter stack changed, then the next word or the return action. -/
  | after (r : Bool) (ps' : List Cell) (hi : r = true → returning i = true) (hr : s.canReturn r)
      (hf : s.fits ps'.length (s.rsdAfter r)) : Ends i s (s.after r ps')
  /-- Both stacks changed. -/
  | both (ps' rs' : List Cell) (hi : changesReturnStack i = true) (hf : s.fits ps'.length rs'.length) :
      Ends i s (s.afterBoth ps' rs')
  /-- A change of flow. -/
  | gone (ps' rs' : List Cell) (t : Cell) (tag : Option Cof) (hi : rs' = s.rs ∨ changesReturnStack i = true)
      (hf : s.fits ps'.length rs'.length) : Ends i s (s.gone ps' rs' t tag)
  /-- A jump that touches no stack. -/
  | jumped (t : Cell) (tag : Option Cof) : Ends i s (s.redirect t tag)
  /-- The IEN write. -/
  | enabled (r : Bool) (ps' : List Cell) (b : Bool) (hi : i = .frwIen r) (hr : s.canReturn r)
      (hf : s.fits ps'.length (s.rsdAfter r)) : Ends i s { s.after r ps' with ien := b }
  /-- The EMIT write. -/
  | emitted (r : Bool) (ps' : List Cell) (v : Cell) (hi : i = .frwKeyEmit r) (hr : s.canReturn r)
      (hf : s.fits ps'.length (s.rsdAfter r)) :
      Ends i s { s.after r ps' with emitted := s.emitted ++ [v] }
  /-- The KEY read. -/
  | took (r : Bool) (ps' : List Cell) (later : List Cell) (hi : i = .frrKeyEmit r) (hr : s.canReturn r)
      (hf : s.fits ps'.length (s.rsdAfter r)) : Ends i s { s.after r ps' with keyQueue := later }
  /-- An access that waits. -/
  | waits (w : Wait) (hi : mayWait i = true) (hw : w = .retried → accessesMemory i = true)
      (hn : w ≠ .no) :
      Ends i s { s with waiting := w }
  /-- A store. -/
  | stored (r : Bool) (ps' : List Cell) (a v : Cell) (hi : r = true → returning i = true)
      (ha : storesAt i s a) (hr : s.canReturn r) (hf : s.fits ps'.length (s.rsdAfter r)) :
      Ends i s (((s.withStacks ps' s.rs).storeWord a v).finish r)
  /-- A data access that faults, which may have stored. -/
  | faulted (u : State) (ps' : List Cell) (hu : u = s ∨ ∃ a v, storesAt i s a ∧ u = s.storeWord a v)
      (hl : ps'.length ≤ s.ps.length) : Ends i s (s.dataFault u ps')

/-! ## The shared operations end so -/

variable {i : Instr} {s t : State}

/-- An instruction that settles with the return stack as `after` leaves it. -/
theorem settle_next {r : Bool} {u : State} (hu : u.rs.length = s.rsdAfter r)
    (hgo : s.fits u.ps.length (s.rsdAfter r) → Ends i s u) (h : s.settle u = .next t) : Ends i s t := by
  rw [State.settle] at h
  split at h
  · rename_i ho
    cases h
    refine .raised _ fun he => ?_
    split at he
    · cases he
    · rename_i hg
      rw [State.overflows_eq_false (.inl ?_)] at ho
      · cases ho
      · rw [hu]
        simp only [State.rsdAfter]
        omega
  · rename_i ho
    cases h
    refine hgo (.inr ?_)
    rw [hu] at ho
    exact (Bool.not_eq_true _).mp ho

/-- The end of an instruction that leaves a parameter stack. -/
theorem leave_next {r : Bool} {ps' : List Cell} (hi : r = true → returning i = true) (hr : s.canReturn r)
    (h : s.leave r ps' = .next t) : Ends i s t := by
  rw [State.leave, State.finish_withStacks ps' hr] at h
  exact settle_next (State.after_rs_length r s ps') (.after r ps' hi hr) h

/-- The end of an instruction that leaves both stacks. -/
theorem leaveBoth_next {ps' rs' : List Cell} (hi : changesReturnStack i = true)
    (h : s.leaveBoth ps' rs' = .next t) : Ends i s t := by
  rw [State.leaveBoth, State.advance_withStacks, State.settle] at h
  split at h
  · cases h; exact .raised _ fun _ => hi
  · rename_i ho
    cases h
    exact .both ps' rs' hi (.inr ((Bool.not_eq_true _).mp ho))

/-- The return bit's check. -/
theorem checkReturn_next {r : Bool} {go : Result} (hgo : s.canReturn r → go = .next t → Ends i s t)
    (h : s.checkReturn r go = .next t) : Ends i s t := by
  rcases s.checkReturn_eq r go with ⟨-, -, he⟩ | ⟨hr, he⟩ <;> rw [he] at h
  · cases h; exact .raised _ (by simp)
  · exact hgo hr h

/-- One operand. -/
theorem pop1_next {r : Bool} {go : Cell → List Cell → Result}
    (hgo : ∀ x rest, s.ps = x :: rest → s.canReturn r → go x rest = .next t → Ends i s t)
    (h : s.pop1 r go = .next t) : Ends i s t := by
  rcases s.pop1_eq r go with ⟨-, he⟩ | ⟨x, rest, hp, he⟩ <;> rw [he] at h
  · cases h; exact .raised _ (by simp)
  · exact checkReturn_next (hgo x rest hp) h

/-- Two operands. -/
theorem pop2_next {r : Bool} {go : Cell → Cell → List Cell → Result}
    (hgo : ∀ x y rest, s.ps = x :: y :: rest → s.canReturn r → go x y rest = .next t → Ends i s t)
    (h : s.pop2 r go = .next t) : Ends i s t := by
  rcases s.pop2_eq r go with ⟨-, he⟩ | ⟨x, y, rest, hp, he⟩ <;> rw [he] at h
  · cases h; exact .raised _ (by simp)
  · exact checkReturn_next (hgo x y rest hp) h

/-- One cell of the return stack. -/
theorem popReturn_next {go : Cell → List Cell → Result}
    (hgo : ∀ x rest, s.rs = x :: rest → go x rest = .next t → Ends i s t)
    (h : s.popReturn go = .next t) : Ends i s t := by
  unfold State.popReturn at h
  split at h
  · exact hgo _ _ ‹_› h
  · cases h; exact .raised _ (by simp)

/-- A push. -/
theorem pushAndLeave_next {r : Bool} {v : Cell} (hi : r = true → returning i = true)
    (h : s.pushAndLeave r v = .next t) : Ends i s t :=
  checkReturn_next (fun hr h => leave_next hi hr h) h

/-- A register that may be absent. -/
theorem ifPresent_next {b : Bool} {go : Result} (hgo : go = .next t → Ends i s t)
    (h : s.ifPresent b go = .next t) : Ends i s t := by
  cases b
  · cases h; exact .raised _ (by simp)
  · exact hgo h

/-- An instruction that the return bit makes meaningless. -/
theorem withoutReturnBit_next {r : Bool} {go : Result} (hgo : go = .next t → Ends i s t)
    (h : withoutReturnBit r go = .next t) : Ends i s t := by
  cases r
  · exact hgo h
  · cases h

/-- A pattern of the ROT extension. -/
theorem rotExtension_next {go : Result} (hgo : go = .next t → Ends i s t)
    (h : s.rotExtension go = .next t) : Ends i s t := by
  unfold State.rotExtension at h
  split at h
  · exact hgo h
  · cases h

/-- The generic ALU instruction. -/
theorem alu_next {op : AluOp} {double r : Bool} {imm5 : BitVec 5} (hi : r = true → returning i = true)
    (h : s.alu op double r imm5 = .next t) : Ends i s t := by
  unfold State.alu at h
  split at h
  · exact pop2_next (fun _ _ _ _ hr h => leave_next hi hr h) h
  · exact pop1_next (fun _ _ _ hr h => leave_next hi hr h) h

/-- The instructions that access memory may wait. -/
theorem mayWait_of_accessesMemory (h : accessesMemory i = true) : mayWait i = true := by
  unfold mayWait; split
  · rfl
  · rfl
  · exact h

/-- A data access on the bus. -/
theorem onBus_next {go : Result} (hm : accessesMemory i = true) (hgo : go = .next t → Ends i s t)
    (h : s.onBus go = .next t) : Ends i s t := by
  rcases s.onBus_eq go with ⟨-, he⟩ | ⟨-, he⟩ | ⟨-, he⟩ <;> rw [he] at h
  · exact hgo h
  · cases h; exact .waits _ (mayWait_of_accessesMemory hm) (fun _ => hm) (by simp)
  · cases h; exact .waits _ (mayWait_of_accessesMemory hm) (fun _ => hm) (by simp)

/-- The storing instructions access memory. -/
theorem accessesMemory_of_storesAt {a : Cell} (h : storesAt i s a) : accessesMemory i = true := by
  unfold storesAt at h
  split at h
  · rfl
  · rfl
  · exact h.elim

/-- A store. -/
theorem store_next {r : Bool} {a v : Cell} {rest : List Cell} (hi : r = true → returning i = true)
    (ha : storesAt i s a) (hr : s.canReturn r) (hl : rest.length ≤ s.ps.length)
    (h : s.store r a v rest = .next t) : Ends i s t := by
  refine onBus_next (accessesMemory_of_storesAt ha) (fun h => ?_) h
  split at h
  · cases h
    exact .stored r rest a v hi ha hr (.inl (by simp only [State.rsdAfter]; omega))
  · split at h <;> cases h
    · exact .faulted _ _ (.inr ⟨a, v, ha, rfl⟩) hl
    · exact .faulted _ _ (.inl rfl) hl

/-- A load. -/
theorem load_next {r : Bool} {a : Cell} {rest : List Cell} (hi : r = true → returning i = true)
    (hm : accessesMemory i = true) (hr : s.canReturn r) (hl : rest.length ≤ s.ps.length)
    (h : s.load r a rest = .next t) : Ends i s t := by
  refine onBus_next hm (fun h => ?_) h
  split at h
  · exact leave_next hi hr h
  · cases h; exact .faulted _ _ (.inl rfl) hl

/-- A call. -/
theorem callTo_next {rest : List Cell} {a : Cell} (hi : changesReturnStack i = true)
    (h : s.callTo rest a = .next t) : Ends i s t := by
  rw [State.callTo, State.redirect_withStacks, State.settle] at h
  split at h
  · cases h; refine .raised _ fun _ => hi
  · rename_i ho
    cases h; exact .gone _ _ _ _ (.inr hi) (.inr ((Bool.not_eq_true _).mp ho))

/-- The general stack instruction. -/
theorem transition_next {r : Bool} {p : StkPattern} (hi : r = true → returning i = true)
    (hn : r = true → newRs p s.ps s.rs = s.rs) (hc : r = false → newRs p s.ps s.rs ≠ s.rs →
      changesReturnStack i = true) (h : s.transition r p = .next t) : Ends i s t := by
  unfold State.transition at h
  split at h
  · cases h; exact .raised _ (by simp)
  · split at h
    · cases h; exact .raised _ (by simp)
    · refine checkReturn_next (fun hr h => ?_) h
      by_cases hs : newRs p s.ps s.rs = s.rs
      · rw [hs] at h
        exact leave_next hi hr h
      · have hf : r = false := by
          cases r
          · rfl
          · exact absurd (hn rfl) hs
        subst hf
        exact leaveBoth_next (hc rfl hs) h

/-- How a call ends: at its target, or in the overflow of R287. -/
theorem State.callTo_ends (s : State) (rest : List Cell) (a : Cell) :
    s.endsUnlessFull rest.length (s.rs.length + 1) (if s.ps.length < rest.length then 0xFFFD#16 else 0xFFFB#16)
      (s.callTo rest a) (s.gone rest ((s.pc + 1#16) :: s.rs) a (some .call)) := by
  rw [State.callTo, State.redirect_withStacks]
  exact s.settle_ends (s.gone rest ((s.pc + 1#16) :: s.rs) a (some .call))

/-- The result of an ALU instruction depends on its operands alone (R181): for each operator, form and parameter stack
there is one stack that it leaves on every machine with room, whatever its parameters and the draw. -/
theorem State.alu_result (op : AluOp) (double r : Bool) (imm5 : BitVec 5) (ps : List Cell)
    (h : (if imm5 = 0#5 then 2 else 1) ≤ ps.length) : ∃ ps' : List Cell, ∀ s : State, s.ps = ps → s.canReturn r →
      s.roomFor ps'.length (s.rsdAfter r) → s.alu op double r imm5 = .next (s.after r ps') := by
  unfold State.alu
  split at h
  · obtain _ | ⟨b, _ | ⟨a, rest⟩⟩ := ps
    · simp at h
    · simp at h
    · refine ⟨aluPush op double false a b rest, fun s hp hr hf => ?_⟩
      simp only [*, if_true, State.pop2, State.checkReturn_of_canReturn _ hr]
      exact (s.leave_ends _ hr).1 hf
  · obtain _ | ⟨b, rest⟩ := ps
    · simp at h
    · refine ⟨aluPush op double true (widen op imm5) b rest, fun s hp hr hf => ?_⟩
      simp only [*, if_false, State.pop1, State.checkReturn_of_canReturn _ hr]
      exact (s.leave_ends _ hr).1 hf

/-- The general stack instruction on a pattern whose required cells are there. -/
theorem State.transition_of_holds {r : Bool} {p : StkPattern} (h1 : lacksParameter p s.ps s.rs = false)
    (h2 : lacksReturn p s.ps s.rs = false) :
    s.transition r p = s.checkReturn r
      (s.settle ((s.withStacks (newPs p s.ps s.rs) (newRs p s.ps s.rs)).finish r)) := by
  simp [State.transition, h1, h2]

/-- The general stack instruction on a pattern that lacks a cell of the parameter stack. -/
theorem State.transition_of_lacksParameter {r : Bool} {p : StkPattern}
    (h : lacksParameter p s.ps s.rs = true) : s.transition r p = .next (s.raise .psUnderflow) := by
  simp [State.transition, h]

/-- The general stack instruction on a pattern that lacks the top of the return stack. -/
theorem State.transition_of_lacksReturn {r : Bool} {p : StkPattern}
    (h1 : lacksParameter p s.ps s.rs = false) (h2 : lacksReturn p s.ps s.rs = true) :
    s.transition r p = .next (s.raise .rsUnderflow) := by
  simp [State.transition, h1, h2]

/-- A pattern that does not use the return stack leaves it. -/
theorem newRs_of_unused {p : StkPattern} (h : usesReturnStack p = false) (ps rs : List Cell) :
    newRs p ps rs = rs := by
  simp only [usesReturnStack, Bool.or_eq_false_iff, bne_eq_false_iff_eq] at h
  obtain ⟨h0, hi⟩ := h
  cases rs <;> simp [newRs, newValue, newRsDeep, source, irsPush, irsPull, ustUp, value, h0, hi]

/-! ## Every instruction -/

/-- Every next state of `exec` has one of the shapes. -/
theorem exec_ends (h : exec i s = .next t) : Ends i s t := by
  cases i
  case jumpi => exact pop1_next (fun x rest hp _ h => by
    cases h; exact .gone _ _ _ _ (.inl rfl) (.inl (by simp [hp]))) h
  case calli => exact pop1_next (fun x rest _ _ h => callTo_next rfl h) h
  case jump => cases h; exact .jumped _ _
  case call => exact callTo_next rfl h
  case brz =>
    refine pop1_next (fun x rest hp _ h => ?_) h
    split at h <;> cases h
    · exact .gone _ _ _ _ (.inl rfl) (.inl (by simp [hp]))
    · exact .after false rest (by simp) (by simp) (.inl (by simp [hp, State.rsdAfter]))
  case brzReturn => cases h
  case lit => exact pushAndLeave_next (fun h => h) h
  case lithiStackForm => cases h
  case sum => exact alu_next (fun h => h) h
  case sumD => exact alu_next (fun h => h) h
  case abs => exact alu_next (fun h => h) h
  case absD => exact alu_next (fun h => h) h
  case difr => exact alu_next (fun h => h) h
  case difrD => exact alu_next (fun h => h) h
  case dif => exact alu_next (fun h => h) h
  case difD => exact alu_next (fun h => h) h
  case umin => exact alu_next (fun h => h) h
  case uminD => exact alu_next (fun h => h) h
  case max => exact alu_next (fun h => h) h
  case maxD => exact alu_next (fun h => h) h
  case umax => exact alu_next (fun h => h) h
  case umaxD => exact alu_next (fun h => h) h
  case min => exact alu_next (fun h => h) h
  case minD => exact alu_next (fun h => h) h
  case equ => exact alu_next (fun h => h) h
  case equD => exact alu_next (fun h => h) h
  case eq => exact alu_next (fun h => h) h
  case eqD => exact alu_next (fun h => h) h
  case neu => exact alu_next (fun h => h) h
  case neuD => exact alu_next (fun h => h) h
  case ne => exact alu_next (fun h => h) h
  case neD => exact alu_next (fun h => h) h
  case ugt => exact alu_next (fun h => h) h
  case ugtD => exact alu_next (fun h => h) h
  case lt => exact alu_next (fun h => h) h
  case ltD => exact alu_next (fun h => h) h
  case ult => exact alu_next (fun h => h) h
  case ultD => exact alu_next (fun h => h) h
  case gt => exact alu_next (fun h => h) h
  case gtD => exact alu_next (fun h => h) h
  case umul => exact alu_next (fun h => h) h
  case umulD => exact alu_next (fun h => h) h
  case smul => exact alu_next (fun h => h) h
  case smulD => exact alu_next (fun h => h) h
  case and => exact alu_next (fun h => h) h
  case andD => exact alu_next (fun h => h) h
  case xor => exact alu_next (fun h => h) h
  case xorD => exact alu_next (fun h => h) h
  case or => exact alu_next (fun h => h) h
  case orD => exact alu_next (fun h => h) h
  case lsr => exact alu_next (fun h => h) h
  case lsrD => exact alu_next (fun h => h) h
  case lsl => exact alu_next (fun h => h) h
  case lslD => exact alu_next (fun h => h) h
  case asr => exact alu_next (fun h => h) h
  case asrD => exact alu_next (fun h => h) h
  case lithi => exact alu_next (fun h => h) h
  case lithiD => exact alu_next (fun h => h) h
  case rsv10010 => cases h; exact .raised _ (by simp)
  case rsv10010D => cases h; exact .raised _ (by simp)
  case rsv10011 => cases h; exact .raised _ (by simp)
  case rsv10011D => cases h; exact .raised _ (by simp)
  case rsv10111 => cases h; exact .raised _ (by simp)
  case rsv10111D => cases h; exact .raised _ (by simp)
  case rsv11011 => cases h; exact .raised _ (by simp)
  case rsv11011D => cases h; exact .raised _ (by simp)
  case rsv11101 => cases h; exact .raised _ (by simp)
  case rsv11101D => cases h; exact .raised _ (by simp)
  case rsv11110 => cases h; exact .raised _ (by simp)
  case rsv11110D => cases h; exact .raised _ (by simp)
  case rsv11111 => cases h; exact .raised _ (by simp)
  case rsv11111D => cases h; exact .raised _ (by simp)
  case nop => exact checkReturn_next (fun hr h => leave_next (fun h => h) hr h) h
  case drop => exact pop1_next (fun _ _ _ hr h => leave_next (fun h => h) hr h) h
  case dup => exact pop1_next (fun _ _ _ hr h => leave_next (fun h => h) hr h) h
  case swap => exact pop2_next (fun _ _ _ _ hr h => leave_next (fun h => h) hr h) h
  case overCell => exact pop2_next (fun _ _ _ _ hr h => leave_next (fun h => h) hr h) h
  case nip => exact pop2_next (fun _ _ _ _ hr h => leave_next (fun h => h) hr h) h
  case rdrop =>
    exact withoutReturnBit_next (popReturn_next fun _ _ _ h => leaveBoth_next rfl h) h
  case toR => exact withoutReturnBit_next (pop1_next fun _ _ _ _ h => leaveBoth_next rfl h) h
  case rFetch =>
    exact withoutReturnBit_next
      (popReturn_next fun _ _ _ h => leave_next (r := false) (by simp) (by simp) h) h
  case rFrom =>
    exact withoutReturnBit_next (popReturn_next fun _ _ _ h => leaveBoth_next rfl h) h
  case tuck1 =>
    exact rotExtension_next (pop2_next fun _ _ _ _ hr h => leave_next (fun h => h) hr h) h
  case rot1 =>
    refine rotExtension_next (withoutReturnBit_next fun h => ?_) h
    split at h
    · exact leave_next (by simp) (by simp) h
    · cases h; exact .raised _ (by simp)
  case nrot1 =>
    refine rotExtension_next (fun h => ?_) h
    split at h
    · exact checkReturn_next (fun hr h => leave_next (fun h => h) hr h) h
    · cases h; exact .raised _ (by simp)
  case stk =>
    rename_i r p
    change execStk r p s = .next t at h
    unfold execStk at h
    split at h
    · cases h
    · split at h
      · cases h
      · rename_i hv hu
        refine transition_next (fun hr => ?_) (fun hr => ?_) (fun hr hn => ?_) h
        · simp_all [returning]
        · exact newRs_of_unused (by simp_all) _ _
        · have : usesReturnStack p = true := by
            by_contra hc
            exact hn (newRs_of_unused (by simpa using hc) _ _)
          simp [changesReturnStack, this]
  case sti =>
    exact pop2_next (fun a v rest hp hr h =>
      store_next (fun h => h) ⟨v, rest, hp⟩ hr (by simp [hp]; omega) h) h
  case ldi => exact pop1_next (fun _ _ hp hr h => load_next (fun h => h) rfl hr (by simp [hp]) h) h
  case st =>
    exact pop1_next (fun _ _ hp hr h =>
      store_next (fun h => h) ⟨rfl, by simp [hp]⟩ hr (by simp [hp]) h) h
  case ld => exact checkReturn_next (fun hr h => load_next (fun h => h) rfl hr le_rfl h) h
  case frwPsd => exact pop1_next (fun _ _ _ hr h => leave_next (fun h => h) hr h) h
  case frrPsd => exact pushAndLeave_next (fun h => h) h
  case frwRsd =>
    rename_i r
    cases r
    · exact pop1_next (fun _ _ _ _ h => leaveBoth_next rfl h) h
    · cases h
  case frrRsd => exact pushAndLeave_next (fun h => h) h
  case frwPc => exact ifPresent_next (fun h => by cases h) h
  case frrPc => exact ifPresent_next (pushAndLeave_next (fun h => h)) h
  case frwIen =>
    rename_i r
    refine ifPresent_next (pop1_next fun v rest hp hr h => ?_) h
    rw [State.finish_withStacks_ien rest _ hr] at h
    exact settle_next (u := { s.after r rest with ien := cellIsTrue v }) (State.after_rs_length r s rest)
      (.enabled r rest _ rfl hr) h
  case frrIen => exact ifPresent_next (pushAndLeave_next (fun h => h)) h
  case frwKeyQ => exact ifPresent_next (fun h => by cases h) h
  case frrKeyQ => exact ifPresent_next (pushAndLeave_next (fun h => h)) h
  case frwEmitQ => exact ifPresent_next (fun h => by cases h) h
  case frrEmitQ => exact ifPresent_next (pushAndLeave_next (fun h => h)) h
  case frwKeyEmit =>
    rename_i r
    refine ifPresent_next (pop1_next fun v rest hp hr h => ?_) h
    split at h
    · rw [State.finish_withStacks_emitted rest _ hr] at h
      exact settle_next (u := { s.after r rest with emitted := s.emitted ++ [v] })
        (State.after_rs_length r s rest) (.emitted r rest _ rfl hr) h
    · cases h; exact .waits .blocked rfl (by simp) (by simp)
  case frrKeyEmit =>
    rename_i r
    refine ifPresent_next (checkReturn_next fun hr h => ?_) h
    split at h
    · cases h; exact .waits .blocked rfl (by simp) (by simp)
    · rename_i v later _
      rw [State.finish_withStacks_keyQueue _ _ hr] at h
      exact settle_next (u := { s.after r (v :: s.ps) with keyQueue := later })
        (State.after_rs_length r s (v :: s.ps)) (.took r _ _ rfl hr) h
  case frw => cases h; exact .raised _ (by simp)
  case frr => cases h; exact .raised _ (by simp)

end Sys2Proof.Machine
end

