-- ==== Sys2Proof/Laws/PerInstr.lean ====
section
/-!
SUPPORT. One lemma per instruction: the encoder gives every well-formed instruction a word of its row of
spec/opcode_table.json.
-/

set_option Elab.async false

namespace Sys2Proof.Laws.TableRow

/-- A mask of consecutive bits picks out a field. -/
theorem and_field (n k l : Nat) : n &&& (2 ^ l - 1) <<< k = n / 2 ^ k % 2 ^ l * 2 ^ k := by
  rw [← Nat.shiftLeft_eq, ← Nat.shiftRight_eq_div_pow]
  apply Nat.eq_of_testBit_eq
  intro j
  simp only [Nat.testBit_and, Nat.testBit_shiftLeft, Nat.testBit_two_pow_sub_one, Nat.testBit_mod_two_pow,
    Nat.testBit_shiftRight]
  by_cases h : k ≤ j
  · have : k + (j - k) = j := by omega
    simp [h, this, Bool.and_comm]
  · simp [h]

/-- The return bit's weight is 0 or 0x8000. -/
theorem returnBits_cases (r : Bool) : returnBits r = 0 ∨ returnBits r = 32768 := by
  cases r
  · exact .inl rfl
  · exact .inr rfl

/-- A transition pattern is a number of ten bits. -/
theorem encodePattern_lt (p : StkPattern) : encodePattern p < 1024 := by
  have h (u : Ust) : encodeUst u ≤ 3 := by cases u <;> decide
  have h3 := h p.u3
  have h2 := h p.u2
  have h1 := h p.u1
  have h0 := h p.u0
  simp only [encodePattern]
  split <;> split <;> omega

/-- The mask and the match of an instruction's row. -/
def row : Instr → Nat × Nat
  | .jumpi => (0xFFFF, 0xFFFF)
  | .calli => (0xFFFF, 0x7FFF)
  | .jump _ => (0xC000, 0xC000)
  | .call _ => (0xC000, 0x4000)
  | .brz _ => (0xE000, 0x2000)
  | .brzReturn _ => (0xE000, 0xA000)
  | .lit _ _ => (0x7000, 0x1000)
  | .lithiStackForm _ _ => (0x7BFF, 0x0B80)
  | .sum _ _ => (0x7FE0, 0x0C00)
  | .sumD _ _ => (0x7FE0, 0x0800)
  | .abs _ _ => (0x7FE0, 0x0C20)
  | .absD _ _ => (0x7FE0, 0x0820)
  | .difr _ _ => (0x7FE0, 0x0C40)
  | .difrD _ _ => (0x7FE0, 0x0840)
  | .dif _ _ => (0x7FE0, 0x0C60)
  | .difD _ _ => (0x7FE0, 0x0860)
  | .umin _ _ => (0x7FE0, 0x0C80)
  | .uminD _ _ => (0x7FE0, 0x0880)
  | .max _ _ => (0x7FE0, 0x0CA0)
  | .maxD _ _ => (0x7FE0, 0x08A0)
  | .umax _ _ => (0x7FE0, 0x0CC0)
  | .umaxD _ _ => (0x7FE0, 0x08C0)
  | .min _ _ => (0x7FE0, 0x0CE0)
  | .minD _ _ => (0x7FE0, 0x08E0)
  | .equ _ _ => (0x7FE0, 0x0D00)
  | .equD _ _ => (0x7FE0, 0x0900)
  | .eq _ _ => (0x7FE0, 0x0D20)
  | .eqD _ _ => (0x7FE0, 0x0920)
  | .neu _ _ => (0x7FE0, 0x0D40)
  | .neuD _ _ => (0x7FE0, 0x0940)
  | .ne _ _ => (0x7FE0, 0x0D60)
  | .neD _ _ => (0x7FE0, 0x0960)
  | .ugt _ _ => (0x7FE0, 0x0D80)
  | .ugtD _ _ => (0x7FE0, 0x0980)
  | .lt _ _ => (0x7FE0, 0x0DA0)
  | .ltD _ _ => (0x7FE0, 0x09A0)
  | .ult _ _ => (0x7FE0, 0x0DC0)
  | .ultD _ _ => (0x7FE0, 0x09C0)
  | .gt _ _ => (0x7FE0, 0x0DE0)
  | .gtD _ _ => (0x7FE0, 0x09E0)
  | .umul _ _ => (0x7FE0, 0x0E00)
  | .umulD _ _ => (0x7FE0, 0x0A00)
  | .smul _ _ => (0x7FE0, 0x0E20)
  | .smulD _ _ => (0x7FE0, 0x0A20)
  | .rsv10010 _ _ => (0x7FE0, 0x0E40)
  | .rsv10010D _ _ => (0x7FE0, 0x0A40)
  | .rsv10011 _ _ => (0x7FE0, 0x0E60)
  | .rsv10011D _ _ => (0x7FE0, 0x0A60)
  | .and _ _ => (0x7FE0, 0x0E80)
  | .andD _ _ => (0x7FE0, 0x0A80)
  | .xor _ _ => (0x7FE0, 0x0EA0)
  | .xorD _ _ => (0x7FE0, 0x0AA0)
  | .or _ _ => (0x7FE0, 0x0EC0)
  | .orD _ _ => (0x7FE0, 0x0AC0)
  | .rsv10111 _ _ => (0x7FE0, 0x0EE0)
  | .rsv10111D _ _ => (0x7FE0, 0x0AE0)
  | .lsr _ _ => (0x7FE0, 0x0F00)
  | .lsrD _ _ => (0x7FE0, 0x0B00)
  | .lsl _ _ => (0x7FE0, 0x0F20)
  | .lslD _ _ => (0x7FE0, 0x0B20)
  | .asr _ _ => (0x7FE0, 0x0F40)
  | .asrD _ _ => (0x7FE0, 0x0B40)
  | .rsv11011 _ _ => (0x7FE0, 0x0F60)
  | .rsv11011D _ _ => (0x7FE0, 0x0B60)
  | .lithi _ _ => (0x7FE0, 0x0F80)
  | .lithiD _ _ => (0x7FE0, 0x0B80)
  | .rsv11101 _ _ => (0x7FE0, 0x0FA0)
  | .rsv11101D _ _ => (0x7FE0, 0x0BA0)
  | .rsv11110 _ _ => (0x7FE0, 0x0FC0)
  | .rsv11110D _ _ => (0x7FE0, 0x0BC0)
  | .rsv11111 _ _ => (0x7FE0, 0x0FE0)
  | .rsv11111D _ _ => (0x7FE0, 0x0BE0)
  | .nop _ => (0x7FFF, 0x0400)
  | .drop _ => (0x7FFF, 0x06A8)
  | .dup _ => (0x7FFF, 0x0750)
  | .swap _ => (0x7FFF, 0x0418)
  | .overCell _ => (0x7FFF, 0x0758)
  | .nip _ => (0x7FFF, 0x06A0)
  | .rdrop _ => (0x7FFF, 0x0401)
  | .toR _ => (0x7FFF, 0x06AB)
  | .rFetch _ => (0x7FFF, 0x0754)
  | .rFrom _ => (0x7FFF, 0x0755)
  | .tuck1 _ => (0x7FFF, 0x07C0)
  | .rot1 _ => (0x7FFF, 0x041C)
  | .nrot1 _ => (0x7FFF, 0x04E0)
  | .stk _ _ => (0x7C00, 0x0400)
  | .sti _ => (0x7FFF, 0x02FF)
  | .ldi _ => (0x7FFF, 0x03FF)
  | .st _ _ => (0x7F00, 0x0200)
  | .ld _ _ => (0x7F00, 0x0300)
  | .frwPsd _ => (0x7FFF, 0x0000)
  | .frrPsd _ => (0x7FFF, 0x0100)
  | .frwRsd _ => (0x7FFF, 0x0001)
  | .frrRsd _ => (0x7FFF, 0x0101)
  | .frwPc _ => (0x7FFF, 0x0002)
  | .frrPc _ => (0x7FFF, 0x0102)
  | .frwIen _ => (0x7FFF, 0x0003)
  | .frrIen _ => (0x7FFF, 0x0103)
  | .frwKeyQ _ => (0x7FFF, 0x0004)
  | .frrKeyQ _ => (0x7FFF, 0x0104)
  | .frwEmitQ _ => (0x7FFF, 0x0005)
  | .frrEmitQ _ => (0x7FFF, 0x0105)
  | .frwKeyEmit _ => (0x7FFF, 0x0006)
  | .frrKeyEmit _ => (0x7FFF, 0x0106)
  | .frw _ _ => (0x7F00, 0x0000)
  | .frr _ _ => (0x7F00, 0x0100)

/-- The instruction's word has 16 bits, and under the row's mask it is the row's match. -/
def Statement (i : Instr) : Prop :=
  i.wellFormed = true → encodeNat i < 65536 ∧ encodeNat i &&& (row i).1 = (row i).2

end Sys2Proof.Laws.TableRow

namespace Sys2Proof.Laws

theorem TableRow.jumpi : TableRow.Statement (.jumpi) := by
  exact fun _ => by decide

theorem TableRow.calli : TableRow.Statement (.calli) := by
  exact fun _ => by decide

theorem TableRow.jump (a14 : BitVec 14) : TableRow.Statement (.jump a14) := by
  intro _
  have hx := a14.isLt
  have hm := TableRow.and_field (encodeNat (.jump a14)) 14 2
  simp only [encodeNat, TableRow.row] at hm ⊢
  have hf : (0xC000 + a14.toNat) / 2 ^ 14 % 2 ^ 2 * 2 ^ 14 = 0xC000 := by omega
  exact ⟨by omega, hm.trans hf⟩

theorem TableRow.call (a14 : BitVec 14) : TableRow.Statement (.call a14) := by
  intro _
  have hx := a14.isLt
  have hm := TableRow.and_field (encodeNat (.call a14)) 14 2
  simp only [encodeNat, TableRow.row] at hm ⊢
  have hf : (0x4000 + a14.toNat) / 2 ^ 14 % 2 ^ 2 * 2 ^ 14 = 0x4000 := by omega
  exact ⟨by omega, hm.trans hf⟩

theorem TableRow.brz (rel13 : BitVec 13) : TableRow.Statement (.brz rel13) := by
  intro _
  have hx := rel13.isLt
  have hm := TableRow.and_field (encodeNat (.brz rel13)) 13 3
  simp only [encodeNat, TableRow.row] at hm ⊢
  have hf : (0x2000 + rel13.toNat) / 2 ^ 13 % 2 ^ 3 * 2 ^ 13 = 0x2000 := by omega
  exact ⟨by omega, hm.trans hf⟩

theorem TableRow.brzReturn (rel13 : BitVec 13) : TableRow.Statement (.brzReturn rel13) := by
  intro _
  have hx := rel13.isLt
  have hm := TableRow.and_field (encodeNat (.brzReturn rel13)) 13 3
  simp only [encodeNat, TableRow.row] at hm ⊢
  have hf : (0xA000 + rel13.toNat) / 2 ^ 13 % 2 ^ 3 * 2 ^ 13 = 0xA000 := by omega
  exact ⟨by omega, hm.trans hf⟩

theorem TableRow.lit (r : Bool) (lit12 : BitVec 12) : TableRow.Statement (.lit r lit12) := by
  intro _
  have hr := TableRow.returnBits_cases r
  have hx := lit12.isLt
  have hm := TableRow.and_field (encodeNat (.lit r lit12)) 12 3
  simp only [encodeNat, TableRow.row] at hm ⊢
  have hf : (returnBits r + 0x1000 + lit12.toNat) / 2 ^ 12 % 2 ^ 3 * 2 ^ 12 = 0x1000 := by omega
  exact ⟨by omega, hm.trans hf⟩

theorem TableRow.lithiStackForm (r : Bool) (t : Bool) : TableRow.Statement (.lithiStackForm r t) := by
  intro _
  revert r t
  decide

theorem TableRow.sum (r : Bool) (imm5 : BitVec 5) : TableRow.Statement (.sum r imm5) := by
  intro _
  have hr := TableRow.returnBits_cases r
  have hx := imm5.isLt
  have hm := TableRow.and_field (encodeNat (.sum r imm5)) 5 10
  simp only [encodeNat, TableRow.row] at hm ⊢
  have hf : (returnBits r + 0x0C00 + imm5.toNat) / 2 ^ 5 % 2 ^ 10 * 2 ^ 5 = 0x0C00 := by omega
  exact ⟨by omega, hm.trans hf⟩

theorem TableRow.sumD (r : Bool) (imm5 : BitVec 5) : TableRow.Statement (.sumD r imm5) := by
  intro _
  have hr := TableRow.returnBits_cases r
  have hx := imm5.isLt
  have hm := TableRow.and_field (encodeNat (.sumD r imm5)) 5 10
  simp only [encodeNat, TableRow.row] at hm ⊢
  have hf : (returnBits r + 0x0800 + imm5.toNat) / 2 ^ 5 % 2 ^ 10 * 2 ^ 5 = 0x0800 := by omega
  exact ⟨by omega, hm.trans hf⟩

theorem TableRow.abs (r : Bool) (imm5 : BitVec 5) : TableRow.Statement (.abs r imm5) := by
  intro _
  have hr := TableRow.returnBits_cases r
  have hx := imm5.isLt
  have hm := TableRow.and_field (encodeNat (.abs r imm5)) 5 10
  simp only [encodeNat, TableRow.row] at hm ⊢
  have hf : (returnBits r + 0x0C20 + imm5.toNat) / 2 ^ 5 % 2 ^ 10 * 2 ^ 5 = 0x0C20 := by omega
  exact ⟨by omega, hm.trans hf⟩

theorem TableRow.absD (r : Bool) (imm5 : BitVec 5) : TableRow.Statement (.absD r imm5) := by
  intro _
  have hr := TableRow.returnBits_cases r
  have hx := imm5.isLt
  have hm := TableRow.and_field (encodeNat (.absD r imm5)) 5 10
  simp only [encodeNat, TableRow.row] at hm ⊢
  have hf : (returnBits r + 0x0820 + imm5.toNat) / 2 ^ 5 % 2 ^ 10 * 2 ^ 5 = 0x0820 := by omega
  exact ⟨by omega, hm.trans hf⟩

theorem TableRow.difr (r : Bool) (imm5 : BitVec 5) : TableRow.Statement (.difr r imm5) := by
  intro _
  have hr := TableRow.returnBits_cases r
  have hx := imm5.isLt
  have hm := TableRow.and_field (encodeNat (.difr r imm5)) 5 10
  simp only [encodeNat, TableRow.row] at hm ⊢
  have hf : (returnBits r + 0x0C40 + imm5.toNat) / 2 ^ 5 % 2 ^ 10 * 2 ^ 5 = 0x0C40 := by omega
  exact ⟨by omega, hm.trans hf⟩

theorem TableRow.difrD (r : Bool) (imm5 : BitVec 5) : TableRow.Statement (.difrD r imm5) := by
  intro _
  have hr := TableRow.returnBits_cases r
  have hx := imm5.isLt
  have hm := TableRow.and_field (encodeNat (.difrD r imm5)) 5 10
  simp only [encodeNat, TableRow.row] at hm ⊢
  have hf : (returnBits r + 0x0840 + imm5.toNat) / 2 ^ 5 % 2 ^ 10 * 2 ^ 5 = 0x0840 := by omega
  exact ⟨by omega, hm.trans hf⟩

theorem TableRow.dif (r : Bool) (imm5 : BitVec 5) : TableRow.Statement (.dif r imm5) := by
  intro _
  have hr := TableRow.returnBits_cases r
  have hx := imm5.isLt
  have hm := TableRow.and_field (encodeNat (.dif r imm5)) 5 10
  simp only [encodeNat, TableRow.row] at hm ⊢
  have hf : (returnBits r + 0x0C60 + imm5.toNat) / 2 ^ 5 % 2 ^ 10 * 2 ^ 5 = 0x0C60 := by omega
  exact ⟨by omega, hm.trans hf⟩

theorem TableRow.difD (r : Bool) (imm5 : BitVec 5) : TableRow.Statement (.difD r imm5) := by
  intro _
  have hr := TableRow.returnBits_cases r
  have hx := imm5.isLt
  have hm := TableRow.and_field (encodeNat (.difD r imm5)) 5 10
  simp only [encodeNat, TableRow.row] at hm ⊢
  have hf : (returnBits r + 0x0860 + imm5.toNat) / 2 ^ 5 % 2 ^ 10 * 2 ^ 5 = 0x0860 := by omega
  exact ⟨by omega, hm.trans hf⟩

theorem TableRow.umin (r : Bool) (imm5 : BitVec 5) : TableRow.Statement (.umin r imm5) := by
  intro _
  have hr := TableRow.returnBits_cases r
  have hx := imm5.isLt
  have hm := TableRow.and_field (encodeNat (.umin r imm5)) 5 10
  simp only [encodeNat, TableRow.row] at hm ⊢
  have hf : (returnBits r + 0x0C80 + imm5.toNat) / 2 ^ 5 % 2 ^ 10 * 2 ^ 5 = 0x0C80 := by omega
  exact ⟨by omega, hm.trans hf⟩

theorem TableRow.uminD (r : Bool) (imm5 : BitVec 5) : TableRow.Statement (.uminD r imm5) := by
  intro _
  have hr := TableRow.returnBits_cases r
  have hx := imm5.isLt
  have hm := TableRow.and_field (encodeNat (.uminD r imm5)) 5 10
  simp only [encodeNat, TableRow.row] at hm ⊢
  have hf : (returnBits r + 0x0880 + imm5.toNat) / 2 ^ 5 % 2 ^ 10 * 2 ^ 5 = 0x0880 := by omega
  exact ⟨by omega, hm.trans hf⟩

theorem TableRow.max (r : Bool) (imm5 : BitVec 5) : TableRow.Statement (.max r imm5) := by
  intro _
  have hr := TableRow.returnBits_cases r
  have hx := imm5.isLt
  have hm := TableRow.and_field (encodeNat (.max r imm5)) 5 10
  simp only [encodeNat, TableRow.row] at hm ⊢
  have hf : (returnBits r + 0x0CA0 + imm5.toNat) / 2 ^ 5 % 2 ^ 10 * 2 ^ 5 = 0x0CA0 := by omega
  exact ⟨by omega, hm.trans hf⟩

theorem TableRow.maxD (r : Bool) (imm5 : BitVec 5) : TableRow.Statement (.maxD r imm5) := by
  intro _
  have hr := TableRow.returnBits_cases r
  have hx := imm5.isLt
  have hm := TableRow.and_field (encodeNat (.maxD r imm5)) 5 10
  simp only [encodeNat, TableRow.row] at hm ⊢
  have hf : (returnBits r + 0x08A0 + imm5.toNat) / 2 ^ 5 % 2 ^ 10 * 2 ^ 5 = 0x08A0 := by omega
  exact ⟨by omega, hm.trans hf⟩

theorem TableRow.umax (r : Bool) (imm5 : BitVec 5) : TableRow.Statement (.umax r imm5) := by
  intro _
  have hr := TableRow.returnBits_cases r
  have hx := imm5.isLt
  have hm := TableRow.and_field (encodeNat (.umax r imm5)) 5 10
  simp only [encodeNat, TableRow.row] at hm ⊢
  have hf : (returnBits r + 0x0CC0 + imm5.toNat) / 2 ^ 5 % 2 ^ 10 * 2 ^ 5 = 0x0CC0 := by omega
  exact ⟨by omega, hm.trans hf⟩

theorem TableRow.umaxD (r : Bool) (imm5 : BitVec 5) : TableRow.Statement (.umaxD r imm5) := by
  intro _
  have hr := TableRow.returnBits_cases r
  have hx := imm5.isLt
  have hm := TableRow.and_field (encodeNat (.umaxD r imm5)) 5 10
  simp only [encodeNat, TableRow.row] at hm ⊢
  have hf : (returnBits r + 0x08C0 + imm5.toNat) / 2 ^ 5 % 2 ^ 10 * 2 ^ 5 = 0x08C0 := by omega
  exact ⟨by omega, hm.trans hf⟩

theorem TableRow.min (r : Bool) (imm5 : BitVec 5) : TableRow.Statement (.min r imm5) := by
  intro _
  have hr := TableRow.returnBits_cases r
  have hx := imm5.isLt
  have hm := TableRow.and_field (encodeNat (.min r imm5)) 5 10
  simp only [encodeNat, TableRow.row] at hm ⊢
  have hf : (returnBits r + 0x0CE0 + imm5.toNat) / 2 ^ 5 % 2 ^ 10 * 2 ^ 5 = 0x0CE0 := by omega
  exact ⟨by omega, hm.trans hf⟩

theorem TableRow.minD (r : Bool) (imm5 : BitVec 5) : TableRow.Statement (.minD r imm5) := by
  intro _
  have hr := TableRow.returnBits_cases r
  have hx := imm5.isLt
  have hm := TableRow.and_field (encodeNat (.minD r imm5)) 5 10
  simp only [encodeNat, TableRow.row] at hm ⊢
  have hf : (returnBits r + 0x08E0 + imm5.toNat) / 2 ^ 5 % 2 ^ 10 * 2 ^ 5 = 0x08E0 := by omega
  exact ⟨by omega, hm.trans hf⟩

theorem TableRow.equ (r : Bool) (imm5 : BitVec 5) : TableRow.Statement (.equ r imm5) := by
  intro _
  have hr := TableRow.returnBits_cases r
  have hx := imm5.isLt
  have hm := TableRow.and_field (encodeNat (.equ r imm5)) 5 10
  simp only [encodeNat, TableRow.row] at hm ⊢
  have hf : (returnBits r + 0x0D00 + imm5.toNat) / 2 ^ 5 % 2 ^ 10 * 2 ^ 5 = 0x0D00 := by omega
  exact ⟨by omega, hm.trans hf⟩

theorem TableRow.equD (r : Bool) (imm5 : BitVec 5) : TableRow.Statement (.equD r imm5) := by
  intro _
  have hr := TableRow.returnBits_cases r
  have hx := imm5.isLt
  have hm := TableRow.and_field (encodeNat (.equD r imm5)) 5 10
  simp only [encodeNat, TableRow.row] at hm ⊢
  have hf : (returnBits r + 0x0900 + imm5.toNat) / 2 ^ 5 % 2 ^ 10 * 2 ^ 5 = 0x0900 := by omega
  exact ⟨by omega, hm.trans hf⟩

theorem TableRow.eq (r : Bool) (imm5 : BitVec 5) : TableRow.Statement (.eq r imm5) := by
  intro _
  have hr := TableRow.returnBits_cases r
  have hx := imm5.isLt
  have hm := TableRow.and_field (encodeNat (.eq r imm5)) 5 10
  simp only [encodeNat, TableRow.row] at hm ⊢
  have hf : (returnBits r + 0x0D20 + imm5.toNat) / 2 ^ 5 % 2 ^ 10 * 2 ^ 5 = 0x0D20 := by omega
  exact ⟨by omega, hm.trans hf⟩

theorem TableRow.eqD (r : Bool) (imm5 : BitVec 5) : TableRow.Statement (.eqD r imm5) := by
  intro _
  have hr := TableRow.returnBits_cases r
  have hx := imm5.isLt
  have hm := TableRow.and_field (encodeNat (.eqD r imm5)) 5 10
  simp only [encodeNat, TableRow.row] at hm ⊢
  have hf : (returnBits r + 0x0920 + imm5.toNat) / 2 ^ 5 % 2 ^ 10 * 2 ^ 5 = 0x0920 := by omega
  exact ⟨by omega, hm.trans hf⟩

theorem TableRow.neu (r : Bool) (imm5 : BitVec 5) : TableRow.Statement (.neu r imm5) := by
  intro _
  have hr := TableRow.returnBits_cases r
  have hx := imm5.isLt
  have hm := TableRow.and_field (encodeNat (.neu r imm5)) 5 10
  simp only [encodeNat, TableRow.row] at hm ⊢
  have hf : (returnBits r + 0x0D40 + imm5.toNat) / 2 ^ 5 % 2 ^ 10 * 2 ^ 5 = 0x0D40 := by omega
  exact ⟨by omega, hm.trans hf⟩

theorem TableRow.neuD (r : Bool) (imm5 : BitVec 5) : TableRow.Statement (.neuD r imm5) := by
  intro _
  have hr := TableRow.returnBits_cases r
  have hx := imm5.isLt
  have hm := TableRow.and_field (encodeNat (.neuD r imm5)) 5 10
  simp only [encodeNat, TableRow.row] at hm ⊢
  have hf : (returnBits r + 0x0940 + imm5.toNat) / 2 ^ 5 % 2 ^ 10 * 2 ^ 5 = 0x0940 := by omega
  exact ⟨by omega, hm.trans hf⟩

theorem TableRow.ne (r : Bool) (imm5 : BitVec 5) : TableRow.Statement (.ne r imm5) := by
  intro _
  have hr := TableRow.returnBits_cases r
  have hx := imm5.isLt
  have hm := TableRow.and_field (encodeNat (.ne r imm5)) 5 10
  simp only [encodeNat, TableRow.row] at hm ⊢
  have hf : (returnBits r + 0x0D60 + imm5.toNat) / 2 ^ 5 % 2 ^ 10 * 2 ^ 5 = 0x0D60 := by omega
  exact ⟨by omega, hm.trans hf⟩

theorem TableRow.neD (r : Bool) (imm5 : BitVec 5) : TableRow.Statement (.neD r imm5) := by
  intro _
  have hr := TableRow.returnBits_cases r
  have hx := imm5.isLt
  have hm := TableRow.and_field (encodeNat (.neD r imm5)) 5 10
  simp only [encodeNat, TableRow.row] at hm ⊢
  have hf : (returnBits r + 0x0960 + imm5.toNat) / 2 ^ 5 % 2 ^ 10 * 2 ^ 5 = 0x0960 := by omega
  exact ⟨by omega, hm.trans hf⟩

theorem TableRow.ugt (r : Bool) (imm5 : BitVec 5) : TableRow.Statement (.ugt r imm5) := by
  intro _
  have hr := TableRow.returnBits_cases r
  have hx := imm5.isLt
  have hm := TableRow.and_field (encodeNat (.ugt r imm5)) 5 10
  simp only [encodeNat, TableRow.row] at hm ⊢
  have hf : (returnBits r + 0x0D80 + imm5.toNat) / 2 ^ 5 % 2 ^ 10 * 2 ^ 5 = 0x0D80 := by omega
  exact ⟨by omega, hm.trans hf⟩

theorem TableRow.ugtD (r : Bool) (imm5 : BitVec 5) : TableRow.Statement (.ugtD r imm5) := by
  intro _
  have hr := TableRow.returnBits_cases r
  have hx := imm5.isLt
  have hm := TableRow.and_field (encodeNat (.ugtD r imm5)) 5 10
  simp only [encodeNat, TableRow.row] at hm ⊢
  have hf : (returnBits r + 0x0980 + imm5.toNat) / 2 ^ 5 % 2 ^ 10 * 2 ^ 5 = 0x0980 := by omega
  exact ⟨by omega, hm.trans hf⟩

theorem TableRow.lt (r : Bool) (imm5 : BitVec 5) : TableRow.Statement (.lt r imm5) := by
  intro _
  have hr := TableRow.returnBits_cases r
  have hx := imm5.isLt
  have hm := TableRow.and_field (encodeNat (.lt r imm5)) 5 10
  simp only [encodeNat, TableRow.row] at hm ⊢
  have hf : (returnBits r + 0x0DA0 + imm5.toNat) / 2 ^ 5 % 2 ^ 10 * 2 ^ 5 = 0x0DA0 := by omega
  exact ⟨by omega, hm.trans hf⟩

theorem TableRow.ltD (r : Bool) (imm5 : BitVec 5) : TableRow.Statement (.ltD r imm5) := by
  intro _
  have hr := TableRow.returnBits_cases r
  have hx := imm5.isLt
  have hm := TableRow.and_field (encodeNat (.ltD r imm5)) 5 10
  simp only [encodeNat, TableRow.row] at hm ⊢
  have hf : (returnBits r + 0x09A0 + imm5.toNat) / 2 ^ 5 % 2 ^ 10 * 2 ^ 5 = 0x09A0 := by omega
  exact ⟨by omega, hm.trans hf⟩

theorem TableRow.ult (r : Bool) (imm5 : BitVec 5) : TableRow.Statement (.ult r imm5) := by
  intro _
  have hr := TableRow.returnBits_cases r
  have hx := imm5.isLt
  have hm := TableRow.and_field (encodeNat (.ult r imm5)) 5 10
  simp only [encodeNat, TableRow.row] at hm ⊢
  have hf : (returnBits r + 0x0DC0 + imm5.toNat) / 2 ^ 5 % 2 ^ 10 * 2 ^ 5 = 0x0DC0 := by omega
  exact ⟨by omega, hm.trans hf⟩

theorem TableRow.ultD (r : Bool) (imm5 : BitVec 5) : TableRow.Statement (.ultD r imm5) := by
  intro _
  have hr := TableRow.returnBits_cases r
  have hx := imm5.isLt
  have hm := TableRow.and_field (encodeNat (.ultD r imm5)) 5 10
  simp only [encodeNat, TableRow.row] at hm ⊢
  have hf : (returnBits r + 0x09C0 + imm5.toNat) / 2 ^ 5 % 2 ^ 10 * 2 ^ 5 = 0x09C0 := by omega
  exact ⟨by omega, hm.trans hf⟩

theorem TableRow.gt (r : Bool) (imm5 : BitVec 5) : TableRow.Statement (.gt r imm5) := by
  intro _
  have hr := TableRow.returnBits_cases r
  have hx := imm5.isLt
  have hm := TableRow.and_field (encodeNat (.gt r imm5)) 5 10
  simp only [encodeNat, TableRow.row] at hm ⊢
  have hf : (returnBits r + 0x0DE0 + imm5.toNat) / 2 ^ 5 % 2 ^ 10 * 2 ^ 5 = 0x0DE0 := by omega
  exact ⟨by omega, hm.trans hf⟩

theorem TableRow.gtD (r : Bool) (imm5 : BitVec 5) : TableRow.Statement (.gtD r imm5) := by
  intro _
  have hr := TableRow.returnBits_cases r
  have hx := imm5.isLt
  have hm := TableRow.and_field (encodeNat (.gtD r imm5)) 5 10
  simp only [encodeNat, TableRow.row] at hm ⊢
  have hf : (returnBits r + 0x09E0 + imm5.toNat) / 2 ^ 5 % 2 ^ 10 * 2 ^ 5 = 0x09E0 := by omega
  exact ⟨by omega, hm.trans hf⟩

theorem TableRow.umul (r : Bool) (imm5 : BitVec 5) : TableRow.Statement (.umul r imm5) := by
  intro _
  have hr := TableRow.returnBits_cases r
  have hx := imm5.isLt
  have hm := TableRow.and_field (encodeNat (.umul r imm5)) 5 10
  simp only [encodeNat, TableRow.row] at hm ⊢
  have hf : (returnBits r + 0x0E00 + imm5.toNat) / 2 ^ 5 % 2 ^ 10 * 2 ^ 5 = 0x0E00 := by omega
  exact ⟨by omega, hm.trans hf⟩

theorem TableRow.umulD (r : Bool) (imm5 : BitVec 5) : TableRow.Statement (.umulD r imm5) := by
  intro _
  have hr := TableRow.returnBits_cases r
  have hx := imm5.isLt
  have hm := TableRow.and_field (encodeNat (.umulD r imm5)) 5 10
  simp only [encodeNat, TableRow.row] at hm ⊢
  have hf : (returnBits r + 0x0A00 + imm5.toNat) / 2 ^ 5 % 2 ^ 10 * 2 ^ 5 = 0x0A00 := by omega
  exact ⟨by omega, hm.trans hf⟩

theorem TableRow.smul (r : Bool) (imm5 : BitVec 5) : TableRow.Statement (.smul r imm5) := by
  intro _
  have hr := TableRow.returnBits_cases r
  have hx := imm5.isLt
  have hm := TableRow.and_field (encodeNat (.smul r imm5)) 5 10
  simp only [encodeNat, TableRow.row] at hm ⊢
  have hf : (returnBits r + 0x0E20 + imm5.toNat) / 2 ^ 5 % 2 ^ 10 * 2 ^ 5 = 0x0E20 := by omega
  exact ⟨by omega, hm.trans hf⟩

theorem TableRow.smulD (r : Bool) (imm5 : BitVec 5) : TableRow.Statement (.smulD r imm5) := by
  intro _
  have hr := TableRow.returnBits_cases r
  have hx := imm5.isLt
  have hm := TableRow.and_field (encodeNat (.smulD r imm5)) 5 10
  simp only [encodeNat, TableRow.row] at hm ⊢
  have hf : (returnBits r + 0x0A20 + imm5.toNat) / 2 ^ 5 % 2 ^ 10 * 2 ^ 5 = 0x0A20 := by omega
  exact ⟨by omega, hm.trans hf⟩

theorem TableRow.rsv10010 (r : Bool) (imm5 : BitVec 5) : TableRow.Statement (.rsv10010 r imm5) := by
  intro _
  have hr := TableRow.returnBits_cases r
  have hx := imm5.isLt
  have hm := TableRow.and_field (encodeNat (.rsv10010 r imm5)) 5 10
  simp only [encodeNat, TableRow.row] at hm ⊢
  have hf : (returnBits r + 0x0E40 + imm5.toNat) / 2 ^ 5 % 2 ^ 10 * 2 ^ 5 = 0x0E40 := by omega
  exact ⟨by omega, hm.trans hf⟩

theorem TableRow.rsv10010D (r : Bool) (imm5 : BitVec 5) : TableRow.Statement (.rsv10010D r imm5) := by
  intro _
  have hr := TableRow.returnBits_cases r
  have hx := imm5.isLt
  have hm := TableRow.and_field (encodeNat (.rsv10010D r imm5)) 5 10
  simp only [encodeNat, TableRow.row] at hm ⊢
  have hf : (returnBits r + 0x0A40 + imm5.toNat) / 2 ^ 5 % 2 ^ 10 * 2 ^ 5 = 0x0A40 := by omega
  exact ⟨by omega, hm.trans hf⟩

theorem TableRow.rsv10011 (r : Bool) (imm5 : BitVec 5) : TableRow.Statement (.rsv10011 r imm5) := by
  intro _
  have hr := TableRow.returnBits_cases r
  have hx := imm5.isLt
  have hm := TableRow.and_field (encodeNat (.rsv10011 r imm5)) 5 10
  simp only [encodeNat, TableRow.row] at hm ⊢
  have hf : (returnBits r + 0x0E60 + imm5.toNat) / 2 ^ 5 % 2 ^ 10 * 2 ^ 5 = 0x0E60 := by omega
  exact ⟨by omega, hm.trans hf⟩

theorem TableRow.rsv10011D (r : Bool) (imm5 : BitVec 5) : TableRow.Statement (.rsv10011D r imm5) := by
  intro _
  have hr := TableRow.returnBits_cases r
  have hx := imm5.isLt
  have hm := TableRow.and_field (encodeNat (.rsv10011D r imm5)) 5 10
  simp only [encodeNat, TableRow.row] at hm ⊢
  have hf : (returnBits r + 0x0A60 + imm5.toNat) / 2 ^ 5 % 2 ^ 10 * 2 ^ 5 = 0x0A60 := by omega
  exact ⟨by omega, hm.trans hf⟩

theorem TableRow.and (r : Bool) (imm5 : BitVec 5) : TableRow.Statement (.and r imm5) := by
  intro _
  have hr := TableRow.returnBits_cases r
  have hx := imm5.isLt
  have hm := TableRow.and_field (encodeNat (.and r imm5)) 5 10
  simp only [encodeNat, TableRow.row] at hm ⊢
  have hf : (returnBits r + 0x0E80 + imm5.toNat) / 2 ^ 5 % 2 ^ 10 * 2 ^ 5 = 0x0E80 := by omega
  exact ⟨by omega, hm.trans hf⟩

theorem TableRow.andD (r : Bool) (imm5 : BitVec 5) : TableRow.Statement (.andD r imm5) := by
  intro _
  have hr := TableRow.returnBits_cases r
  have hx := imm5.isLt
  have hm := TableRow.and_field (encodeNat (.andD r imm5)) 5 10
  simp only [encodeNat, TableRow.row] at hm ⊢
  have hf : (returnBits r + 0x0A80 + imm5.toNat) / 2 ^ 5 % 2 ^ 10 * 2 ^ 5 = 0x0A80 := by omega
  exact ⟨by omega, hm.trans hf⟩

theorem TableRow.xor (r : Bool) (imm5 : BitVec 5) : TableRow.Statement (.xor r imm5) := by
  intro _
  have hr := TableRow.returnBits_cases r
  have hx := imm5.isLt
  have hm := TableRow.and_field (encodeNat (.xor r imm5)) 5 10
  simp only [encodeNat, TableRow.row] at hm ⊢
  have hf : (returnBits r + 0x0EA0 + imm5.toNat) / 2 ^ 5 % 2 ^ 10 * 2 ^ 5 = 0x0EA0 := by omega
  exact ⟨by omega, hm.trans hf⟩

theorem TableRow.xorD (r : Bool) (imm5 : BitVec 5) : TableRow.Statement (.xorD r imm5) := by
  intro _
  have hr := TableRow.returnBits_cases r
  have hx := imm5.isLt
  have hm := TableRow.and_field (encodeNat (.xorD r imm5)) 5 10
  simp only [encodeNat, TableRow.row] at hm ⊢
  have hf : (returnBits r + 0x0AA0 + imm5.toNat) / 2 ^ 5 % 2 ^ 10 * 2 ^ 5 = 0x0AA0 := by omega
  exact ⟨by omega, hm.trans hf⟩

theorem TableRow.or (r : Bool) (imm5 : BitVec 5) : TableRow.Statement (.or r imm5) := by
  intro _
  have hr := TableRow.returnBits_cases r
  have hx := imm5.isLt
  have hm := TableRow.and_field (encodeNat (.or r imm5)) 5 10
  simp only [encodeNat, TableRow.row] at hm ⊢
  have hf : (returnBits r + 0x0EC0 + imm5.toNat) / 2 ^ 5 % 2 ^ 10 * 2 ^ 5 = 0x0EC0 := by omega
  exact ⟨by omega, hm.trans hf⟩

theorem TableRow.orD (r : Bool) (imm5 : BitVec 5) : TableRow.Statement (.orD r imm5) := by
  intro _
  have hr := TableRow.returnBits_cases r
  have hx := imm5.isLt
  have hm := TableRow.and_field (encodeNat (.orD r imm5)) 5 10
  simp only [encodeNat, TableRow.row] at hm ⊢
  have hf : (returnBits r + 0x0AC0 + imm5.toNat) / 2 ^ 5 % 2 ^ 10 * 2 ^ 5 = 0x0AC0 := by omega
  exact ⟨by omega, hm.trans hf⟩

theorem TableRow.rsv10111 (r : Bool) (imm5 : BitVec 5) : TableRow.Statement (.rsv10111 r imm5) := by
  intro _
  have hr := TableRow.returnBits_cases r
  have hx := imm5.isLt
  have hm := TableRow.and_field (encodeNat (.rsv10111 r imm5)) 5 10
  simp only [encodeNat, TableRow.row] at hm ⊢
  have hf : (returnBits r + 0x0EE0 + imm5.toNat) / 2 ^ 5 % 2 ^ 10 * 2 ^ 5 = 0x0EE0 := by omega
  exact ⟨by omega, hm.trans hf⟩

theorem TableRow.rsv10111D (r : Bool) (imm5 : BitVec 5) : TableRow.Statement (.rsv10111D r imm5) := by
  intro _
  have hr := TableRow.returnBits_cases r
  have hx := imm5.isLt
  have hm := TableRow.and_field (encodeNat (.rsv10111D r imm5)) 5 10
  simp only [encodeNat, TableRow.row] at hm ⊢
  have hf : (returnBits r + 0x0AE0 + imm5.toNat) / 2 ^ 5 % 2 ^ 10 * 2 ^ 5 = 0x0AE0 := by omega
  exact ⟨by omega, hm.trans hf⟩

theorem TableRow.lsr (r : Bool) (imm5 : BitVec 5) : TableRow.Statement (.lsr r imm5) := by
  intro _
  have hr := TableRow.returnBits_cases r
  have hx := imm5.isLt
  have hm := TableRow.and_field (encodeNat (.lsr r imm5)) 5 10
  simp only [encodeNat, TableRow.row] at hm ⊢
  have hf : (returnBits r + 0x0F00 + imm5.toNat) / 2 ^ 5 % 2 ^ 10 * 2 ^ 5 = 0x0F00 := by omega
  exact ⟨by omega, hm.trans hf⟩

theorem TableRow.lsrD (r : Bool) (imm5 : BitVec 5) : TableRow.Statement (.lsrD r imm5) := by
  intro _
  have hr := TableRow.returnBits_cases r
  have hx := imm5.isLt
  have hm := TableRow.and_field (encodeNat (.lsrD r imm5)) 5 10
  simp only [encodeNat, TableRow.row] at hm ⊢
  have hf : (returnBits r + 0x0B00 + imm5.toNat) / 2 ^ 5 % 2 ^ 10 * 2 ^ 5 = 0x0B00 := by omega
  exact ⟨by omega, hm.trans hf⟩

theorem TableRow.lsl (r : Bool) (imm5 : BitVec 5) : TableRow.Statement (.lsl r imm5) := by
  intro _
  have hr := TableRow.returnBits_cases r
  have hx := imm5.isLt
  have hm := TableRow.and_field (encodeNat (.lsl r imm5)) 5 10
  simp only [encodeNat, TableRow.row] at hm ⊢
  have hf : (returnBits r + 0x0F20 + imm5.toNat) / 2 ^ 5 % 2 ^ 10 * 2 ^ 5 = 0x0F20 := by omega
  exact ⟨by omega, hm.trans hf⟩

theorem TableRow.lslD (r : Bool) (imm5 : BitVec 5) : TableRow.Statement (.lslD r imm5) := by
  intro _
  have hr := TableRow.returnBits_cases r
  have hx := imm5.isLt
  have hm := TableRow.and_field (encodeNat (.lslD r imm5)) 5 10
  simp only [encodeNat, TableRow.row] at hm ⊢
  have hf : (returnBits r + 0x0B20 + imm5.toNat) / 2 ^ 5 % 2 ^ 10 * 2 ^ 5 = 0x0B20 := by omega
  exact ⟨by omega, hm.trans hf⟩

theorem TableRow.asr (r : Bool) (imm5 : BitVec 5) : TableRow.Statement (.asr r imm5) := by
  intro _
  have hr := TableRow.returnBits_cases r
  have hx := imm5.isLt
  have hm := TableRow.and_field (encodeNat (.asr r imm5)) 5 10
  simp only [encodeNat, TableRow.row] at hm ⊢
  have hf : (returnBits r + 0x0F40 + imm5.toNat) / 2 ^ 5 % 2 ^ 10 * 2 ^ 5 = 0x0F40 := by omega
  exact ⟨by omega, hm.trans hf⟩

theorem TableRow.asrD (r : Bool) (imm5 : BitVec 5) : TableRow.Statement (.asrD r imm5) := by
  intro _
  have hr := TableRow.returnBits_cases r
  have hx := imm5.isLt
  have hm := TableRow.and_field (encodeNat (.asrD r imm5)) 5 10
  simp only [encodeNat, TableRow.row] at hm ⊢
  have hf : (returnBits r + 0x0B40 + imm5.toNat) / 2 ^ 5 % 2 ^ 10 * 2 ^ 5 = 0x0B40 := by omega
  exact ⟨by omega, hm.trans hf⟩

theorem TableRow.rsv11011 (r : Bool) (imm5 : BitVec 5) : TableRow.Statement (.rsv11011 r imm5) := by
  intro _
  have hr := TableRow.returnBits_cases r
  have hx := imm5.isLt
  have hm := TableRow.and_field (encodeNat (.rsv11011 r imm5)) 5 10
  simp only [encodeNat, TableRow.row] at hm ⊢
  have hf : (returnBits r + 0x0F60 + imm5.toNat) / 2 ^ 5 % 2 ^ 10 * 2 ^ 5 = 0x0F60 := by omega
  exact ⟨by omega, hm.trans hf⟩

theorem TableRow.rsv11011D (r : Bool) (imm5 : BitVec 5) : TableRow.Statement (.rsv11011D r imm5) := by
  intro _
  have hr := TableRow.returnBits_cases r
  have hx := imm5.isLt
  have hm := TableRow.and_field (encodeNat (.rsv11011D r imm5)) 5 10
  simp only [encodeNat, TableRow.row] at hm ⊢
  have hf : (returnBits r + 0x0B60 + imm5.toNat) / 2 ^ 5 % 2 ^ 10 * 2 ^ 5 = 0x0B60 := by omega
  exact ⟨by omega, hm.trans hf⟩

theorem TableRow.lithi (r : Bool) (imm5 : BitVec 5) : TableRow.Statement (.lithi r imm5) := by
  intro _
  have hr := TableRow.returnBits_cases r
  have hx := imm5.isLt
  have hm := TableRow.and_field (encodeNat (.lithi r imm5)) 5 10
  simp only [encodeNat, TableRow.row] at hm ⊢
  have hf : (returnBits r + 0x0F80 + imm5.toNat) / 2 ^ 5 % 2 ^ 10 * 2 ^ 5 = 0x0F80 := by omega
  exact ⟨by omega, hm.trans hf⟩

theorem TableRow.lithiD (r : Bool) (imm5 : BitVec 5) : TableRow.Statement (.lithiD r imm5) := by
  intro _
  have hr := TableRow.returnBits_cases r
  have hx := imm5.isLt
  have hm := TableRow.and_field (encodeNat (.lithiD r imm5)) 5 10
  simp only [encodeNat, TableRow.row] at hm ⊢
  have hf : (returnBits r + 0x0B80 + imm5.toNat) / 2 ^ 5 % 2 ^ 10 * 2 ^ 5 = 0x0B80 := by omega
  exact ⟨by omega, hm.trans hf⟩

theorem TableRow.rsv11101 (r : Bool) (imm5 : BitVec 5) : TableRow.Statement (.rsv11101 r imm5) := by
  intro _
  have hr := TableRow.returnBits_cases r
  have hx := imm5.isLt
  have hm := TableRow.and_field (encodeNat (.rsv11101 r imm5)) 5 10
  simp only [encodeNat, TableRow.row] at hm ⊢
  have hf : (returnBits r + 0x0FA0 + imm5.toNat) / 2 ^ 5 % 2 ^ 10 * 2 ^ 5 = 0x0FA0 := by omega
  exact ⟨by omega, hm.trans hf⟩

theorem TableRow.rsv11101D (r : Bool) (imm5 : BitVec 5) : TableRow.Statement (.rsv11101D r imm5) := by
  intro _
  have hr := TableRow.returnBits_cases r
  have hx := imm5.isLt
  have hm := TableRow.and_field (encodeNat (.rsv11101D r imm5)) 5 10
  simp only [encodeNat, TableRow.row] at hm ⊢
  have hf : (returnBits r + 0x0BA0 + imm5.toNat) / 2 ^ 5 % 2 ^ 10 * 2 ^ 5 = 0x0BA0 := by omega
  exact ⟨by omega, hm.trans hf⟩

theorem TableRow.rsv11110 (r : Bool) (imm5 : BitVec 5) : TableRow.Statement (.rsv11110 r imm5) := by
  intro _
  have hr := TableRow.returnBits_cases r
  have hx := imm5.isLt
  have hm := TableRow.and_field (encodeNat (.rsv11110 r imm5)) 5 10
  simp only [encodeNat, TableRow.row] at hm ⊢
  have hf : (returnBits r + 0x0FC0 + imm5.toNat) / 2 ^ 5 % 2 ^ 10 * 2 ^ 5 = 0x0FC0 := by omega
  exact ⟨by omega, hm.trans hf⟩

theorem TableRow.rsv11110D (r : Bool) (imm5 : BitVec 5) : TableRow.Statement (.rsv11110D r imm5) := by
  intro _
  have hr := TableRow.returnBits_cases r
  have hx := imm5.isLt
  have hm := TableRow.and_field (encodeNat (.rsv11110D r imm5)) 5 10
  simp only [encodeNat, TableRow.row] at hm ⊢
  have hf : (returnBits r + 0x0BC0 + imm5.toNat) / 2 ^ 5 % 2 ^ 10 * 2 ^ 5 = 0x0BC0 := by omega
  exact ⟨by omega, hm.trans hf⟩

theorem TableRow.rsv11111 (r : Bool) (imm5 : BitVec 5) : TableRow.Statement (.rsv11111 r imm5) := by
  intro _
  have hr := TableRow.returnBits_cases r
  have hx := imm5.isLt
  have hm := TableRow.and_field (encodeNat (.rsv11111 r imm5)) 5 10
  simp only [encodeNat, TableRow.row] at hm ⊢
  have hf : (returnBits r + 0x0FE0 + imm5.toNat) / 2 ^ 5 % 2 ^ 10 * 2 ^ 5 = 0x0FE0 := by omega
  exact ⟨by omega, hm.trans hf⟩

theorem TableRow.rsv11111D (r : Bool) (imm5 : BitVec 5) : TableRow.Statement (.rsv11111D r imm5) := by
  intro _
  have hr := TableRow.returnBits_cases r
  have hx := imm5.isLt
  have hm := TableRow.and_field (encodeNat (.rsv11111D r imm5)) 5 10
  simp only [encodeNat, TableRow.row] at hm ⊢
  have hf : (returnBits r + 0x0BE0 + imm5.toNat) / 2 ^ 5 % 2 ^ 10 * 2 ^ 5 = 0x0BE0 := by omega
  exact ⟨by omega, hm.trans hf⟩

theorem TableRow.nop (r : Bool) : TableRow.Statement (.nop r) := by
  intro _
  revert r
  decide

theorem TableRow.drop (r : Bool) : TableRow.Statement (.drop r) := by
  intro _
  revert r
  decide

theorem TableRow.dup (r : Bool) : TableRow.Statement (.dup r) := by
  intro _
  revert r
  decide

theorem TableRow.swap (r : Bool) : TableRow.Statement (.swap r) := by
  intro _
  revert r
  decide

theorem TableRow.overCell (r : Bool) : TableRow.Statement (.overCell r) := by
  intro _
  revert r
  decide

theorem TableRow.nip (r : Bool) : TableRow.Statement (.nip r) := by
  intro _
  revert r
  decide

theorem TableRow.rdrop (r : Bool) : TableRow.Statement (.rdrop r) := by
  intro _
  revert r
  decide

theorem TableRow.toR (r : Bool) : TableRow.Statement (.toR r) := by
  intro _
  revert r
  decide

theorem TableRow.rFetch (r : Bool) : TableRow.Statement (.rFetch r) := by
  intro _
  revert r
  decide

theorem TableRow.rFrom (r : Bool) : TableRow.Statement (.rFrom r) := by
  intro _
  revert r
  decide

theorem TableRow.tuck1 (r : Bool) : TableRow.Statement (.tuck1 r) := by
  intro _
  revert r
  decide

theorem TableRow.rot1 (r : Bool) : TableRow.Statement (.rot1 r) := by
  intro _
  revert r
  decide

theorem TableRow.nrot1 (r : Bool) : TableRow.Statement (.nrot1 r) := by
  intro _
  revert r
  decide

theorem TableRow.stk (r : Bool) (p : StkPattern) : TableRow.Statement (.stk r p) := by
  intro _
  have hr := TableRow.returnBits_cases r
  have hp := TableRow.encodePattern_lt p
  have hm := TableRow.and_field (encodeNat (.stk r p)) 10 5
  simp only [encodeNat, TableRow.row] at hm ⊢
  have hf : (returnBits r + 0x0400 + encodePattern p) / 2 ^ 10 % 2 ^ 5 * 2 ^ 10 = 0x0400 := by omega
  exact ⟨by omega, hm.trans hf⟩

theorem TableRow.sti (r : Bool) : TableRow.Statement (.sti r) := by
  intro _
  revert r
  decide

theorem TableRow.ldi (r : Bool) : TableRow.Statement (.ldi r) := by
  intro _
  revert r
  decide

theorem TableRow.st (r : Bool) (m8 : BitVec 8) : TableRow.Statement (.st r m8) := by
  intro _
  have hr := TableRow.returnBits_cases r
  have hx := m8.isLt
  have hm := TableRow.and_field (encodeNat (.st r m8)) 8 7
  simp only [encodeNat, TableRow.row] at hm ⊢
  have hf : (returnBits r + 0x0200 + m8.toNat) / 2 ^ 8 % 2 ^ 7 * 2 ^ 8 = 0x0200 := by omega
  exact ⟨by omega, hm.trans hf⟩

theorem TableRow.ld (r : Bool) (m8 : BitVec 8) : TableRow.Statement (.ld r m8) := by
  intro _
  have hr := TableRow.returnBits_cases r
  have hx := m8.isLt
  have hm := TableRow.and_field (encodeNat (.ld r m8)) 8 7
  simp only [encodeNat, TableRow.row] at hm ⊢
  have hf : (returnBits r + 0x0300 + m8.toNat) / 2 ^ 8 % 2 ^ 7 * 2 ^ 8 = 0x0300 := by omega
  exact ⟨by omega, hm.trans hf⟩

theorem TableRow.frwPsd (r : Bool) : TableRow.Statement (.frwPsd r) := by
  intro _
  revert r
  decide

theorem TableRow.frrPsd (r : Bool) : TableRow.Statement (.frrPsd r) := by
  intro _
  revert r
  decide

theorem TableRow.frwRsd (r : Bool) : TableRow.Statement (.frwRsd r) := by
  intro _
  revert r
  decide

theorem TableRow.frrRsd (r : Bool) : TableRow.Statement (.frrRsd r) := by
  intro _
  revert r
  decide

theorem TableRow.frwPc (r : Bool) : TableRow.Statement (.frwPc r) := by
  intro _
  revert r
  decide

theorem TableRow.frrPc (r : Bool) : TableRow.Statement (.frrPc r) := by
  intro _
  revert r
  decide

theorem TableRow.frwIen (r : Bool) : TableRow.Statement (.frwIen r) := by
  intro _
  revert r
  decide

theorem TableRow.frrIen (r : Bool) : TableRow.Statement (.frrIen r) := by
  intro _
  revert r
  decide

theorem TableRow.frwKeyQ (r : Bool) : TableRow.Statement (.frwKeyQ r) := by
  intro _
  revert r
  decide

theorem TableRow.frrKeyQ (r : Bool) : TableRow.Statement (.frrKeyQ r) := by
  intro _
  revert r
  decide

theorem TableRow.frwEmitQ (r : Bool) : TableRow.Statement (.frwEmitQ r) := by
  intro _
  revert r
  decide

theorem TableRow.frrEmitQ (r : Bool) : TableRow.Statement (.frrEmitQ r) := by
  intro _
  revert r
  decide

theorem TableRow.frwKeyEmit (r : Bool) : TableRow.Statement (.frwKeyEmit r) := by
  intro _
  revert r
  decide

theorem TableRow.frrKeyEmit (r : Bool) : TableRow.Statement (.frrKeyEmit r) := by
  intro _
  revert r
  decide

theorem TableRow.frw (r : Bool) (fadr : BitVec 8) : TableRow.Statement (.frw r fadr) := by
  intro _
  have hr := TableRow.returnBits_cases r
  have hx := fadr.isLt
  have hm := TableRow.and_field (encodeNat (.frw r fadr)) 8 7
  simp only [encodeNat, TableRow.row] at hm ⊢
  have hf : (returnBits r + 0x0000 + fadr.toNat) / 2 ^ 8 % 2 ^ 7 * 2 ^ 8 = 0x0000 := by omega
  exact ⟨by omega, hm.trans hf⟩

theorem TableRow.frr (r : Bool) (fadr : BitVec 8) : TableRow.Statement (.frr r fadr) := by
  intro _
  have hr := TableRow.returnBits_cases r
  have hx := fadr.isLt
  have hm := TableRow.and_field (encodeNat (.frr r fadr)) 8 7
  simp only [encodeNat, TableRow.row] at hm ⊢
  have hf : (returnBits r + 0x0100 + fadr.toNat) / 2 ^ 8 % 2 ^ 7 * 2 ^ 8 = 0x0100 := by omega
  exact ⟨by omega, hm.trans hf⟩

end Sys2Proof.Laws
end

