-- ==== Sys2Proof/Tests/Slice0.lean ====
section
/-!
SUPPORT. Small tests: what well-formedness refuses, the words of every row of spec/opcode_table.json, single steps
of spec/95_test_vectors.md, and for every obligation with hypotheses a state and operands that meet them.
-/

set_option Elab.async false

namespace Sys2Proof.Tests

open Sys2Proof.Machine

/-! ## Well-formedness -/

theorem test_ill_formed_refused :
    [Instr.jump 0x3FFF#14, .call 0x3FFF#14, .lithi false 0#5, .lithiD true 0#5, .stk false .nop,
      .stk true .drop, .stk false .dup, .stk false .swap, .stk false .over, .stk false .nip,
      .stk false .rdrop, .stk false .toR, .stk false .rFetch, .stk false .rFrom, .stk false .tuck1,
      .stk false .rot1, .stk false .nrot1, .st false 0xFF#8, .ld false 0xFF#8, .frw false 0x06#8,
      .frr false 0x00#8].all (fun i => !i.wellFormed) = true := by decide

theorem test_well_formed_neighbours :
    [Instr.jump 0x3FFE#14, .call 0x0000#14, .lithi false 1#5, .lithiD true 31#5,
      .stk false ⟨false, .none, .exchange, .none, .none, false⟩, .st false 0xFE#8, .ld false 0x00#8,
      .frw false 0x07#8, .frr false 0xFF#8].all (fun i => i.wellFormed) = true := by decide

/-! ## Decoding: words written from the encodings of spec/30_encoding.md and 95 section 2.1 -/

theorem test_decode_jump_branch_literal :
    [(0xFFFF#16, Instr.jumpi), (0x7FFF#16, Instr.calli), (0xC000#16, Instr.jump 0#14),
      (0xFFFE#16, Instr.jump 0x3FFE#14), (0x4000#16, Instr.call 0#14), (0x7FFE#16, Instr.call 0x3FFE#14),
      (0x2000#16, Instr.brz 0#13), (0x3FFF#16, Instr.brz 0x1FFF#13), (0x3000#16, Instr.brz 0x1000#13),
      (0x2FFF#16, Instr.brz 0x0FFF#13), (0xA000#16, Instr.brzReturn 0#13),
      (0xBFFF#16, Instr.brzReturn 0x1FFF#13), (0x1000#16, Instr.lit false 0#12),
      (0x17FF#16, Instr.lit false 0x7FF#12), (0x1800#16, Instr.lit false 0x800#12),
      (0x9FFF#16, Instr.lit true 0xFFF#12)].all
      (fun c => decodeWord c.1 == c.2 && encode c.2 == c.1) = true := by decide

theorem test_decode_alu_single :
    [(0x0C00#16, Instr.sum false 0#5), (0x8C21#16, Instr.abs true 1#5),
      (0x0C50#16, Instr.difr false 16#5), (0x8C7F#16, Instr.dif true 31#5),
      (0x0C80#16, Instr.umin false 0#5), (0x8CA1#16, Instr.max true 1#5),
      (0x0CD0#16, Instr.umax false 16#5), (0x8CFF#16, Instr.min true 31#5),
      (0x0D00#16, Instr.equ false 0#5), (0x8D21#16, Instr.eq true 1#5), (0x0D50#16, Instr.neu false 16#5),
      (0x8D7F#16, Instr.ne true 31#5), (0x0D80#16, Instr.ugt false 0#5), (0x8DA1#16, Instr.lt true 1#5),
      (0x0DD0#16, Instr.ult false 16#5), (0x8DFF#16, Instr.gt true 31#5),
      (0x0E00#16, Instr.umul false 0#5), (0x8E21#16, Instr.smul true 1#5),
      (0x0E50#16, Instr.rsv10010 false 16#5), (0x8E7F#16, Instr.rsv10011 true 31#5),
      (0x0E80#16, Instr.and false 0#5), (0x8EA1#16, Instr.xor true 1#5), (0x0ED0#16, Instr.or false 16#5),
      (0x8EFF#16, Instr.rsv10111 true 31#5), (0x0F00#16, Instr.lsr false 0#5),
      (0x8F21#16, Instr.lsl true 1#5), (0x0F50#16, Instr.asr false 16#5),
      (0x8F7F#16, Instr.rsv11011 true 31#5), (0x0F81#16, Instr.lithi false 1#5),
      (0x8FA1#16, Instr.rsv11101 true 1#5), (0x0FD0#16, Instr.rsv11110 false 16#5),
      (0x8FFF#16, Instr.rsv11111 true 31#5)].all
      (fun c => decodeWord c.1 == c.2 && encode c.2 == c.1) = true := by decide

theorem test_decode_alu_double :
    [(0x8800#16, Instr.sumD true 0#5), (0x0821#16, Instr.absD false 1#5),
      (0x8850#16, Instr.difrD true 16#5), (0x087F#16, Instr.difD false 31#5),
      (0x8880#16, Instr.uminD true 0#5), (0x08A1#16, Instr.maxD false 1#5),
      (0x88D0#16, Instr.umaxD true 16#5), (0x08FF#16, Instr.minD false 31#5),
      (0x8900#16, Instr.equD true 0#5), (0x0921#16, Instr.eqD false 1#5),
      (0x8950#16, Instr.neuD true 16#5), (0x097F#16, Instr.neD false 31#5),
      (0x8980#16, Instr.ugtD true 0#5), (0x09A1#16, Instr.ltD false 1#5),
      (0x89D0#16, Instr.ultD true 16#5), (0x09FF#16, Instr.gtD false 31#5),
      (0x8A00#16, Instr.umulD true 0#5), (0x0A21#16, Instr.smulD false 1#5),
      (0x8A50#16, Instr.rsv10010D true 16#5), (0x0A7F#16, Instr.rsv10011D false 31#5),
      (0x8A80#16, Instr.andD true 0#5), (0x0AA1#16, Instr.xorD false 1#5),
      (0x8AD0#16, Instr.orD true 16#5), (0x0AFF#16, Instr.rsv10111D false 31#5),
      (0x8B00#16, Instr.lsrD true 0#5), (0x0B21#16, Instr.lslD false 1#5),
      (0x8B50#16, Instr.asrD true 16#5), (0x0B7F#16, Instr.rsv11011D false 31#5),
      (0x8B81#16, Instr.lithiD true 1#5), (0x0BA1#16, Instr.rsv11101D false 1#5),
      (0x8BD0#16, Instr.rsv11110D true 16#5), (0x0BFF#16, Instr.rsv11111D false 31#5)].all
      (fun c => decodeWord c.1 == c.2 && encode c.2 == c.1) = true := by decide

theorem test_decode_lithi_without_immediate :
    [(0x0F80#16, Instr.lithiStackForm false true), (0x0B80#16, Instr.lithiStackForm false false),
      (0x8F80#16, Instr.lithiStackForm true true), (0x8B80#16, Instr.lithiStackForm true false)].all
      (fun c => decodeWord c.1 == c.2 && encode c.2 == c.1) = true := by decide

theorem test_decode_stack :
    [(0x0400#16, Instr.nop false), (0x8400#16, Instr.nop true), (0x06A8#16, Instr.drop false),
      (0x0750#16, Instr.dup false), (0x0418#16, Instr.swap false), (0x8758#16, Instr.overCell true),
      (0x06A0#16, Instr.nip false), (0x0401#16, Instr.rdrop false), (0x06AB#16, Instr.toR false),
      (0x0754#16, Instr.rFetch false), (0x8755#16, Instr.rFrom true), (0x07C0#16, Instr.tuck1 false),
      (0x041C#16, Instr.rot1 false), (0x04E0#16, Instr.nrot1 false),
      (0x0460#16, Instr.stk false ⟨false, .none, .exchange, .none, .none, false⟩),
      (0x07FF#16, Instr.stk false ⟨true, .exchange, .exchange, .exchange, .exchange, true⟩),
      (0x8602#16, Instr.stk true ⟨true, .none, .none, .none, .up, false⟩),
      (0x0505#16, Instr.stk false ⟨false, .down, .none, .none, .down, true⟩),
      (0x0448#16, Instr.stk false ⟨false, .none, .down, .up, .none, false⟩)].all
      (fun c => decodeWord c.1 == c.2 && encode c.2 == c.1) = true := by decide

theorem test_decode_memory_function :
    [(0x0200#16, Instr.st false 0#8), (0x82FE#16, Instr.st true 0xFE#8), (0x02FF#16, Instr.sti false),
      (0x0310#16, Instr.ld false 0x10#8), (0x83FF#16, Instr.ldi true), (0x0000#16, Instr.frwPsd false),
      (0x8000#16, Instr.frwPsd true), (0x0100#16, Instr.frrPsd false), (0x0001#16, Instr.frwRsd false),
      (0x0101#16, Instr.frrRsd false), (0x0002#16, Instr.frwPc false), (0x8102#16, Instr.frrPc true),
      (0x0003#16, Instr.frwIen false), (0x0103#16, Instr.frrIen false), (0x0004#16, Instr.frwKeyQ false),
      (0x0104#16, Instr.frrKeyQ false), (0x0005#16, Instr.frwEmitQ false),
      (0x0105#16, Instr.frrEmitQ false), (0x0006#16, Instr.frwKeyEmit false),
      (0x0106#16, Instr.frrKeyEmit false), (0x0007#16, Instr.frw false 0x07#8),
      (0x01FF#16, Instr.frr false 0xFF#8)].all
      (fun c => decodeWord c.1 == c.2 && encode c.2 == c.1) = true := by decide

theorem test_decode_bytes_needs_a_word :
    decode .little [] = .error .noBytes ∧ decode .little [0x1F#8] = .error .halfWord ∧
      decode .little [0x05#8, 0x10#8, 0x00#8] = .ok (.lit false 5#12, [0x00#8]) ∧
      decode .big [0x10#8, 0x05#8] = .ok (.lit false 5#12, []) := by decide

theorem test_decode_table_word :
    decodeTableWord 16 0x0EBF = some (.xor false 31#5) ∧ decodeTableWord 16 0x06AB = some (.toR false) := by
  decide

/-! ## Single steps of spec/95_test_vectors.md (stacks here top first) -/

/-- A machine with the default parameters at 0x0100 with these stacks. -/
def at0100 (ps rs : List Cell) : State := { State.reset with pc := 0x0100#16, ps := ps, rs := rs }

/-- The program counter and the stacks after one step of a word placed at `pc`. -/
def stepsTo (w : Nat) (s : State) : Option (Cell × List Cell × List Cell) :=
  match step (s.withFetchWord 16 w) with
  | .next t => some (t.pc, t.ps, t.rs)
  | _ => none

/-- The parameter stack after one word on this one. -/
def leaves (w : Nat) (ps : List Cell) : Option (List Cell) := (stepsTo w (at0100 ps [])).map (·.2.1)

/-- The low cell of a double-cell result after one word on this stack. -/
def leavesLow (w : Nat) (ps : List Cell) : Option Cell := (leaves w ps).bind (·[1]?)

/-- 95 section 2.6, R153 to R156. -/
theorem test_sums_and_differences :
    [(0x0C00, [0x0001#16, 0xFFFF#16], [0x0000#16]), (0x0C00, [0x0005#16], [0xFFFC#16, 0x0005#16]),
      (0x0C1F, [0xFFF0#16], [0x000F#16]), (0x0C30, [0x8000#16], [0x8000#16]),
      (0x0C30, [0xFFFB#16], [0x0005#16]), (0x0C40, [0x0002#16, 0x0007#16], [0xFFFB#16]),
      (0x0C41, [0x0000#16], [0xFFFF#16]), (0x0C60, [0x0002#16, 0x0007#16], [0x0005#16]),
      (0x0C60, [0x0001#16, 0x0000#16], [0xFFFF#16]), (0x0C70, [0x8000#16], [0x8000#16])].all
      (fun v => leaves v.1 v.2.1 == some v.2.2) = true := by decide

/-- 95 section 2.6, R157 to R160. -/
theorem test_minima_and_maxima :
    [(0x0C80, [0xFFFF#16, 0x0001#16], [0x0001#16]), (0x0CA0, [0x0001#16, 0xFFFF#16], [0x0001#16]),
      (0x0CA0, [0x7FFF#16, 0x8000#16], [0x7FFF#16]), (0x0CC0, [0xFFFF#16, 0x0001#16], [0xFFFF#16]),
      (0x0CE0, [0x0001#16, 0xFFFF#16], [0xFFFF#16]), (0x0CE0, [0x0003#16, 0x0003#16], [0x0003#16])].all
      (fun v => leaves v.1 v.2.1 == some v.2.2) = true := by decide

/-- 95 section 2.6, R161 to R168. -/
theorem test_comparisons :
    [(0x0D00, [0x0002#16, 0x0002#16], [0xFFFF#16]), (0x0D00, [0x0003#16, 0x0002#16], [0x0000#16]),
      (0x0D30, [0x0000#16], [0xFFFF#16]), (0x0D30, [0x8000#16], [0x0000#16]),
      (0x0D40, [0x0002#16, 0x0001#16], [0xFFFF#16]), (0x0D70, [0x0000#16], [0x0000#16]),
      (0x0D80, [0xFFFF#16, 0x0001#16], [0x0000#16]), (0x0D80, [0x0001#16, 0xFFFF#16], [0xFFFF#16]),
      (0x0DA0, [0x0001#16, 0xFFFF#16], [0xFFFF#16]), (0x0DA0, [0x8000#16, 0x7FFF#16], [0x0000#16]),
      (0x0DC0, [0xFFFF#16, 0x0001#16], [0xFFFF#16]), (0x0DE0, [0xFFFF#16, 0x0001#16], [0xFFFF#16]),
      (0x0DF0, [0x8000#16], [0xFFFF#16]), (0x0DF0, [0x0000#16], [0x0000#16])].all
      (fun v => leaves v.1 v.2.1 == some v.2.2) = true := by decide

/-- 95 section 2.6, R169 and R170. -/
theorem test_products :
    [(0x0E00, [0xFFFF#16, 0xFFFF#16], [0x0001#16]),
      (0x0A00, [0xFFFF#16, 0xFFFF#16], [0xFFFE#16, 0x0001#16]),
      (0x0A00, [0x012C#16, 0x012C#16], [0x0001#16, 0x5F90#16]),
      (0x0A20, [0x0003#16, 0xFFFE#16], [0xFFFF#16, 0xFFFA#16]),
      (0x0A20, [0x8000#16, 0x8000#16], [0x4000#16, 0x0000#16]),
      (0x0A20, [0x7FFF#16, 0x8000#16], [0xC000#16, 0x8000#16]),
      (0x0A21, [0x8000#16], [0xFFFF#16, 0x8000#16]), (0x0A3F, [0x0005#16], [0xFFFF#16, 0xFFFB#16])].all
      (fun v => leaves v.1 v.2.1 == some v.2.2) = true := by decide

/-- 95 section 2.6, R171 to R173. -/
theorem test_logic :
    [(0x0E80, [0xFF00#16, 0xF0F0#16], [0xF000#16]), (0x0E90, [0x1234#16], [0x1230#16]),
      (0x0EA0, [0x0FF0#16, 0xFF00#16], [0xF0F0#16]), (0x0EBF, [0x1234#16], [0xEDCB#16]),
      (0x0EC0, [0x000F#16, 0x00F0#16], [0x00FF#16]), (0x0EDF, [0x0100#16], [0x011F#16])].all
      (fun v => leaves v.1 v.2.1 == some v.2.2) = true := by decide

/-- 95 section 2.6, R174 to R176. -/
theorem test_shifts :
    [(0x0F00, [0x000F#16, 0x8000#16], [0x0001#16]), (0x0F00, [0x0010#16, 0x8000#16], [0x0000#16]),
      (0x0F1F, [0x8000#16], [0x0000#16]), (0x0F20, [0x0004#16, 0x0001#16], [0x0010#16]),
      (0x0F21, [0xC000#16], [0x8000#16]), (0x0F30, [0x0001#16], [0x0000#16]),
      (0x0F41, [0xFFFC#16], [0xFFFE#16]), (0x0F41, [0xFFFF#16], [0xFFFF#16]),
      (0x0F40, [0x0002#16, 0xFFF0#16], [0xFFFC#16]), (0x0F4F, [0x8000#16], [0xFFFF#16]),
      (0x0F4F, [0x7FFF#16], [0x0000#16])].all
      (fun v => leaves v.1 v.2.1 == some v.2.2) = true := by decide

/-- 95 section 2.6, R177. -/
theorem test_lithi :
    [(0x0F91, [0x0234#16], [0x1234#16]), (0x0F81, [0xF234#16], [0x1234#16]),
      (0x0B9F, [0x0FFF#16], [0xFFFF#16, 0xFFFF#16]), (0x0B81, [0x0FFF#16], [0x0000#16, 0x1FFF#16])].all
      (fun v => leaves v.1 v.2.1 == some v.2.2) = true := by decide

/-- 95 section 2.6, R179. -/
theorem test_reserved_operators :
    [(0x0FC0, [0x0002#16, 0x0001#16], [0xFFF3#16, 0x0002#16, 0x0001#16]), (0x0A5F, [], [0xFFF3#16]),
      (0x0A40, [0x0002#16, 0x0001#16], [0xFFF3#16, 0x0002#16, 0x0001#16]), (0x0E60, [], [0xFFF3#16])].all
      (fun v => leaves v.1 v.2.1 == some v.2.2) = true := by decide

/-- 95 section 2.6: the low cell of a double-cell result whose upper cell is free (R152). -/
theorem test_double_low_cells :
    leavesLow 0x0800 [0x0002#16, 0x0001#16] = some 0x0003#16 ∧ leavesLow 0x0801 [0x0007#16] = some 0x0008#16 ∧
      leavesLow 0x0900 [0x0002#16, 0x0002#16] = some 0xFFFF#16 := by decide

/-- 95 section 2.5. -/
theorem test_literals :
    [(0x1000, [], [0x0000#16]), (0x17FF, [], [0x07FF#16]), (0x1800, [], [0xF800#16]),
      (0x1FFF, [0x0004#16], [0xFFFF#16, 0x0004#16])].all
      (fun v => leaves v.1 v.2.1 == some v.2.2) = true := by decide

/-- 95 section 2.2. -/
theorem test_return :
    [(0x8400, at0100 [0x0005#16] [0x0123#16], 0x0123#16, [0x0005#16], []),
      (0x8400, at0100 [0x0005#16] [], 0x0000#16, [0xFFFA#16, 0x0005#16], []),
      (0x8C00, at0100 [0x0003#16, 0x0002#16] [0x0041#16], 0x0041#16, [0x0005#16], []),
      (0x8C00, at0100 [] [0x0041#16], 0x0000#16, [0xFFFC#16], [0x0041#16]),
      (0x8C00, at0100 [0x0003#16, 0x0002#16] [], 0x0000#16, [0xFFFA#16, 0x0003#16, 0x0002#16], []),
      (0x8102, at0100 [] [0x0041#16], 0x0041#16, [0x0100#16], [])].all
      (fun v => stepsTo v.1 v.2.1 == some v.2.2) = true := by decide

/-- 95 sections 2.3 and 2.4. -/
theorem test_jump_call_branch :
    [(0xC123, at0100 [0x0001#16] [0x0002#16], 0x0123#16, [0x0001#16], [0x0002#16]),
      (0xFFFF, at0100 [0xABCD#16] [], 0xABCD#16, [], []),
      (0xFFFF, at0100 [] [], 0x0000#16, [0xFFFC#16], []),
      (0x4123, at0100 [] [], 0x0123#16, [], [0x0101#16]),
      (0x7FFF, at0100 [0x2000#16] [], 0x2000#16, [], [0x0101#16]),
      (0x2003, at0100 [0x0000#16] [], 0x0104#16, [], []),
      (0x2003, at0100 [0x0007#16] [], 0x0101#16, [], []),
      (0x3FFF, at0100 [0x0000#16, 0x0009#16] [], 0x0100#16, [0x0009#16], []),
      (0x3000, at0100 [0x0000#16] [], 0xF101#16, [], []),
      (0x2003, at0100 [0x8000#16] [], 0x0101#16, [], [])].all
      (fun v => stepsTo v.1 v.2.1 == some v.2.2) = true := by decide

/-- R213 to R222. -/
theorem test_named_stack_words :
    [(0x0400, at0100 [0x0001#16] [], 0x0101#16, [0x0001#16], []),
      (0x06A8, at0100 [0x0001#16] [], 0x0101#16, [], []),
      (0x0750, at0100 [0x0001#16] [], 0x0101#16, [0x0001#16, 0x0001#16], []),
      (0x0418, at0100 [0x0002#16, 0x0001#16] [], 0x0101#16, [0x0001#16, 0x0002#16], []),
      (0x0758, at0100 [0x0002#16, 0x0001#16] [], 0x0101#16, [0x0001#16, 0x0002#16, 0x0001#16], []),
      (0x06A0, at0100 [0x0002#16, 0x0001#16] [], 0x0101#16, [0x0002#16], []),
      (0x0401, at0100 [0x0001#16] [0x0002#16], 0x0101#16, [0x0001#16], []),
      (0x06AB, at0100 [0x0001#16] [0x0002#16], 0x0101#16, [], [0x0001#16, 0x0002#16]),
      (0x0754, at0100 [0x0001#16] [0x0002#16], 0x0101#16, [0x0002#16, 0x0001#16], [0x0002#16]),
      (0x0755, at0100 [0x0001#16] [0x0002#16], 0x0101#16, [0x0002#16, 0x0001#16], [])].all
      (fun v => stepsTo v.1 v.2.1 == some v.2.2) = true := by decide

/-- 95 section 1.4 (Table 2-3). -/
theorem test_stack_underflow :
    [(0x06A8, at0100 [] [], 0x0000#16, [0xFFFC#16], []),
      (0x06A0, at0100 [0x0001#16] [], 0x0000#16, [0xFFFC#16, 0x0001#16], []),
      (0x0418, at0100 [0x0001#16] [], 0x0000#16, [0xFFFC#16, 0x0001#16], []),
      (0x0460, at0100 [0x0002#16, 0x0001#16] [], 0x0000#16, [0xFFFC#16, 0x0002#16, 0x0001#16], []),
      (0x06AB, at0100 [] [], 0x0000#16, [0xFFFC#16], []),
      (0x0755, at0100 [] [], 0x0000#16, [0xFFFA#16], [])].all
      (fun v => stepsTo v.1 v.2.1 == some v.2.2) = true := by decide

/-- 0x0460 exchanges PS1 and PS2 (R201, R205), here with a full upper stack and one cell below it. -/
theorem test_general_pattern : leaves 0x0460 [1#16, 2#16, 3#16, 4#16, 5#16] =
    some [1#16, 3#16, 2#16, 4#16, 5#16] := by decide

/-- 95 section 1.4, R210 to R212: the ROT extension. -/
theorem test_rot_extension :
    let rot := fun w ps => stepsTo w { at0100 ps [] with cfg := { extRot := true } }
    rot 0x07C0 [2#16, 1#16] = some (0x0101#16, [2#16, 1#16, 2#16], []) ∧
      rot 0x041C [3#16, 2#16, 1#16] = some (0x0101#16, [1#16, 3#16, 2#16], []) ∧
      rot 0x04E0 [3#16, 2#16, 1#16] = some (0x0101#16, [2#16, 1#16, 3#16], []) ∧
      rot 0x041C [2#16, 1#16] = some (0x0000#16, [0xFFFC#16, 2#16, 1#16], []) := by decide

/-- The words without meaning are refused by name (R122, R137, R178, R204, R248, R255). -/
theorem test_refused_words :
    [(0xA003, Refusal.branchWithReturnBit), (0x0F80, .lithiWithoutImmediate), (0x07FF, .reservedPattern),
      (0x07C0, .reservedPattern), (0x86AB, .returnBitOnReturnStackUse), (0x8001, .returnBitOnReturnStackUse),
      (0x0002, .readOnlyRegister), (0x0004, .readOnlyRegister), (0x0005, .readOnlyRegister)].all
      (fun v => match step ((at0100 [] []).withFetchWord 16 v.1) with
        | .refused e => e == v.2
        | _ => false) = true := by decide

/-- A store and the load of the same word (R231 to R234), with the default window 0xFF00. -/
theorem test_store_then_load :
    (match step ((at0100 [0x1234#16, 0xBEEF#16] []).withFetchWord 16 0x02FF) with
      | .next t => (Memory.byte? t.mem 0x2468, Memory.byte? t.mem 0x2469, t.ps)
      | _ => (none, none, [])) = (some 0xEF#8, some 0xBE#8, []) ∧
      (match step ((((at0100 [0x0007#16] []).putWord 0xFF10#16 0xBEEF#16)).withFetchWord 16 0x0310) with
      | .next t => t.ps
      | _ => []) = [0xBEEF#16, 0x0007#16] := by decide

/-- A refused read enters address out of range with its operand still there (R236, R281). -/
theorem test_data_fault :
    stepsTo 0x03FF { at0100 [0x2000#16] [] with cfg := { regions :=
      [{ lo := 0x2000#16, hi := 0x2FFF#16, denyFetch := true, denyRead := true, denyWrite := true,
         device := false }] } } = some (0x0000#16, [0xFFF7#16, 0x2000#16], []) := by decide

/-- The depth registers (R243 to R246), and what an absent register raises (R256). -/
theorem test_function_registers :
    leaves 0x0100 [7#16, 8#16] = some [2#16, 7#16, 8#16] ∧ leaves 0x0000 [0#16, 8#16] = some [] ∧
      leaves 0x0000 [1#16, 8#16] = some [8#16] ∧ leaves 0x0102 [] = some [0x0100#16] ∧
      leaves 0x0103 [] = some [0x0000#16] ∧ leaves 0x0104 [] = some [0x0000#16] ∧
      leaves 0x0105 [] = some [0xFFFF#16] ∧ leaves 0x0007 [1#16] = some [0xFFF3#16, 1#16] ∧
      stepsTo 0x0001 (at0100 [0#16] [1#16, 2#16]) = some (0x0101#16, [], []) := by decide

/-- KEY takes a datum or waits (R253); EMIT gives one (R254); IEN is written (R250). -/
theorem test_devices :
    stepsTo 0x0106 { at0100 [] [] with keyQueue := [0x0041#16] } = some (0x0101#16, [0x0041#16], []) ∧
      stepsTo 0x0106 (at0100 [] []) = some (0x0100#16, [], []) ∧
      (match step ((at0100 [0x0042#16] []).withFetchWord 16 0x0006) with
        | .next t => t.emitted
        | _ => []) = [0x0042#16] ∧
      (match step ((at0100 [0xFFFF#16] []).withFetchWord 16 0x0003) with
        | .next t => t.ien
        | _ => false) = true := by decide

/-- A bus that holds a store leaves everything but the wait, with interrupts blocked; once it answers, the store is
made (R74, U18). -/
theorem test_store_waits_for_the_bus :
    let s := { (at0100 [0x2000#16, 0xBEEF#16] []).withFetchWord 16 0x02FF with dataAnswer := .held }
    (match step s with
      | .next t => (t.pc, t.ps, t.waiting, t.mem == s.mem)
      | _ => (0#16, [], .no, false)) = (0x0100#16, [0x2000#16, 0xBEEF#16], .blocked, true) ∧
      (match step { s with waiting := .blocked, ir := 0x02FF#16, dataAnswer := .answered, ien := true,
                           irqReq := 0x0040#16 } with
        | .next t => (t.pc, t.ps, Memory.byte? t.mem 0x4000)
        | _ => (0#16, [], none)) = (0x0101#16, [], some 0xEF#8) := by decide

/-- A retry leaves interrupts open, for a data access and for a fetch; a bus that holds the fetch does not (R74). -/
theorem test_interrupt_and_the_bus :
    let s := { at0100 [0x2000#16] [] with ien := true, irqReq := 0x0040#16, ir := 0x03FF#16 }
    [{ s with waiting := .retried, dataAnswer := .retry }, { s with fetchAnswer := .retry }].all
      (fun s => match step s with
        | .next t => t.pc == 0x0040#16 && t.rs == [0x0100#16] && t.waiting == .no
        | _ => false) = true ∧
      (match step { s with fetchAnswer := .held } with
        | .next t => t.pc == 0x0100#16 && t.ien
        | _ => false) = true := by decide

/-- The two words another master's write may come too late for: at a boundary pc and pc + 1, while the instruction at
pc waits pc + 1 and pc + 2 (R47, R73). -/
theorem test_bus_write_to_fetched_words :
    ([0x00FF#16, 0x0100#16, 0x0101#16, 0x0102#16, 0x0103#16].map fun a =>
        (((at0100 [] []).busWrite a 0xBEEF#16).stash.length,
          ({ at0100 [] [] with waiting := .blocked }.busWrite a 0xBEEF#16).stash.length)) =
      [(0, 0), (1, 0), (1, 1), (0, 1), (0, 0)] := by decide

/-- A datum that the device withdraws is no longer there to read (91 N15, R253). -/
theorem test_withdrawn_datum :
    stepsTo 0x0106 { at0100 [] [] with
      keyQueue := [0x0041#16]
      env := [{ reset := false, irqReq := 0x0000#16, keyWithdrawn := 1, keyArrivals := [], outReady := true,
                fetchAnswer := .answered, dataAnswer := .answered, busWrites := [] }] } =
      some (0x0100#16, [], []) := by decide

/-! ## Witnesses: for every obligation with hypotheses, a state and operands that meet them -/

/-- Enough cells on both stacks, every extension present, room to grow. -/
def roomy : State :=
  { at0100 [1#16, 2#16, 3#16, 4#16, 5#16, 6#16] [7#16, 8#16] with cfg := { extRot := true } }

/-- The smallest machine, its lower stack full: nothing more fits. -/
def crowded : State :=
  { at0100 (List.replicate 36 9#16) [7#16] with
    cfg := { spWidth := 5, ipsDepth := 3, ipsBypass := true, irsDepth := 3, irsBypass := true, extRot := true,
             lsCapacity := 32 } }

/-- The same machine with an empty return stack. -/
def crowdedPs : State := { crowded with rs := [] }

/-- The same machine one cell below: exactly one more fits. -/
def brimming : State := { crowded with ps := List.replicate 35 9#16 }

/-- That machine with one usable cell of its lower stack held back: one more cell may fit or not. -/
def between : State := { brimming with cfg := { crowded.cfg with lsCapacity := 31 } }

/-- The smallest machine with its lower stack filled from the other side, up to `n` return addresses. -/
def tall (n : Nat) : State := { crowded with ps := List.replicate 4 9#16, rs := List.replicate n 7#16 }

/-- Nothing on either stack. -/
def bare : State := at0100 [] []

/-- A machine without the optional registers. -/
def plain : State := { roomy with cfg := { extPc := false, extIrq := false, extKey := false } }

/-- A platform that refuses every access to the upper half of memory. -/
def walled : State :=
  { roomy with
    cfg := { regions := [{ lo := 0x8000#16, hi := 0xFFFF#16, denyFetch := true, denyRead := true,
                           denyWrite := true, device := false }] } }

/-- An environment that does this before the next step. -/
def sample (reset : Bool) (irqReq : Cell) : EnvSample where
  reset := reset
  irqReq := irqReq
  keyWithdrawn := 1
  keyArrivals := [0x0041#16]
  outReady := false
  fetchAnswer := .answered
  dataAnswer := .answered
  busWrites := [(0x3000#16, 0x1234#16)]

/-- The three zones of R287 at their bounds, where the parameter stack grows: room at `LS_CAPACITY` deep cells, none
at one more, and one of the two in between. -/
theorem witness_zones_at_their_bounds :
    deepCells 36 1 = brimming.cfg.lsCapacity ∧ brimming.roomFor (brimming.ps.length + 1) brimming.rs.length ∧
      deepCells 37 1 = crowded.cfg.lsCapacity + 1 ∧
      crowded.noRoomFor (crowded.ps.length + 1) crowded.rs.length ∧
      deepCells 36 1 = between.cfg.lsCapacity + 1 ∧
      ¬between.roomFor (between.ps.length + 1) between.rs.length ∧
      ¬between.noRoomFor (between.ps.length + 1) between.rs.length := by decide

theorem witness_decode_of_encode :
    (Instr.sum true 31#5).wellFormed = true ∧ (Instr.jump 0x3FFE#14).wellFormed = true ∧
      (Instr.frr true 0xFF#8).wellFormed = true := by decide

/-- A machine about to run the word 0x1005, LIT 5. -/
def placed : State := { roomy with stash := [(0x0101#16, 0x0000#16)] }.withFetchWord 16 0x1005

theorem witness_step_runs_the_decoded_instruction :
    placed.resetAsserted = false ∧ placed.latch.waiting = .no ∧ placed.latch.fetchAnswer = .answered ∧
      ¬(placed.latch.cfg.extIrq = true ∧ placed.latch.ien = true ∧ placed.latch.irqReq ≠ 0x0000#16) ∧
      placed.latch.cfg.valid placed.latch.pc .fetch = true ∧
      placed.latch.cfg.isDevice placed.latch.pc = false ∧
      (∀ c ∈ placed.latch.stash, c.1 ≠ placed.latch.pc) ∧
      Memory.byte? placed.latch.mem (2 * placed.latch.pc.toNat) = some 0x05#8 ∧
      Memory.byte? placed.latch.mem (2 * placed.latch.pc.toNat + 1) = some 0x10#8 ∧
      decode placed.latch.cfg.byteOrder [0x05#8, 0x10#8] = .ok (.lit false 5#12, []) :=
  ⟨rfl, rfl, rfl, by decide, rfl, rfl, fun c hc => by rw [List.mem_singleton.1 hc]; decide, rfl, rfl, rfl⟩

theorem witness_environment_sampled :
    roomy.env = [] ∧ { roomy with env := [sample false 0x0040#16] }.env = sample false 0x0040#16 :: [] ∧
      (sample false 0x0040#16).busWrites = (0x3000#16, 0x1234#16) :: [] ∧
      roomy.pc = (if roomy.waiting = .no then roomy.pc else roomy.pc + 1#16) ∧
      0x0101#16 = (if { roomy with waiting := .blocked }.waiting = .no then roomy.pc else roomy.pc + 1#16) ∧
      roomy.cfg.isDevice roomy.pc = false ∧ (0x0101#16 : Cell) ≠ roomy.pc ∧
      (0x0202 : Nat) ≠ 2 * roomy.pc.toNat ∧ (0x0202 : Nat) ≠ 2 * roomy.pc.toNat + 1 := by decide

theorem witness_interrupt_entry :
    [roomy, { roomy with waiting := .retried }, crowded, brimming, between].all (fun s =>
        let u := { s with ien := true, env := [sample false 0x0040#16] }
        !u.resetAsserted && u.latch.waiting != .blocked && u.latch.fetchAnswer != .held && u.latch.cfg.extIrq &&
          u.latch.ien && u.latch.irqReq != 0x0000#16) = true ∧
      { roomy with ien := true, env := [sample false 0x0040#16] }.latch.roomFor 6 3 ∧
      { crowded with ien := true, env := [sample false 0x0040#16] }.latch.noRoomFor 36 2 ∧
      { brimming with ien := true, env := [sample false 0x0040#16] }.latch.roomFor 35 2 ∧
      deepCells 36 2 = crowded.cfg.lsCapacity + 1 ∧ deepCells 35 2 = brimming.cfg.lsCapacity := by decide

theorem witness_fetch_fault :
    let s := { walled with pc := 0x8000#16 }
    s.resetAsserted = false ∧ s.latch.waiting = .no ∧ s.latch.fetchAnswer = .answered ∧
      ¬(s.latch.cfg.extIrq = true ∧ s.latch.ien = true ∧ s.latch.irqReq ≠ 0x0000#16) ∧
      s.latch.cfg.valid s.latch.pc .fetch = false ∧ s.latch.cfg.valid 0x7FFF#16 .fetch = true := by decide

theorem witness_reset_asserted :
    { roomy with env := [sample true 0x0000#16] }.resetAsserted = true := by decide

theorem witness_waiting_instruction_and_fetch :
    let s := { roomy with ien := true, env := [sample false 0x0040#16] }
    let u := { roomy with ien := true, irqReq := 0x0040#16 }
    s.resetAsserted = false ∧ { s with waiting := .blocked }.latch.waiting = .blocked ∧
      { u with fetchAnswer := .held }.latch.waiting = .no ∧ { u with fetchAnswer := .held }.latch.fetchAnswer = .held ∧
      ¬(roomy.cfg.extIrq = true ∧ roomy.ien = true ∧ roomy.irqReq ≠ 0x0000#16) ∧
      { roomy with waiting := .retried }.latch.waiting = .retried ∧
      { roomy with fetchAnswer := .retry }.latch.waiting = .no ∧
      { roomy with fetchAnswer := .retry }.latch.fetchAnswer = .retry := by decide

theorem witness_exception_entry :
    Exc.undefinedWord ≠ .psOverflow ∧ Exc.undefinedWord ≠ .rsOverflow ∧
      roomy.roomFor (roomy.ps.length + 1) roomy.rs.length ∧
      brimming.roomFor (brimming.ps.length + 1) brimming.rs.length ∧
      crowded.noRoomFor (crowded.ps.length + 1) crowded.rs.length := by decide

/-- The default machine, without the ROT extension, and each instruction on the cells it needs and no more. -/
theorem witness_return_needs_an_address :
    [(Instr.lit true 5#12, ([] : List Cell)), (.nop true, []), (.ld true 0x10#8, []), (.frrPsd true, []),
      (.frrPc true, []), (.frrIen true, []), (.frrKeyEmit true, []), (.dup true, [1#16]), (.ldi true, [1#16]),
      (.st true 0x10#8, [1#16]), (.sumD true 1#5, [1#16]), (.frwKeyEmit true, [1#16]), (.sum true 0#5, [1#16, 2#16]),
      (.swap true, [1#16, 2#16]), (.sti true, [1#16, 2#16])].all (fun v =>
        v.1.wellFormed && returning v.1 && extensionPresent bare.cfg v.1 && operandCells v.1 == v.2.length) = true ∧
      bare.cfg.extRot = false ∧ bare.rs = [] ∧
      extensionPresent { extRot := true } (.nrot1 true) = true ∧ operandCells (.nrot1 true) = 3 :=
  by decide

/-- The premise on patterns: nothing for another instruction, and two cells where PS0 and PS1 are exchanged. -/
theorem witness_return_pattern_needs :
    (∀ (r : Bool) (p : StkPattern), Instr.lit true 5#12 = .stk r p →
      ∀ k : Fin 4, patternNeeds p k = true → k.val < bare.ps.length) ∧
    (Instr.stk true ⟨false, .none, .exchange, .none, .none, false⟩).wellFormed = true ∧
    returning (.stk true ⟨false, .none, .exchange, .none, .none, false⟩) = true ∧
    ∀ (r : Bool) (p : StkPattern), Instr.stk true ⟨false, .none, .exchange, .none, .none, false⟩ = .stk r p →
      ∀ k : Fin 4, patternNeeds p k = true → k.val < (at0100 [1#16, 2#16, 3#16] []).ps.length := by
  refine ⟨fun r p h => (nomatch h), by decide, by decide, fun r p h => ?_⟩
  cases h
  decide

theorem witness_jump_and_call :
    (0x3FFE#14 : BitVec 14) ≠ 0x3FFF#14 ∧ roomy.roomFor roomy.ps.length (roomy.rs.length + 1) ∧
      brimming.roomFor brimming.ps.length (brimming.rs.length + 1) ∧
      deepCells brimming.ps.length (brimming.rs.length + 1) = brimming.cfg.lsCapacity ∧
      crowded.noRoomFor crowded.ps.length (crowded.rs.length + 1) ∧
      deepCells crowded.ps.length (crowded.rs.length + 1) = crowded.cfg.lsCapacity + 1 := by decide

theorem witness_indirect_jump_and_branch :
    roomy.ps = 1#16 :: [2#16, 3#16, 4#16, 5#16, 6#16] ∧ bare.ps = [] ∧
      { roomy with ps := [0x0000#16] }.ps = 0x0000#16 :: [] := by decide

/-- A parameter stack with a cell and one without; the first on a machine in which the deep cells afterwards fit
nowhere. -/
theorem witness_indirect_call :
    (tall 33).ps = 9#16 :: [9#16, 9#16, 9#16] ∧ bare.ps = [] ∧
      2 ^ (tall 33).cfg.spWidth + (tall 33).cfg.ipsEff + (tall 33).cfg.irsEff <
        deepCells 3 ((tall 33).rs.length + 1) := by decide

/-- D23, first line of R287: an indirect call on full stacks does not overflow, a direct one does. -/
theorem test_calls_on_full_stacks :
    ([0x7FFF, 0x4123].map fun w => match step ((tall 33).withFetchWord 16 w) with
      | .next t => (t.pc, t.ps.length, t.rs.length)
      | _ => (0#16, 0, 0)) = [(0x0009#16, 3, 34), (0x0000#16, 1, 0)] := by decide

theorem witness_literal :
    roomy.canReturn true ∧ bare.canReturn false ∧
      roomy.roomFor (roomy.ps.length + 1) (roomy.rsdAfter true) ∧
      roomy.roomFor (roomy.ps.length + 1) roomy.rs.length ∧
      brimming.roomFor (brimming.ps.length + 1) (brimming.rsdAfter false) ∧
      brimming.ps = 9#16 :: 9#16 :: List.replicate 33 9#16 ∧
      crowded.ps = 9#16 :: 9#16 :: List.replicate 34 9#16 ∧
      crowded.noRoomFor (crowded.ps.length + 1) (crowded.rsdAfter false) ∧
      crowdedPs.noRoomFor (crowdedPs.ps.length + 1) (crowdedPs.rsdAfter false) := by decide

theorem witness_alu_forms :
    roomy.canReturn true ∧ roomy.ps = 1#16 :: 2#16 :: [3#16, 4#16, 5#16, 6#16] ∧ (1#5 : BitVec 5) ≠ 0#5 ∧
      (31#5 : BitVec 5) ≠ 0#5 ∧ roomy.roomFor (roomy.ps.length + 1) (roomy.rsdAfter true) ∧
      brimming.roomFor (brimming.ps.length + 1) (brimming.rsdAfter false) ∧
      brimming.ps = 9#16 :: 9#16 :: List.replicate 33 9#16 ∧
      crowded.ps = 9#16 :: 9#16 :: List.replicate 34 9#16 ∧
      crowded.noRoomFor (crowded.ps.length + 1) (crowded.rsdAfter false) := by decide

/-- The two sides of the bound of R180, from the stack form. -/
theorem witness_shift_amounts :
    { roomy with ps := [31#16, 0x8000#16] }.ps = 31#16 :: 0x8000#16 :: [] ∧ (31#16 : Cell).toNat < 32 ∧
      ¬(32#16 : Cell).toNat < 32 := by decide

theorem witness_lithi :
    (1#5 : BitVec 5) ≠ 0#5 ∧ (16#5 : BitVec 5) ≠ 0#5 ∧ roomy.canReturn true ∧
      roomy.ps = 1#16 :: [2#16, 3#16, 4#16, 5#16, 6#16] ∧
      brimming.roomFor (brimming.ps.length + 1) (brimming.rsdAfter false) ∧ brimming.canReturn true ∧
      crowded.noRoomFor (crowded.ps.length + 1) (crowded.rsdAfter false) ∧ crowded.canReturn false := by decide

theorem witness_alu_underflow :
    bare.ps.length < 1 ∧ (at0100 [1#16] []).ps.length < 2 ∧ 2 ≤ (at0100 [1#16, 2#16] []).ps.length ∧
      (at0100 [1#16, 2#16] []).rs = [] ∧ (at0100 [1#16] []).ps ≠ [] := by decide

theorem witness_parameter_stack_words :
    roomy.canReturn true ∧ roomy.ps = 1#16 :: 2#16 :: [3#16, 4#16, 5#16, 6#16] ∧
      roomy.roomFor (roomy.ps.length + 1) (roomy.rsdAfter true) ∧
      brimming.roomFor (brimming.ps.length + 1) (brimming.rsdAfter false) ∧
      brimming.ps = 9#16 :: 9#16 :: List.replicate 33 9#16 ∧
      crowded.ps = 9#16 :: 9#16 :: List.replicate 34 9#16 ∧
      crowded.noRoomFor (crowded.ps.length + 1) (crowded.rsdAfter false) := by decide

theorem witness_return_stack_words :
    roomy.ps = 1#16 :: [2#16, 3#16, 4#16, 5#16, 6#16] ∧ roomy.rs = 7#16 :: [8#16] ∧
      roomy.roomFor (roomy.ps.length + 1) roomy.rs.length ∧
      brimming.roomFor (brimming.ps.length + 1) brimming.rs.length ∧ brimming.rs = 7#16 :: [] ∧
      crowded.noRoomFor (crowded.ps.length + 1) crowded.rs.length ∧ crowded.rs = 7#16 :: [] := by decide

theorem witness_stack_words_underflow :
    bare.ps = [] ∧ (at0100 [1#16] []).ps.length < 2 ∧ bare.rs = [] := by decide

theorem witness_round_trips :
    roomy.ps ≠ [] ∧ (0x0000#14 : BitVec 14) ≠ 0x3FFF#14 ∧
      roomy.roomFor roomy.ps.length (roomy.rs.length + 1) ∧
      brimming.roomFor brimming.ps.length (brimming.rs.length + 1) := by decide

theorem witness_rot_extension :
    roomy.cfg.extRot = true ∧ roomy.canReturn true ∧ roomy.ps = 1#16 :: 2#16 :: 3#16 :: [4#16, 5#16, 6#16] ∧
      { bare with cfg := { extRot := true } }.ps.length < 2 ∧
      { at0100 [1#16, 2#16] [] with cfg := { extRot := true } }.ps.length < 3 ∧ bare.cfg.extRot = false ∧
      crowded.cfg.extRot = true ∧ brimming.roomFor (brimming.ps.length + 1) (brimming.rsdAfter false) ∧
      brimming.ps = 9#16 :: 9#16 :: List.replicate 33 9#16 ∧
      crowded.ps = 9#16 :: 9#16 :: List.replicate 34 9#16 ∧
      crowded.noRoomFor (crowded.ps.length + 1) (crowded.rsdAfter false) := by decide

theorem witness_reserved_and_return_patterns :
    (Ust.up ∈ [Ust.up, .exchange] ∧ Ust.exchange ∈ [Ust.down, .exchange]) ∧
      reserved ⟨false, .none, .none, .none, .up, false⟩ = false ∧ Ust.up ≠ .none ∧
      reserved ⟨true, .none, .none, .none, .none, true⟩ = false := by decide

/-- The pattern of DUP's lower half grows the parameter stack, that of R25's push the return stack. -/
theorem witness_defined_pattern_full :
    reserved ⟨true, .up, .none, .none, .none, true⟩ = false ∧
      roomy.ps = 1#16 :: 2#16 :: 3#16 :: 4#16 :: 5#16 :: [6#16] ∧ roomy.rs = 7#16 :: 8#16 :: [] ∧
      roomy.roomFor 5 1 ∧ reserved ⟨true, .down, .down, .none, .none, false⟩ = false ∧
      roomy.roomFor 7 (roomy.rsdAfter true) ∧
      { brimming with ps := List.replicate 34 9#16, rs := [7#16, 8#16] }.roomFor 35 2 ∧
      deepCells 35 2 = brimming.cfg.lsCapacity ∧
      { brimming with rs := [7#16, 8#16] }.noRoomFor 36 2 ∧ deepCells 36 2 = brimming.cfg.lsCapacity + 1 := by
  decide

/-- PS1 and PS2 exchanged need three cells, RS0 copied down needs a return address; each at its bound. -/
theorem witness_defined_pattern_checks :
    reserved ⟨false, .none, .exchange, .none, .none, false⟩ = false ∧
      (patternNeeds ⟨false, .none, .exchange, .none, .none, false⟩ 2 = true ∧
        (at0100 [1#16, 2#16] []).ps.length ≤ 2) ∧
      (∀ k : Fin 4, patternNeeds ⟨false, .none, .exchange, .none, .none, false⟩ k = true →
        k.val < (at0100 [1#16, 2#16, 3#16] []).ps.length) ∧
      reserved ⟨false, .none, .none, .none, .down, false⟩ = false ∧
      patternNeedsReturn ⟨false, .none, .none, .none, .down, false⟩ = true ∧ bare.rs = [] ∧
      (at0100 [1#16] [7#16]).rs ≠ [] ∧
      (∀ k : Fin 4, patternNeeds ⟨false, .none, .none, .none, .down, false⟩ k = true →
        k.val < (at0100 [1#16] [7#16]).ps.length) ∧
      (at0100 [1#16, 2#16, 3#16] []).roomFor 3 0 ∧ roomy.roomFor 6 (roomy.rsdAfter true) := by decide

/-- The zones where a pattern without a name makes the parameter stack grow: PS2 and PS1 copied down over a full
upper stack. -/
theorem witness_defined_pattern_zones :
    reserved ⟨true, .down, .down, .none, .none, false⟩ = false ∧
      (∀ k : Fin 4, patternNeeds ⟨true, .down, .down, .none, .none, false⟩ k = true → k.val < 35) ∧
      patternNeedsReturn ⟨true, .down, .down, .none, .none, false⟩ = false ∧
      (patternPs ⟨true, .down, .down, .none, .none, false⟩ brimming.ps brimming.rs).length = 36 ∧
      (patternRs ⟨true, .down, .down, .none, .none, false⟩ brimming.ps brimming.rs).length = 1 ∧
      brimming.roomFor 36 1 ∧
      (patternPs ⟨true, .down, .down, .none, .none, false⟩ crowded.ps crowded.rs).length = 37 ∧
      crowded.noRoomFor 37 1 := by decide

theorem witness_pattern_contiguous :
    reserved ⟨true, .up, .up, .up, .none, false⟩ = false ∧
      lacksParameter ⟨true, .up, .up, .up, .none, false⟩ [1#16] [] = false ∧
      lacksReturn ⟨true, .up, .up, .up, .none, false⟩ [1#16] [] = false := by decide

theorem witness_stores_and_loads :
    roomy.canReturn true ∧ roomy.ps = 1#16 :: 2#16 :: [3#16, 4#16, 5#16, 6#16] ∧
      roomy.cfg.valid 1#16 .write = true ∧ roomy.cfg.valid 1#16 .read = true ∧ (0xFE#8 : BitVec 8) ≠ 0xFF#8 ∧
      (0xFFFE#16 : Cell) = BitVec.extractLsb' 8 8 roomy.cfg.madrOffset ++ 0xFE#8 ∧
      roomy.cfg.valid 0xFFFE#16 .write = true ∧ roomy.cfg.valid 0xFFFE#16 .read = true ∧
      roomy.dataAnswer = .answered ∧ { roomy with dataAnswer := .held }.dataAnswer = .held ∧
      { roomy with dataAnswer := .retry }.dataAnswer = .retry ∧
      (at0100 [1#16] []).ps.length < 2 ∧ bare.ps = [] ∧
      roomy.roomFor (roomy.ps.length + 1) (roomy.rsdAfter true) ∧
      brimming.roomFor (brimming.ps.length + 1) (brimming.rsdAfter false) ∧
      brimming.ps = 9#16 :: 9#16 :: List.replicate 33 9#16 ∧
      crowded.ps = 9#16 :: 9#16 :: List.replicate 34 9#16 ∧
      crowded.noRoomFor (crowded.ps.length + 1) (crowded.rsdAfter false) := by decide

/-- With MEMFAULT_CONSUMES and without, and the last address that the platform still accepts. -/
theorem witness_faulting_data_access :
    let s := { walled with ps := [0x8000#16, 1#16] }
    let u := { s with cfg := { s.cfg with memfaultConsumes := true } }
    s.cfg.memfaultConsumes = false ∧ u.cfg.memfaultConsumes = true ∧
      [s, u].all (fun s => s.dataAnswer == .answered && s.rs != [] && s.ps == 0x8000#16 :: 1#16 :: [] &&
        !s.cfg.valid 0x8000#16 .read && !s.cfg.valid 0x8000#16 .write && s.cfg.valid 0x7FFF#16 .read &&
        !s.cfg.valid (BitVec.extractLsb' 8 8 s.cfg.madrOffset ++ 0x00#8) .read &&
        !s.cfg.valid (BitVec.extractLsb' 8 8 s.cfg.madrOffset ++ 0x00#8) .write) = true := by decide

theorem witness_stored_word :
    roomy.cfg.isDevice 0x2000#16 = false ∧ (0x2001#16 : Cell) ≠ 0x2000#16 ∧
      (0x3FFF : Nat) ≠ 2 * (0x2000#16 : Cell).toNat ∧ (0x3FFF : Nat) ≠ 2 * (0x2000#16 : Cell).toNat + 1 ∧
      (0x4002 : Nat) ≠ 2 * (0x2000#16 : Cell).toNat ∧ (0x4002 : Nat) ≠ 2 * (0x2000#16 : Cell).toNat + 1 := by decide

/-- With words fetched ahead already, and every side of the two addresses. -/
theorem witness_store_into_fetched_ahead :
    let s := { roomy with stash := [(0x0101#16, 0x0400#16), (0x0102#16, 0x0401#16)] }
    (0x0101#16 : Cell) = s.pc + 1#16 ∧ (0x0102#16 : Cell) = s.pc + 2#16 ∧
      [0x0100#16, 0x0103#16].all (fun a => a != s.pc + 1#16 && a != s.pc + 2#16) = true ∧
      (s.stash.all fun c => c.1 != 0x0103#16) = true ∧
      [0x0100#16, 0x0101#16, 0x0102#16, 0x0103#16].all (fun a => !s.cfg.isDevice a) = true := by decide

theorem witness_function_registers :
    roomy.canReturn true ∧ roomy.ps = 1#16 :: [2#16, 3#16, 4#16, 5#16, 6#16] ∧ bare.ps = [] ∧
      roomy.cfg.extPc = true ∧ roomy.cfg.extIrq = true ∧
      roomy.roomFor (roomy.ps.length + 1) (roomy.rsdAfter true) ∧
      brimming.roomFor (brimming.ps.length + 1) (brimming.rsdAfter false) ∧
      brimming.ps = 9#16 :: 9#16 :: List.replicate 33 9#16 ∧
      crowded.ps = 9#16 :: 9#16 :: List.replicate 34 9#16 ∧
      crowded.noRoomFor (crowded.ps.length + 1) (crowded.rsdAfter false) := by decide

/-- The KEY read overflows with a datum waiting (crowded) and has room one cell below (brimming). -/
theorem witness_key_and_emit :
    roomy.cfg.extKey = true ∧ roomy.canReturn true ∧ roomy.keyQueue = [] ∧
      { roomy with keyQueue := [0x0041#16] }.keyQueue = 0x0041#16 :: [] ∧ roomy.outReady = true ∧
      { roomy with outReady := false }.outReady = false ∧
      roomy.ps = 1#16 :: [2#16, 3#16, 4#16, 5#16, 6#16] ∧ bare.cfg.extKey = true ∧ bare.ps = [] ∧
      [{ crowded with keyQueue := [0x0041#16] }, { brimming with keyQueue := [0x0041#16] }].all (fun s =>
        s.cfg.extKey && s.keyQueue == 0x0041#16 :: []) = true ∧
      crowded.canReturn false ∧ brimming.canReturn false ∧
      { crowded with keyQueue := [0x0041#16] }.noRoomFor 37 (crowded.rsdAfter false) ∧
      { brimming with keyQueue := [0x0041#16] }.roomFor 36 (brimming.rsdAfter false) := by decide

theorem witness_absent_registers :
    0x06#8 < (0x07#8 : BitVec 8) ∧ 0x06#8 < (0xFF#8 : BitVec 8) ∧ plain.cfg.extPc = false ∧
      plain.cfg.extIrq = false ∧ plain.cfg.extKey = false := by decide

theorem witness_read_only_registers :
    roomy.cfg.extPc = true ∧ roomy.cfg.extKey = true := by decide

theorem witness_only_ien_write : (∀ r : Bool, Instr.frwIen r ≠ .lit false 5#12) ∧
    ∃ t, exec (.lit false 5#12) roomy = .next t :=
  ⟨fun r => by simp, _, rfl⟩

theorem witness_memory_frame :
    (∃ t, exec (.lit false 5#12) roomy = .next t) ∧ storing (.lit false 5#12) = false ∧
      (∃ t, exec (.sti false) roomy = .next t) ∧ roomy.ps.head? = some 1#16 ∧
      (∃ t, exec (.sti false) (at0100 [1#16] []) = .next t) ∧ (at0100 [1#16] []).ps.length < 2 ∧
      (∃ t, exec (.st false 0x10#8) roomy = .next t) ∧ (∃ t, exec (.st false 0x10#8) bare = .next t) ∧
      bare.ps = [] :=
  ⟨⟨_, rfl⟩, rfl, ⟨_, rfl⟩, rfl, ⟨_, rfl⟩, by decide, ⟨_, rfl⟩, ⟨_, rfl⟩, rfl⟩

theorem witness_kept_fields :
    (∃ t, exec (.nop true) roomy = .next t) ∧ (∀ r : Bool, Instr.nop true ≠ .frrKeyEmit r) ∧
      (∀ r : Bool, Instr.nop true ≠ .frwKeyEmit r) ∧ mayWait (.nop true) = false ∧
      accessesMemory (.frrKeyEmit true) = false ∧ ∃ t, exec (.frrKeyEmit true) roomy = .next t :=
  ⟨⟨_, rfl⟩, by simp, by simp, rfl, rfl, _, rfl⟩

theorem witness_return_stack_frame :
    changesReturnStack (.sumD false 1#5) = false ∧ ∃ t, exec (.sumD false 1#5) roomy = .next t :=
  ⟨rfl, _, rfl⟩

/-- A state inside a run, with a word fetched ahead and a sample to come. -/
def busy : State :=
  { roomy.withFetchWord 16 0x1005 with stash := [(0x0101#16, 0x0000#16)], env := [sample false 0x0000#16] }

theorem witness_invariant : busy.Inv ∧ ∃ t, step busy = .next t :=
  ⟨⟨by decide, by decide, by decide, by decide, fun c hc => .inr (.inl (by rw [List.mem_singleton.1 hc]; rfl)),
    by decide, by decide⟩, _, rfl⟩

/-- A load whose access the bus ended with a retry, with a word fetched two words beyond it. -/
def retrying : State :=
  { roomy with waiting := .retried, ir := 0x03FF#16, stash := [(0x0102#16, 0x0000#16)], dataAnswer := .retry }

theorem witness_invariant_while_waiting : retrying.Inv ∧ ∃ t, step retrying = .next t :=
  ⟨⟨by decide, by decide, by decide, by decide,
    fun c hc => .inr (.inr ⟨by decide, by rw [List.mem_singleton.1 hc]; rfl⟩), by decide, by decide⟩, _, rfl⟩

end Sys2Proof.Tests
end

section
/-!
PROOFS. The state: what an instruction leaves unchanged, the environment's sample, a word placed for the next step, and
the invariant that every step keeps (spec/10_state.md).
-/

namespace Sys2Proof.Machine

variable {i : Instr} {s t u : State}

/-! ## What no instruction touches -/

/-- `t` differs from `s` in the core's own fields alone: the program counter and its tag, the stacks and their hidden
counters, memory and what was fetched ahead. -/
def State.CoreOnly (s t : State) : Prop :=
  t = { s with
    pc := t.pc, ps := t.ps, rs := t.rs, ipsN := t.ipsN, irsN := t.irsN, cof := t.cof, stash := t.stash, mem := t.mem }

/-- Two changes of the core are one. -/
theorem State.CoreOnly.trans (h : s.CoreOnly u) (h' : u.CoreOnly t) : s.CoreOnly t :=
  Eq.trans h' (by rw [h])

/-- The parameters are not the core's to change. -/
theorem State.CoreOnly.cfg (h : s.CoreOnly t) : t.cfg = s.cfg := by rw [h]

/-- An exception's entry (R284). -/
theorem State.coreOnly_raiseFrom (b s : State) (e : Exc) (ps : List Cell) : s.CoreOnly (b.raiseFrom e s ps) := by
  obtain ⟨e', h⟩ | ⟨-, h⟩ := b.raiseFrom_eq s ps e <;> rw [h] <;> rfl

/-- A store (R66). -/
theorem State.coreOnly_storeWord (s : State) (a v : Cell) : s.CoreOnly (s.storeWord a v) := by
  rw [State.storeWord_eq]; rfl

/-- What an instruction may change, and which instruction may change the fields that are not the core's (R42, R46,
R74). -/
structure Frame (i : Instr) (s t : State) : Prop where
  core : { s with ien := t.ien, waiting := t.waiting, keyQueue := t.keyQueue, emitted := t.emitted }.CoreOnly t
  ien : (∀ r : Bool, i ≠ .frwIen r) → t.ien = s.ien
  keyQueue : (∀ r : Bool, i ≠ .frrKeyEmit r) → t.keyQueue = s.keyQueue
  emitted : (∀ r : Bool, i ≠ .frwKeyEmit r) → t.emitted = s.emitted
  waiting : mayWait i = false → t.waiting = s.waiting
  retried : accessesMemory i = false → t.waiting = s.waiting ∨ t.waiting = .blocked

/-- A change of the core alone is in the frame of every instruction. -/
theorem Frame.of_coreOnly (h : s.CoreOnly t) : Frame i s t := by
  have hien : t.ien = s.ien := by rw [h]
  have hkey : t.keyQueue = s.keyQueue := by rw [h]
  have hout : t.emitted = s.emitted := by rw [h]
  have hwait : t.waiting = s.waiting := by rw [h]
  refine ⟨?_, fun _ => hien, fun _ => hkey, fun _ => hout, fun _ => hwait, fun _ => .inl hwait⟩
  rw [hien, hkey, hout, hwait]
  exact h

/-- The entry of the fault of a data access, which may have stored (R66, R236). -/
theorem State.coreOnly_faulted {ps' : List Cell} (hu : u = s ∨ ∃ a v, storesAt i s a ∧ u = s.storeWord a v) :
    s.CoreOnly (s.dataFault u ps') := by
  obtain rfl | ⟨a, v, -, rfl⟩ := hu
  · exact State.coreOnly_raiseFrom _ _ _ _
  · exact (s.coreOnly_storeWord a v).trans (State.coreOnly_raiseFrom _ _ _ _)

/-- Every instruction keeps to its frame. -/
theorem exec_frame (h : exec i s = .next t) : Frame i s t := by
  cases exec_ends h with
  | raised e => exact .of_coreOnly (s.coreOnly_raiseFrom s e s.ps)
  | after => exact .of_coreOnly rfl
  | both => exact .of_coreOnly rfl
  | gone => exact .of_coreOnly rfl
  | jumped => exact .of_coreOnly rfl
  | enabled r ps' b hi =>
    exact ⟨rfl, fun hne => absurd hi (hne r), fun _ => rfl, fun _ => rfl, fun _ => rfl, fun _ => .inl rfl⟩
  | emitted r ps' v hi =>
    exact ⟨rfl, fun _ => rfl, fun _ => rfl, fun hne => absurd hi (hne r), fun _ => rfl, fun _ => .inl rfl⟩
  | took r ps' later hi =>
    exact ⟨rfl, fun _ => rfl, fun hne => absurd hi (hne r), fun _ => rfl, fun _ => rfl, fun _ => .inl rfl⟩
  | waits w hi hw hn =>
    refine ⟨rfl, fun _ => rfl, fun _ => rfl, fun _ => rfl, fun hne => by simp [hi] at hne, fun hne => .inr ?_⟩
    cases w with
    | no => exact absurd rfl hn
    | blocked => rfl
    | retried => simp [hw rfl] at hne
  | stored r ps' a v hi ha hr => exact .of_coreOnly (by rw [State.finish_storeWord ps' a v hr]; rfl)
  | faulted u ps' hu => exact .of_coreOnly (State.coreOnly_faulted hu)

/-- Settles O54: the frame's clause on the enable flag. -/
theorem noInstructionButTheIenWriteChangesIen : Obligations.NoInstructionButTheIenWriteChangesIen :=
  fun _ _ _ hi h => (exec_frame h).ien hi

/-- Settles O56: the frame, its clause on the core's own fields taken apart. -/
theorem instructionsKeepWhatIsNotTheirs : Obligations.InstructionsKeepWhatIsNotTheirs := by
  intro i s t h
  obtain ⟨core, -, keyQueue, emitted, waiting, retried⟩ := exec_frame h
  refine ⟨?_, ?_, ?_, ?_, ?_, ?_, ?_, ?_, ?_, keyQueue, emitted, waiting, retried⟩ <;> rw [core]

/-! ## The return stack -/

/-- The return stack is as before, or both stacks are cleared by a parameter stack overflow (R284). -/
abbrev State.ReturnStackKept (s t : State) : Prop :=
  t.rs = s.rs ∨ (t.rs = [] ∧ t.ps = [0xFFFD#16] ∧ t.pc = 0x0000#16)

/-- The entry of an exception other than the return stack overflow. -/
theorem State.returnStackKept_raiseFrom (b s : State) (ps : List Cell) {e : Exc} (he : e ≠ .rsOverflow) :
    s.ReturnStackKept (b.raiseFrom e s ps) := by
  by_cases hc : e.clearsStacks = true
  · obtain rfl : e = .psOverflow := by cases e <;> simp_all [Exc.clearsStacks]
    rw [b.raiseFrom_of_clears s ps hc]
    exact .inr ⟨rfl, rfl, rfl⟩
  · rw [b.raiseFrom_cases s ps (by simpa using hc)]
    split
    · exact .inr ⟨rfl, rfl, rfl⟩
    · exact .inl rfl

/-- An instruction that keeps the return stack does not return. -/
theorem returnBit_eq_false {r : Bool} (hi : r = true → returning i = true) (hc : changesReturnStack i = false) :
    r = false := by
  by_contra hr
  simp [changesReturnStack_of_returning (hi (by simpa using hr))] at hc

/-- Settles O57: of the shapes in which an instruction ends, those that leave another return stack belong to the
instructions that may change it, or are the entry of a parameter stack overflow. -/
theorem noOtherInstructionChangesTheReturnStack : Obligations.NoOtherInstructionChangesTheReturnStack := by
  intro i s t hc h
  cases exec_ends h with
  | raised e he =>
    exact s.returnStackKept_raiseFrom s s.ps fun h => by simp [he h] at hc
  | after r ps' hi =>
    obtain rfl := returnBit_eq_false hi hc
    exact .inl rfl
  | both ps' rs' hi => simp [hi] at hc
  | gone ps' rs' a tag hi => exact .inl (hi.resolve_right (by simp [hc]))
  | jumped => exact .inl rfl
  | enabled r ps' b hi =>
    subst hi
    obtain rfl : r = false := hc
    exact .inl rfl
  | emitted r ps' v hi =>
    subst hi
    obtain rfl : r = false := hc
    exact .inl rfl
  | took r ps' later hi =>
    subst hi
    obtain rfl : r = false := hc
    exact .inl rfl
  | waits => exact .inl rfl
  | stored r ps' a v hi ha hr =>
    obtain rfl := returnBit_eq_false hi hc
    rw [State.finish_storeWord ps' a v hr]
    exact .inl rfl
  | faulted u ps' hu =>
    have hrs : u.rs = s.rs := by
      obtain rfl | ⟨a, v, -, rfl⟩ := hu
      · rfl
      · rw [State.storeWord_eq]
    have := s.returnStackKept_raiseFrom u (if u.cfg.memfaultConsumes then ps' else u.ps)
      (e := .addressOutOfRange) (by simp)
    rwa [State.ReturnStackKept, hrs] at this

/-! ## Other masters' writes (R70) -/

/-- A byte reads after another master's write as after the word's arrival. -/
theorem State.readByte_busWrite (s : State) (a v : Cell) (k : Access) (n : Nat) :
    (s.busWrite a v).readByte k n = (s.putWord a v).readByte k n := by
  rw [State.busWrite_eq]; rfl

/-- A word reads after another master's write as after its arrival. -/
theorem State.readWord_busWrite (s : State) (a v : Cell) (k : Access) (b : Cell) :
    (s.busWrite a v).readWord k b = (s.putWord a v).readWord k b := by
  rw [State.busWrite_eq]; rfl

/-- A word that memory holds is read, where no device answers. -/
theorem State.readWord_of_mem_eq_putWord {m : Memory} {a v : Cell} (k : Access) (hd : s.cfg.isDevice a = false)
    (hm : s.mem = Memory.putWord s.cfg.byteOrder m a v) : s.readWord k a = v := by
  simp [State.readWord, State.readByte, hd, hm, Memory.byte?_putWord, bytesWord_bytes]

/-- A word that has arrived in memory is read back. -/
theorem State.readWord_putWord_same (s : State) (a v : Cell) (k : Access) (hd : s.cfg.isDevice a = false) :
    (s.putWord a v).readWord k a = v :=
  State.readWord_of_mem_eq_putWord (m := s.mem) k hd (by simp [hd])

/-- Every other word reads as before. -/
theorem State.readWord_putWord_of_ne (s : State) (a v : Cell) (k : Access) {b : Cell} (h : b ≠ a) :
    (s.putWord a v).readWord k b = s.readWord k b := by
  have hne : b.toNat ≠ a.toNat := fun e => h (BitVec.eq_of_toNat_eq e)
  have h0 := s.readByte_putWord_of_ne a v k (2 * b.toNat) (by omega) (by omega)
  have h1 := s.readByte_putWord_of_ne a v k (2 * b.toNat + 1) (by omega) (by omega)
  simp only [State.readWord, State.putWord_cfg, State.putWord_draw, h0, h1]

/-- Settles O6: the operation that samples is its own equation in each case of the samples to come, and a write by
another master reads like the arrival of its word. -/
theorem samplingTakesTheEnvironmentsLinesAndWrites :
    Obligations.SamplingTakesTheEnvironmentsLinesAndWrites := by
  refine ⟨fun s h => ?_, fun s e later h => ?_, fun s => ⟨rfl, fun _ _ _ => rfl⟩, ?_⟩
  · simp only [State.latch, h]
  · simp only [State.latch, h]
  · rintro s a v next rfl
    refine ⟨fun hd k => ?_, fun k b hb => ?_, fun k n h0 h1 => ?_, ?_, _, s.busWrite_eq a v⟩
    · rw [State.readWord_busWrite, s.readWord_putWord_same a v k hd]
    · rw [State.readWord_busWrite, s.readWord_putWord_of_ne a v k hb]
    · rw [State.readByte_busWrite, s.readByte_putWord_of_ne a v k n h0 h1]
    · change _ = (if a = s.upcoming ∨ a = s.upcoming + 1#16 then _ else _) ++ _
      rw [State.busWrite_stash]
      split <;> rfl

/-! ## A word placed where the next step fetches -/

/-- A region opened at an address lets it be fetched. -/
theorem Region.denies_openAt {a : Cell} {g : Region} (h : (Region.openAt a g).covers a = true) :
    (Region.openAt a g).denies .fetch = false := by
  unfold Region.openAt at h ⊢
  split at h
  · simp [Region.denies, *]
  · contradiction

/-- A region opened at an address has no device there. -/
theorem Region.device_openAt {a : Cell} {g : Region} (h : (Region.openAt a g).covers a = true) :
    (Region.openAt a g).device = false := by
  unfold Region.openAt at h ⊢
  split at h
  · simp [*]
  · contradiction

/-- The word placed may be fetched. -/
theorem State.placeNext_valid (s : State) (w : Cell) : (s.placeNext w).cfg.valid s.pc .fetch = true := by
  simp only [Config.valid, State.placeNext, List.any_map, Bool.not_eq_true', List.any_eq_false, Function.comp_apply,
    Bool.and_eq_true, not_and, Bool.not_eq_true]
  exact fun g _ h => Region.denies_openAt h

/-- The word placed is in memory, not in a device. -/
theorem State.placeNext_isDevice (s : State) (w : Cell) : (s.placeNext w).cfg.isDevice s.pc = false := by
  simp only [Config.isDevice, State.placeNext, List.any_map, List.any_eq_false, Function.comp_apply,
    Bool.and_eq_true, not_and, Bool.not_eq_true]
  exact fun g _ h => Region.device_openAt h

/-- Where nothing older was fetched ahead, memory's word executes (R330). -/
theorem State.fetchWord_of_not_ahead (h : ∀ c ∈ s.stash, c.1 ≠ s.pc) : s.fetchWord = s.readWord .fetch s.pc := by
  have : (s.stash.filter fun c => c.1 = s.pc) = [] := List.filter_eq_nil_iff.2 fun c hc => by simpa using h c hc
  simp [State.fetchWord, this]

/-- Nothing older was fetched ahead where the word is placed. -/
theorem State.placeNext_stash (s : State) (w : Cell) : ∀ c ∈ (s.placeNext w).stash, c.1 ≠ s.pc := by
  simp [State.placeNext]

/-- No reset comes with the sample that follows. -/
theorem State.placeNext_resetAsserted (s : State) (w : Cell) : (s.placeNext w).resetAsserted = false := by
  cases h : s.env <;> simp [State.resetAsserted, State.placeNext, quietNext, h]

/-- Sampling after a word is placed takes the device's and the data bus's lines alone. -/
theorem State.placeNext_latch (s : State) (w : Cell) : ∃ (later : List EnvSample) (d : BusAnswer) (q : List Cell)
    (o : Bool), (s.placeNext w).latch = { s.placeNext w with
      irqAck := false, draw := s.draw + 1, env := later, dataAnswer := d, keyQueue := q, outReady := o } := by
  cases h : s.env with
  | nil => exact ⟨[], s.dataAnswer, s.keyQueue, s.outReady, by simp [State.latch, State.placeNext, quietNext, h]⟩
  | cons e later =>
    exact ⟨later, e.dataAnswer, s.keyQueue.drop e.keyWithdrawn ++ e.keyArrivals, e.outReady,
      by simp [State.latch, State.placeNext, quietNext, h, State.busWrites]⟩

/-- With nothing before it, an instruction is fetched and run. -/
theorem State.begin_of_fetches (hr : s.resetAsserted = false) (hw : s.latch.waiting = .no)
    (hi : s.latch.interruptTaken = false) (hf : s.latch.fetchAnswer = .answered)
    (hv : s.latch.cfg.valid s.latch.pc .fetch = true) :
    s.begin = .run (decodeWord s.latch.fetchWord) s.latch.fetch := by
  simp [State.begin, State.triesAgain, *]

/-- Settles O60: after sampling, the word placed is the one in memory, and nothing comes before its fetch. -/
theorem placedWordIsTheNextInstruction : Obligations.PlacedWordIsTheNextInstruction := by
  intro s w
  have hplace : s.withFetchWord 16 w.toNat = s.placeNext w := by
    rw [State.withFetchWord, BitVec.toNat_mod_cancel, BitVec.ofNat_toNat, BitVec.setWidth_eq]
  rw [hplace]
  obtain ⟨later, d, q, o, hl⟩ := s.placeNext_latch w
  have hword : (s.placeNext w).latch.fetchWord = w := by
    rw [hl]
    refine (State.fetchWord_of_not_ahead ?_).trans (State.readWord_of_mem_eq_putWord _ ?_ rfl)
    · exact s.placeNext_stash w
    · exact s.placeNext_isDevice w
  have hbegin : (s.placeNext w).begin = .run (decodeWord w) (s.placeNext w).latch.fetch := by
    rw [State.begin_of_fetches (s.placeNext_resetAsserted w) (by rw [hl]; rfl)
      (by rw [hl]; simp [State.interruptTaken, State.placeNext]) (by rw [hl]; rfl)
      (by rw [hl]; exact s.placeNext_valid w), hword]
  refine ⟨(s.placeNext w).latch.fetch, by simp only [step, hbegin], hword, ?_⟩
  rw [hl]
  exact ⟨rfl, rfl, rfl, rfl, rfl⟩

/-! ## The stacks that a legal machine can hold (R24, R287) -/

/-- The lower stack is part of what the machine can hold. -/
theorem Config.lsCapacity_le_deepLimit {c : Config} (h : c.legal) : c.lsCapacity ≤ c.deepLimit := by
  obtain ⟨-, -, -, -, -, hcap, -⟩ := h
  unfold Config.deepLimit
  omega

/-- Stacks that no check of R287 refused are within what the machine can hold. -/
theorem State.length_le_of_fits (hl : s.cfg.legal) (hc : s.withinCapacity) {p r : Nat} (hf : s.fits p r) :
    p + r ≤ s.cfg.deepLimit + 5 := by
  have hfit : p + r ≤ s.ps.length + s.rs.length ∨ psDeep p + rsDeep r ≤ s.cfg.deepLimit :=
    hf.elim .inl (State.fits_of_not_overflows (Config.lsCapacity_le_deepLimit hl))
  simp only [State.withinCapacity, psDeep, rsDeep] at hc hfit
  omega

/-- The hidden counters follow the stacks (R24). -/
theorem State.countersHold_withStacks (h : s.countersHold) (ps' rs' : List Cell) :
    (s.withStacks ps' rs').countersHold := by
  obtain ⟨hi, hid, hj, hjd⟩ := h
  obtain ⟨hi', hid'⟩ := refill_le _ _ _ (psDeep ps'.length) hi hid
  obtain ⟨hj', hjd'⟩ := refill_le _ _ _ (rsDeep rs'.length) hj hjd
  exact ⟨hi', hid', hj', hjd'⟩

/-! ## The invariant while an instruction runs -/

/-- The invariant of a state in which an instruction runs: none waits, and words may have been fetched ahead two words
beyond its own (R47). -/
structure State.Running (s : State) : Prop where
  legal : s.cfg.legal
  memory : Memory.wf s.mem
  counters : s.countersHold
  capacity : s.withinCapacity
  ahead : ∀ c ∈ s.stash, c.1 = s.pc ∨ c.1 = s.pc + 1#16 ∨ c.1 = s.pc + 2#16
  idle : s.waiting = .no

/-- An instruction that waits is tried again with the invariant. -/
theorem State.Inv.running (h : s.Inv) : { s with waiting := .no }.Running :=
  { h with
    ahead := fun c hc => (h.ahead c hc).imp_right (Or.imp_right And.right)
    idle := rfl }

/-- An instruction at a boundary begins with the invariant. -/
theorem State.Inv.running_of_boundary (h : s.Inv) (hw : s.waiting = .no) : s.Running := by
  have := h.running
  rwa [← hw] at this

/-- Fetching keeps it. -/
theorem State.Running.fetch (h : s.Running) : s.fetch.Running := { h with }

/-- A state without a waiting instruction satisfies the invariant, if its stacks came about from those of a running
state by what R24 and R287 allow. -/
theorem State.Running.inv_of_stacks (h : s.Running) {ps' rs' : List Cell} (hf : s.fits ps'.length rs'.length)
    {m : Memory} (hm : m.wf) {a : Cell} {ahead : List (Cell × Cell)}
    (ha : ∀ c ∈ ahead, c.1 = a ∨ c.1 = a + 1#16) (tag : Option Cof) :
    { s.withStacks ps' rs' with mem := m, pc := a, stash := ahead, cof := tag }.Inv where
  legal := h.legal
  memory := hm
  counters := State.countersHold_withStacks h.counters ps' rs'
  capacity := State.length_le_of_fits h.legal h.capacity hf
  ahead := fun c hc => (ha c hc).imp_right .inl
  waits := fun hw => absurd h.idle hw
  retried := fun hw => absurd h.idle (by rw [show s.waiting = .retried from hw]; simp)

/-- What was fetched ahead of an instruction and is not its own word lies ahead of the next. -/
theorem State.Running.ahead_of_advance (h : s.Running) :
    ∀ c ∈ s.stash.filter fun c => c.1 ≠ s.pc, c.1 = s.pc + 1#16 ∨ c.1 = s.pc + 1#16 + 1#16 := by
  intro c hc
  obtain ⟨hmem, hne⟩ := List.mem_filter.1 hc
  have htwo : s.pc + 1#16 + 1#16 = s.pc + 2#16 := by bv_omega
  rw [htwo]
  exact (h.ahead c hmem).resolve_left (of_decide_eq_true hne)

/-- The words beyond an instruction's own that it may have stored to lie ahead of the next. -/
theorem ahead_of_store {pc a : Cell} {old : Cell} :
    ∀ c ∈ (if a = pc + 1#16 ∨ a = pc + 2#16 then [(a, old)] else []),
      c.1 = pc + 1#16 ∨ c.1 = pc + 1#16 + 1#16 := by
  intro c hc
  have htwo : pc + 1#16 + 1#16 = pc + 2#16 := by bv_omega
  split at hc
  · rw [htwo, List.mem_singleton.1 hc]
    assumption
  · simp at hc

/-- The end of an instruction that changes the parameter stack. -/
theorem State.Running.inv_after (h : s.Running) {r : Bool} {ps' : List Cell}
    (hf : s.fits ps'.length (s.rsdAfter r)) : (s.after r ps').Inv := by
  cases r with
  | false => exact h.inv_of_stacks hf h.memory h.ahead_of_advance none
  | true =>
    exact h.inv_of_stacks (rs' := s.rs.tail) (by rw [List.length_tail]; exact hf) h.memory (by simp)
      (some .endOfWord)

/-- The end of a store. -/
theorem State.Running.inv_stored (h : s.Running) {r : Bool} {ps' : List Cell} (a v : Cell) (hr : s.canReturn r)
    (hf : s.fits ps'.length (s.rsdAfter r)) : (((s.withStacks ps' s.rs).storeWord a v).finish r).Inv := by
  rw [State.finish_storeWord ps' a v hr]
  refine { h.inv_after hf with memory := State.wf_putWord a v h.memory, ahead := fun c hc => ?_ }
  cases r with
  | false => exact ((List.mem_append.1 hc).elim (ahead_of_store c) (h.ahead_of_advance c)).imp_right .inl
  | true => simp at hc

/-- The end of an instruction that changes both stacks. -/
theorem State.Running.inv_afterBoth (h : s.Running) {ps' rs' : List Cell} (hf : s.fits ps'.length rs'.length) :
    (s.afterBoth ps' rs').Inv :=
  h.inv_of_stacks hf h.memory h.ahead_of_advance none

/-- A change of flow that changes both stacks. -/
theorem State.Running.inv_gone (h : s.Running) {ps' rs' : List Cell} (hf : s.fits ps'.length rs'.length) (a : Cell)
    (tag : Option Cof) : (s.gone ps' rs' a tag).Inv :=
  h.inv_of_stacks hf h.memory (by simp) tag

/-- A change of flow that touches no stack. -/
theorem State.Running.inv_redirect (h : s.Running) (a : Cell) (tag : Option Cof) : (s.redirect a tag).Inv where
  legal := h.legal
  memory := h.memory
  counters := h.counters
  capacity := h.capacity
  ahead := by simp
  waits := fun hw => absurd h.idle hw
  retried := fun hw => by simp [h.idle] at hw

/-- An exception's entry, for an instruction that has changed memory at most. -/
theorem State.Running.inv_raiseFrom (h : s.Running) (hu : u = { s with mem := u.mem, stash := u.stash })
    (hm : u.mem.wf) (e : Exc) (ps : List Cell) : (s.raiseFrom e u ps).Inv := by
  obtain ⟨e', he⟩ | ⟨ho, he⟩ := s.raiseFrom_eq u ps e <;> rw [he]
  · have hfits : s.fits 1 0 := .inr (State.overflows_eq_false (.inr (by simp [deepCells])))
    have hcleared : u.cleared e'.code =
        { s.withStacks [e'.code] [] with mem := u.mem, pc := 0x0000#16, stash := [], cof := none } := by
      rw [hu]
      simp [State.cleared, State.withStacks, psDeep, rsDeep]
    rw [hcleared]
    exact h.inv_of_stacks (ps' := [e'.code]) (rs' := []) hfits hm (by simp) none
  · rw [hu] at ho ⊢
    exact h.inv_of_stacks (ps' := e.code :: ps) (.inr ho) hm (by simp) none

/-- An exception's entry with none of the instruction's effects. -/
theorem State.Running.inv_raise (h : s.Running) (e : Exc) : (s.raise e).Inv := h.inv_raiseFrom rfl h.memory e s.ps

/-- The entry of the fault of a data access. -/
theorem State.Running.inv_dataFault (h : s.Running) {ps' : List Cell}
    (hu : u = s ∨ ∃ a v, storesAt i s a ∧ u = s.storeWord a v) : (s.dataFault u ps').Inv := by
  obtain rfl | ⟨a, v, -, rfl⟩ := hu
  · exact h.inv_raiseFrom rfl h.memory _ _
  · refine h.inv_raiseFrom (by rw [State.storeWord_eq]) ?_ _ _
    rw [State.storeWord_mem]
    exact State.wf_putWord a v h.memory

/-- Every instruction ends with the invariant. -/
theorem exec_inv (h : s.Running) (hx : exec (decodeWord s.ir) s = .next t) : t.Inv := by
  cases exec_ends hx with
  | raised e => exact h.inv_raise e
  | after r ps' hi hr hf => exact h.inv_after hf
  | both ps' rs' hi hf => exact h.inv_afterBoth hf
  | gone ps' rs' a tag hi hf => exact h.inv_gone hf a tag
  | jumped a tag => exact h.inv_redirect a tag
  | enabled r ps' b hi hr hf => exact { h.inv_after hf with }
  | emitted r ps' v hi hr hf => exact { h.inv_after hf with }
  | took r ps' later hi hr hf => exact { h.inv_after hf with }
  | waits w hi hw hn =>
    exact { h with
      ahead := fun c hc => (h.ahead c hc).imp_right (.imp_right fun hc => ⟨hn, hc⟩)
      waits := fun _ => hi
      retried := hw }
  | stored r ps' a v hi ha hr hf => exact h.inv_stored a v hr hf
  | faulted u ps' hu => exact h.inv_dataFault hu

/-! ## The invariant between instructions -/

/-- Another master's write keeps the invariant: the old word is kept only where it may lie (R70, R73). -/
theorem State.Inv.busWrite (h : s.Inv) (a v : Cell) : (s.busWrite a v).Inv := by
  have htwo : s.pc + 1#16 + 1#16 = s.pc + 2#16 := by bv_omega
  rw [State.busWrite_eq]
  refine { h with memory := State.wf_putWord a v h.memory, ahead := fun c hc => ?_ }
  change c ∈ (s.busWrite a v).stash at hc
  change c.1 = s.pc ∨ c.1 = s.pc + 1#16 ∨ s.waiting ≠ .no ∧ c.1 = s.pc + 2#16
  rw [State.busWrite_stash] at hc
  split at hc
  · rename_i ha
    obtain rfl | hc := List.mem_cons.1 hc
    · by_cases hw : s.waiting = .no
      · simp only [State.upcoming, hw, if_true] at ha
        exact ha.imp_right .inl
      · simp only [State.upcoming, hw, if_false, htwo] at ha
        exact .inr (ha.imp_right fun ha => ⟨hw, ha⟩)
    · exact h.ahead c hc
  · exact h.ahead c hc

/-- So do several. -/
theorem State.Inv.busWrites (h : s.Inv) (ws : List (Cell × Cell)) : (s.busWrites ws).Inv := by
  induction ws generalizing s with
  | nil => exact h
  | cons w ws ih => exact ih (h.busWrite w.1 w.2)

/-- Sampling the environment keeps the invariant. -/
theorem State.Inv.latch (h : s.Inv) : s.latch.Inv := by
  unfold State.latch
  split
  · exact { h with }
  · refine State.Inv.busWrites ?_ _
    exact { h with }

/-- A reset leaves the invariant. -/
theorem State.Inv.reboot (h : s.Inv) : s.reboot.Inv where
  legal := h.legal
  memory := h.memory
  counters := ⟨Nat.zero_le _, Nat.zero_le _, Nat.zero_le _, Nat.zero_le _⟩
  capacity := by simp [State.withinCapacity]
  ahead := by simp
  waits := by simp
  retried := by simp

/-- An interrupt's entry keeps the invariant. -/
theorem State.Running.inv_enterInterrupt (h : s.Running) : s.enterInterrupt.Inv := by
  unfold State.enterInterrupt
  split
  · exact h.inv_raise _
  · rename_i ho
    have hgone : (s.gone s.ps (s.pc :: s.rs) s.irqReq (some .call)).Inv :=
      h.inv_gone (.inr ((Bool.not_eq_true _).mp ho)) _ _
    exact { hgone with }

/-- An exception's entry keeps the parameters. -/
theorem State.raise_cfg (s : State) (e : Exc) : (s.raise e).cfg = s.cfg :=
  (s.coreOnly_raiseFrom s e s.ps).cfg

/-- An interrupt's entry keeps the parameters. -/
theorem State.enterInterrupt_cfg (s : State) : s.enterInterrupt.cfg = s.cfg := by
  unfold State.enterInterrupt
  split
  · exact s.raise_cfg _
  · rfl

/-- What can stand before an instruction (R304, R306, R74), from the state that the environment's sample leaves. -/
inductive Begins (s : State) : Begin → Prop
  /-- A reset. -/
  | reset (hr : s.resetAsserted = true) : Begins s (.done s.latch.reboot)
  /-- The bus does not answer the fetch. -/
  | unanswered (hr : s.resetAsserted = false) (hf : s.latch.fetchAnswer ≠ .answered) : Begins s (.done s.latch)
  /-- An interrupt, at a boundary or in place of an access that has to be made again. -/
  | interrupted (hr : s.resetAsserted = false) (hi : s.latch.interruptTaken = true) :
      Begins s (.done { s.latch with waiting := .no }.enterInterrupt)
  /-- A fetch fault at a boundary. -/
  | fetchFault (hr : s.resetAsserted = false) (hw : s.latch.waiting = .no)
      (hv : s.latch.cfg.valid s.latch.pc .fetch = false) : Begins s (.done (s.latch.raise .addressOutOfRange))
  /-- An instruction that waits, tried again. -/
  | again (hr : s.resetAsserted = false) (ht : s.latch.triesAgain = true) :
      Begins s (.run (decodeWord s.latch.ir) { s.latch with waiting := .no })
  /-- The next instruction, at a boundary. -/
  | fetched (hr : s.resetAsserted = false) (hw : s.latch.waiting = .no)
      (hv : s.latch.cfg.valid s.latch.pc .fetch = true) :
      Begins s (.run (decodeWord s.latch.fetchWord) s.latch.fetch)

/-- Where no instruction is tried again and no interrupt is taken, the core is at a boundary. -/
theorem State.waiting_eq_no_of_not_triesAgain (ht : s.triesAgain = false) (hi : s.interruptTaken = false) :
    s.waiting = .no := by
  cases hw : s.waiting <;> simp [State.triesAgain, hw, hi] at ht ⊢

/-- Every step begins so. -/
theorem State.begin_begins (s : State) : Begins s s.begin := by
  unfold State.begin
  dsimp only
  split
  · exact .reset ‹_›
  rename_i hr
  rw [Bool.not_eq_true] at hr
  split
  · exact .again hr ‹_›
  rename_i ht
  rw [Bool.not_eq_true] at ht
  split
  · rename_i hheld
    exact .unanswered hr (by simp [hheld.2])
  split
  · exact .interrupted hr ‹_›
  rename_i hi
  rw [Bool.not_eq_true] at hi
  have hw := State.waiting_eq_no_of_not_triesAgain ht hi
  split
  · rename_i hretry
    exact .unanswered hr (by simp [hretry])
  split
  · exact .fetchFault hr hw (by simpa using ‹(!_) = true›)
  · exact .fetched hr hw (by simpa using ‹¬(!_) = true›)

/-- Settles O58: sampling keeps the invariant, and from the sampled state it is kept by whatever stands before an
instruction and by the instruction. -/
theorem everyStepKeepsTheInvariant : Obligations.EveryStepKeepsTheInvariant := by
  intro s t h hs
  have hl : s.latch.Inv := h.latch
  obtain ⟨hcfg, -⟩ := s.latch_keeps
  have hb := s.begin_begins
  unfold step at hs
  generalize s.begin = b at hb hs
  cases hb with
  | reset =>
    cases hs
    exact ⟨hl.reboot, hcfg⟩
  | unanswered =>
    cases hs
    exact ⟨hl, hcfg⟩
  | interrupted =>
    cases hs
    exact ⟨hl.running.inv_enterInterrupt, (State.enterInterrupt_cfg _).trans hcfg⟩
  | fetchFault _ hw =>
    cases hs
    exact ⟨(hl.running_of_boundary hw).inv_raise _, (State.raise_cfg _ _).trans hcfg⟩
  | again => exact ⟨exec_inv hl.running hs, (exec_frame hs).core.cfg.trans hcfg⟩
  | fetched _ hw =>
    exact ⟨exec_inv (hl.running_of_boundary hw).fetch hs, (exec_frame hs).core.cfg.trans hcfg⟩

/-- Settles O59, field by field: legal default parameters, empty memory, stacks of one cell and none. -/
theorem resetStateSatisfiesTheInvariant : Obligations.ResetStateSatisfiesTheInvariant where
  legal := by decide
  memory := State.reset_mem_wf
  counters := by decide
  capacity := by decide
  ahead := by simp [State.reset]
  waits := by simp [State.reset]
  retried := by simp [State.reset]

end Sys2Proof.Machine
end

section
/-!
PROOFS. Main memory: a word reads back after it is written, and an instruction changes memory only where it stores
(spec/20_memory.md).
-/

namespace Sys2Proof.Machine

variable {i : Instr} {s t : State}

/-! ## A written word -/

/-- Settles O47: the word written, the other words, and the bytes outside the two of the word. -/
theorem storedWordIsReadBack : Obligations.StoredWordIsReadBack := by
  intro s a v k
  exact ⟨s.readWord_putWord_same a v k, fun _ hb => s.readWord_putWord_of_ne a v k hb,
    s.readByte_putWord_of_ne a v k⟩

/-! ## Where an instruction changes memory -/

/-- What a byte reads as rests on memory and the draw alone (R65). -/
theorem State.readByte_congr (hm : t.mem = s.mem) (hd : t.draw = s.draw) (k : Access) (n : Nat) :
    t.readByte k n = s.readByte k n := by
  rw [State.readByte, State.readByte, hm, hd]

/-- An exception's entry leaves memory alone (R284). -/
theorem State.raiseFrom_mem (b s : State) (e : Exc) (ps : List Cell) : (b.raiseFrom e s ps).mem = s.mem := by
  obtain ⟨e', h⟩ | ⟨-, h⟩ := b.raiseFrom_eq s ps e <;> rw [h] <;> rfl

/-- Memory is as before, or holds one more word, at the address at which the instruction stores (R66). -/
theorem exec_mem (h : exec i s = .next t) :
    t.mem = s.mem ∨ ∃ a v, storesAt i s a ∧ t.mem = (s.putWord a v).mem := by
  cases exec_ends h with
  | raised e => exact .inl (s.raiseFrom_mem s e s.ps)
  | after | both | gone | jumped | enabled | emitted | took | waits => exact .inl rfl
  | stored r ps' a v hi ha hr => exact .inr ⟨a, v, ha, by rw [State.finish_storeWord ps' a v hr]⟩
  | faulted u ps' hu =>
    have hmem : (s.dataFault u ps').mem = u.mem := State.raiseFrom_mem ..
    obtain rfl | ⟨a, v, ha, rfl⟩ := hu
    · exact .inl hmem
    · exact .inr ⟨a, v, ha, hmem.trans (s.storeWord_mem a v)⟩

/-- Memory is as before where the instruction stores nowhere. -/
theorem exec_mem_of_stores_nowhere (h : exec i s = .next t) (hn : ∀ a, ¬ storesAt i s a) : t.mem = s.mem :=
  (exec_mem h).resolve_right fun ⟨a, _, ha, _⟩ => hn a ha

/-- A byte outside the word at the only address at which the instruction may store reads as before. -/
theorem exec_readByte_of_stores_only_at {a : Cell} (h : exec i s = .next t) (hs : ∀ b, storesAt i s b → b = a)
    (k : Access) (n : Nat) (h0 : n ≠ 2 * a.toNat) (h1 : n ≠ 2 * a.toNat + 1) : t.readByte k n = s.readByte k n := by
  have hd : t.draw = s.draw := by rw [(exec_frame h).core]
  obtain hm | ⟨b, v, hb, hm⟩ := exec_mem h
  · exact State.readByte_congr hm hd k n
  · obtain rfl := hs b hb
    calc t.readByte k n = (s.putWord b v).readByte k n := State.readByte_congr hm hd k n
      _ = s.readByte k n := s.readByte_putWord_of_ne b v k n h0 h1

/-- STI stores at the top of the parameter stack (R231). -/
theorem storesAt_sti_head {r : Bool} {a b : Cell} (ha : s.ps.head? = some a) (h : storesAt (.sti r) s b) : b = a := by
  obtain ⟨v, rest, hp⟩ := h
  simpa [hp] using ha

/-- STI stores only with both its operands. -/
theorem not_storesAt_sti {r : Bool} (hl : s.ps.length < 2) (b : Cell) : ¬ storesAt (.sti r) s b := by
  rintro ⟨v, rest, hp⟩
  simp [hp] at hl

/-- Settles O55: the address at which the instruction stores, if it does, read off for each kind of instruction. -/
theorem memoryChangesOnlyWhereAStoreGoes : Obligations.MemoryChangesOnlyWhereAStoreGoes := by
  intro i s t h
  refine ⟨fun hi => ?_, ?_, ?_⟩
  · have hm := exec_mem_of_stores_nowhere h fun a ha => by simp [storing_of_storesAt ha] at hi
    exact ⟨hm, State.readByte_congr hm (by rw [(exec_frame h).core])⟩
  · rintro r rfl
    exact ⟨fun a ha => exec_readByte_of_stores_only_at h fun _ => storesAt_sti_head ha,
      fun hl => exec_mem_of_stores_nowhere h (not_storesAt_sti hl)⟩
  · rintro r m8 rfl
    refine ⟨?_, fun hp => exec_mem_of_stores_nowhere h fun _ ⟨_, hne⟩ => hne hp⟩
    rintro a rfl
    exact exec_readByte_of_stores_only_at h fun _ ⟨hb, _⟩ => hb

end Sys2Proof.Machine
end

section
/-!
PROOFS. The encoding: a word is the fields of its class, the decoder reads them, and every row of spec/opcode_table.json
is one choice of them (spec/30_encoding.md).
-/

namespace Sys2Proof.Machine

open Sys2Proof.Laws

/-! ## Bits and fields of a word -/

/-- The model's bit of a word is the bit vector's. -/
theorem wordBit_eq_getLsbD (w : Cell) (i : Nat) : wordBit w i = w.getLsbD i := by
  rw [← BitVec.testBit_toNat, Nat.testBit_eq_decide_div_mod_eq]
  rfl

/-- A bit of a word as a number. -/
theorem toNat_wordBit (w : Cell) (i : Nat) : (wordBit w i).toNat = w.toNat / 2 ^ i % 2 := by
  obtain h | h := Nat.mod_two_eq_zero_or_one (w.toNat / 2 ^ i) <;> simp [wordBit, h]

/-- A bit of a number's word is read off the number. -/
theorem wordBit_ofNat_eq {n i : Nat} (b : Bool) (hn : n < 65536) (h : n / 2 ^ i % 2 = b.toNat) :
    wordBit (BitVec.ofNat 16 n) i = b := by
  rw [wordBit_ofNat n i hn, h]
  cases b <;> rfl

/-- A field of a number's word is read off the number. -/
theorem wordField_ofNat_eq {n lo len : Nat} {x : BitVec len} (hn : n < 65536) (h : n / 2 ^ lo % 2 ^ len = x.toNat) :
    wordField (BitVec.ofNat 16 n) lo len = x := by
  rw [wordField_ofNat n lo len hn]
  exact BitVec.eq_of_toNat_eq (by rw [BitVec.toNat_ofNat, h])

/-- The return bit's weight (R91). -/
theorem returnBits_eq (r : Bool) : returnBits r = r.toNat * 0x8000 := by cases r <;> rfl

/-! ## What the decoder of each class answers -/

/-- `i` is a well-formed instruction of class `c`, and `n` is its word. -/
structure IsRowOf (c : InstrClass) (n : Nat) (i : Instr) : Prop where
  wellFormed : i.wellFormed = true
  classOf_eq : classOf i = c
  encodeNat_eq : encodeNat i = n

/-- Format J (R92). -/
theorem decodeJump_isRowOf (r : Bool) (a14 : BitVec 14) :
    IsRowOf .jump (r.toNat * 0x8000 + 0x4000 + a14.toNat) (decodeJump r a14) := by
  by_cases h : a14 = 0x3FFF#14
  · subst h
    cases r <;> exact ⟨rfl, rfl, rfl⟩
  · cases r <;> simp only [decodeJump, h, if_false, if_true, Bool.false_eq_true] <;>
      exact ⟨bne_iff_ne.mpr h, rfl, by simp [encodeNat]⟩

/-- Format B (R93): the return bit selects the row without a meaning. -/
def decodeBranch (r : Bool) (rel13 : BitVec 13) : Instr := if r then .brzReturn rel13 else .brz rel13

/-- Format B (R93). -/
theorem decodeBranch_isRowOf (r : Bool) (rel13 : BitVec 13) :
    IsRowOf .branch (r.toNat * 0x8000 + 0x2000 + rel13.toNat) (decodeBranch r rel13) := by
  cases r <;> exact ⟨rfl, rfl, by simp [decodeBranch, encodeNat]⟩

/-- Format L (R94). -/
theorem lit_isRowOf (r : Bool) (lit12 : BitVec 12) :
    IsRowOf .literal (r.toNat * 0x8000 + 0x1000 + lit12.toNat) (.lit r lit12) :=
  ⟨rfl, rfl, by rw [encodeNat, returnBits_eq]⟩

/-- Format A with the operator 11100, whose form without an immediate is a row of its own (R177, R178). -/
theorem decodeAlu_lithi_isRowOf (r t : Bool) (imm5 : BitVec 5) :
    IsRowOf .alu (r.toNat * 0x8000 + 0x0800 + t.toNat * 0x400 + 28 * 32 + imm5.toNat) (decodeAlu r t 28#5 imm5) := by
  by_cases h : imm5 = 0#5
  · subst h
    cases r <;> cases t <;> exact ⟨rfl, rfl, rfl⟩
  · have hd : decodeAlu r t 28#5 imm5 = if t then .lithi r imm5 else .lithiD r imm5 := if_neg h
    rw [hd]
    cases t <;> exact ⟨bne_iff_ne.mpr h, rfl, by simp [encodeNat, returnBits_eq]⟩

/-- Format A (R95): one row for each operator and each width of the result. -/
theorem decodeAlu_isRowOf (r t : Bool) (op imm5 : BitVec 5) :
    IsRowOf .alu (r.toNat * 0x8000 + 0x0800 + t.toNat * 0x400 + op.toNat * 32 + imm5.toNat)
      (decodeAlu r t op imm5) := by
  by_cases h : op = 28#5
  · subst h
    exact decodeAlu_lithi_isRowOf r t imm5
  · obtain ⟨⟨n, hn⟩⟩ := op
    have hne : n ≠ 28 := fun h28 => h (BitVec.eq_of_toNat_eq h28)
    obtain hlow | hhigh := Nat.lt_or_gt_of_ne hne
    · interval_cases n <;> cases t <;> exact ⟨rfl, rfl, by simp [decodeAlu, encodeNat, returnBits_eq]⟩
    · interval_cases n <;> cases t <;> exact ⟨rfl, rfl, by simp [decodeAlu, encodeNat, returnBits_eq]⟩

/-- A pattern that is not one of the named ones is the general row's. -/
theorem decodeStack_of_not_named (r : Bool) {p : StkPattern} (h : p ∉ StkPattern.named) :
    decodeStack r p = .stk r p := by
  simp only [StkPattern.named, List.mem_cons, List.not_mem_nil, or_false, not_or] at h
  simp only [decodeStack, h, if_false]

/-- An address without a register of its own is the general rows'. -/
theorem decodeFunction_of_no_register (r rd : Bool) {fadr : BitVec 8} (h : 0x06#8 < fadr) :
    decodeFunction r rd fadr = if rd then .frr r fadr else .frw r fadr := by
  have h6 : 6 < fadr.toNat := h
  obtain ⟨n, hn⟩ : ∃ n, fadr.toNat = n + 7 := ⟨fadr.toNat - 7, by omega⟩
  rw [decodeFunction, hn]
  rfl

/-- Format S (R96): the thirteen named patterns, and the general row for the others. -/
theorem decodeStack_isRowOf (r : Bool) (p : StkPattern) :
    IsRowOf .stack (r.toNat * 0x8000 + 0x0400 + encodePattern p) (decodeStack r p) := by
  by_cases h : p ∈ StkPattern.named
  · fin_cases h <;> exact ⟨rfl, rfl, by cases r <;> rfl⟩
  · rw [decodeStack_of_not_named r h]
    exact ⟨by simpa [Instr.wellFormed] using h, rfl, by rw [encodeNat, returnBits_eq]⟩

/-- Format M (R97). -/
theorem decodeMemory_isRowOf (r rd : Bool) (m8 : BitVec 8) :
    IsRowOf .memory (r.toNat * 0x8000 + 0x0200 + rd.toNat * 0x100 + m8.toNat) (decodeMemory r rd m8) := by
  by_cases h : m8 = 0xFF#8
  · subst h
    cases r <;> cases rd <;> exact ⟨rfl, rfl, rfl⟩
  · cases rd <;> simp only [decodeMemory, h, if_false, if_true, Bool.false_eq_true] <;>
      exact ⟨bne_iff_ne.mpr h, rfl, by simp [encodeNat, returnBits_eq]⟩

/-- Format F (R98): the seven registers of R28, and the general rows for the other addresses. -/
theorem decodeFunction_isRowOf (r rd : Bool) (fadr : BitVec 8) :
    IsRowOf .function (r.toNat * 0x8000 + rd.toNat * 0x100 + fadr.toNat) (decodeFunction r rd fadr) := by
  by_cases h : 0x06#8 < fadr
  · rw [decodeFunction_of_no_register r rd h]
    cases rd <;> exact ⟨decide_eq_true h, rfl, by simp [encodeNat, returnBits_eq]⟩
  · obtain ⟨⟨n, hn⟩⟩ := fadr
    have h6 : n ≤ 6 := Nat.not_lt.mp h
    interval_cases n <;> cases rd <;> exact ⟨rfl, rfl, by simp [decodeFunction, encodeNat, returnBits_eq]⟩

/-! ## The fields of a word -/

/-- The fields of the seven formats (R92 to R98). -/
inductive WordFields where
  | jump (r : Bool) (a14 : BitVec 14)
  | branch (r : Bool) (rel13 : BitVec 13)
  | literal (r : Bool) (lit12 : BitVec 12)
  | alu (r t : Bool) (op imm5 : BitVec 5)
  | stack (r : Bool) (p : StkPattern)
  | memory (r rd : Bool) (m8 : BitVec 8)
  | function (r rd : Bool) (fadr : BitVec 8)

/-- The class whose format has these fields. -/
def WordFields.instrClass : WordFields → InstrClass
  | .jump .. => .jump
  | .branch .. => .branch
  | .literal .. => .literal
  | .alu .. => .alu
  | .stack .. => .stack
  | .memory .. => .memory
  | .function .. => .function

/-- The word, as a number, that the format makes of the fields. -/
def WordFields.number : WordFields → Nat
  | .jump r a14 => r.toNat * 0x8000 + 0x4000 + a14.toNat
  | .branch r rel13 => r.toNat * 0x8000 + 0x2000 + rel13.toNat
  | .literal r lit12 => r.toNat * 0x8000 + 0x1000 + lit12.toNat
  | .alu r t op imm5 => r.toNat * 0x8000 + 0x0800 + t.toNat * 0x400 + op.toNat * 32 + imm5.toNat
  | .stack r p => r.toNat * 0x8000 + 0x0400 + encodePattern p
  | .memory r rd m8 => r.toNat * 0x8000 + 0x0200 + rd.toNat * 0x100 + m8.toNat
  | .function r rd fadr => r.toNat * 0x8000 + rd.toNat * 0x100 + fadr.toNat

/-- The instruction that the class's decoder reads from the fields. -/
def WordFields.instr : WordFields → Instr
  | .jump r a14 => decodeJump r a14
  | .branch r rel13 => decodeBranch r rel13
  | .literal r lit12 => .lit r lit12
  | .alu r t op imm5 => decodeAlu r t op imm5
  | .stack r p => decodeStack r p
  | .memory r rd m8 => decodeMemory r rd m8
  | .function r rd fadr => decodeFunction r rd fadr

/-- Every choice of fields is a well-formed instruction of the class, and the encoder writes the format's word. -/
theorem WordFields.instr_isRowOf (f : WordFields) : IsRowOf f.instrClass f.number f.instr :=
  match f with
  | .jump r a14 => decodeJump_isRowOf r a14
  | .branch r rel13 => decodeBranch_isRowOf r rel13
  | .literal r lit12 => lit_isRowOf r lit12
  | .alu r t op imm5 => decodeAlu_isRowOf r t op imm5
  | .stack r p => decodeStack_isRowOf r p
  | .memory r rd m8 => decodeMemory_isRowOf r rd m8
  | .function r rd fadr => decodeFunction_isRowOf r rd fadr

/-- The encoder writes the format's word. -/
theorem WordFields.encode_instr (f : WordFields) : encode f.instr = BitVec.ofNat 16 f.number := by
  rw [encode, f.instr_isRowOf.encodeNat_eq]

/-- A format's word has 16 bits (R90). -/
theorem WordFields.number_lt (f : WordFields) : f.number < 65536 := by
  cases f with
  | jump r a14 => have := r.toNat_lt; simp only [number]; omega
  | branch r rel13 => have := r.toNat_lt; simp only [number]; omega
  | literal r lit12 => have := r.toNat_lt; simp only [number]; omega
  | alu r t op imm5 => have := r.toNat_lt; have := t.toNat_lt; simp only [number]; omega
  | stack r p => have := r.toNat_lt; have := TableRow.encodePattern_lt p; simp only [number]; omega
  | memory r rd m8 => have := r.toNat_lt; have := rd.toNat_lt; simp only [number]; omega
  | function r rd fadr => have := r.toNat_lt; have := rd.toNat_lt; simp only [number]; omega

/-- The decoder reads the fields back from the format's word (R100). -/
theorem WordFields.decodeWord_number (f : WordFields) : decodeWord (BitVec.ofNat 16 f.number) = f.instr := by
  have hlt := f.number_lt
  generalize hn : f.number = n at hlt ⊢
  have bit (i : Nat) (b : Bool) := wordBit_ofNat_eq (i := i) b hlt
  have isSet (i : Nat) := bit i true
  have isClear (i : Nat) := bit i false
  have field (lo : Nat) {len : Nat} (x : BitVec len) := wordField_ofNat_eq (lo := lo) (x := x) hlt
  simp only [Bool.toNat_true, Bool.toNat_false] at isSet isClear
  cases f with
  | jump r a14 =>
    simp only [number] at hn
    have hr := r.toNat_lt
    simp [decodeWord, instr, isSet 14 (by omega), bit 15 r (by omega), field 0 a14 (by omega)]
  | branch r rel13 =>
    simp only [number] at hn
    have hr := r.toNat_lt
    simp [decodeWord, instr, decodeBranch, isClear 14 (by omega), isSet 13 (by omega), bit 15 r (by omega),
      field 0 rel13 (by omega)]
  | literal r lit12 =>
    simp only [number] at hn
    have hr := r.toNat_lt
    simp [decodeWord, instr, isClear 14 (by omega), isClear 13 (by omega), isSet 12 (by omega), bit 15 r (by omega),
      field 0 lit12 (by omega)]
  | alu r t op imm5 =>
    simp only [number] at hn
    have hr := r.toNat_lt
    have ht := t.toNat_lt
    simp [decodeWord, instr, isClear 14 (by omega), isClear 13 (by omega), isClear 12 (by omega),
      isSet 11 (by omega), bit 15 r (by omega), bit 10 t (by omega), field 5 op (by omega), field 0 imm5 (by omega)]
  | stack r p =>
    simp only [number] at hn
    have hr := r.toNat_lt
    have hp := TableRow.encodePattern_lt p
    have hpat : decodePattern (BitVec.ofNat 16 n) = p := by
      have hc : 1024 * (1 + 32 * r.toNat) + encodePattern p = n := by omega
      rw [← hc] at hlt ⊢
      exact decodePattern_encodePattern p _ hlt
    simp [decodeWord, instr, isClear 14 (by omega), isClear 13 (by omega), isClear 12 (by omega),
      isClear 11 (by omega), isSet 10 (by omega), bit 15 r (by omega), hpat]
  | memory r rd m8 =>
    simp only [number] at hn
    have hr := r.toNat_lt
    have hrd := rd.toNat_lt
    simp [decodeWord, instr, isClear 14 (by omega), isClear 13 (by omega), isClear 12 (by omega),
      isClear 11 (by omega), isClear 10 (by omega), isSet 9 (by omega), bit 15 r (by omega), bit 8 rd (by omega),
      field 0 m8 (by omega)]
  | function r rd fadr =>
    simp only [number] at hn
    have hr := r.toNat_lt
    have hrd := rd.toNat_lt
    simp [decodeWord, instr, isClear 14 (by omega), isClear 13 (by omega), isClear 12 (by omega),
      isClear 11 (by omega), isClear 10 (by omega), isClear 9 (by omega), bit 15 r (by omega), bit 8 rd (by omega),
      field 0 fadr (by omega)]

/-- The seven formats exhaust all words (R90). -/
theorem WordFields.exists_number_eq (w : Cell) : ∃ f : WordFields, f.number = w.toNat := by
  have hw := w.isLt
  by_cases h14 : w.toNat / 2 ^ 14 % 2 = 1
  · exact ⟨.jump (wordBit w 15) (wordField w 0 14), by simp only [number, toNat_wordBit, wordField_toNat]; omega⟩
  by_cases h13 : w.toNat / 2 ^ 13 % 2 = 1
  · exact ⟨.branch (wordBit w 15) (wordField w 0 13), by simp only [number, toNat_wordBit, wordField_toNat]; omega⟩
  by_cases h12 : w.toNat / 2 ^ 12 % 2 = 1
  · exact ⟨.literal (wordBit w 15) (wordField w 0 12), by
      simp only [number, toNat_wordBit, wordField_toNat]; omega⟩
  by_cases h11 : w.toNat / 2 ^ 11 % 2 = 1
  · exact ⟨.alu (wordBit w 15) (wordBit w 10) (wordField w 5 5) (wordField w 0 5), by
      simp only [number, toNat_wordBit, wordField_toNat]; omega⟩
  by_cases h10 : w.toNat / 2 ^ 10 % 2 = 1
  · exact ⟨.stack (wordBit w 15) (decodePattern w), by
      simp only [number, toNat_wordBit, encodePattern_decodePattern]; omega⟩
  by_cases h9 : w.toNat / 2 ^ 9 % 2 = 1
  · exact ⟨.memory (wordBit w 15) (wordBit w 8) (wordField w 0 8), by
      simp only [number, toNat_wordBit, wordField_toNat]; omega⟩
  · exact ⟨.function (wordBit w 15) (wordBit w 8) (wordField w 0 8), by
      simp only [number, toNat_wordBit, wordField_toNat]; omega⟩

/-! ## Every row is a choice of fields -/

/-- The word of an instruction's row of spec/opcode_table.json with its operands' bits clear: the row's match. -/
def rowWord (i : Instr) : Cell := BitVec.ofNat 16 (TableRow.row i).2

section rows

variable {i : Instr}

/-- A well-formed instruction of class J is a return bit and an address (R92). -/
theorem WordFields.exists_of_jump (hc : classOf i = .jump) (hi : i.wellFormed = true) : ∃ f, instr f = i := by
  cases i <;> cases hc
  case jumpi => exact ⟨.jump true 0x3FFF#14, rfl⟩
  case calli => exact ⟨.jump false 0x3FFF#14, rfl⟩
  case jump a14 => exact ⟨.jump true a14, if_neg (bne_iff_ne.mp hi)⟩
  case call a14 => exact ⟨.jump false a14, if_neg (bne_iff_ne.mp hi)⟩

/-- An instruction of class B is a return bit and an offset (R93). -/
theorem WordFields.exists_of_branch (hc : classOf i = .branch) : ∃ f, instr f = i := by
  cases i <;> cases hc
  case brz rel13 => exact ⟨.branch false rel13, rfl⟩
  case brzReturn rel13 => exact ⟨.branch true rel13, rfl⟩

/-- An instruction of class L is a return bit and a value (R94). -/
theorem WordFields.exists_of_literal (hc : classOf i = .literal) : ∃ f, instr f = i := by
  cases i <;> cases hc
  case lit r lit12 => exact ⟨.literal r lit12, rfl⟩

/-- A well-formed instruction of class A is a return bit, an operand, and the width and the operator in its row's
match (R95); only LITHI's rows share an operator (R177, R178). -/
theorem WordFields.exists_of_alu (hc : classOf i = .alu) (hi : i.wellFormed = true) : ∃ f, instr f = i := by
  have of_row (r : Bool) (imm5 : BitVec 5)
      (h : decodeAlu r (wordBit (rowWord i) 10) (wordField (rowWord i) 5 5) imm5 = i) :
      ∃ f, instr f = i := ⟨.alu .., h⟩
  cases i <;> cases hc
  case lithiStackForm r t => exact ⟨.alu r t 28#5 0#5, rfl⟩
  case lithi r imm5 => exact ⟨.alu r true 28#5 imm5, if_neg (bne_iff_ne.mp hi)⟩
  case lithiD r imm5 => exact ⟨.alu r false 28#5 imm5, if_neg (bne_iff_ne.mp hi)⟩
  all_goals
    rename_i r imm5
    exact of_row r imm5 (by rw [rowWord, TableRow.row]; rfl)

/-- A well-formed instruction of class S is a return bit and a pattern, which for a named row is the one in its match
(R96). -/
theorem WordFields.exists_of_stack (hc : classOf i = .stack) (hi : i.wellFormed = true) : ∃ f, instr f = i := by
  have of_row (r : Bool) (h : decodeStack r (decodePattern (rowWord i)) = i) :
      ∃ f, instr f = i := ⟨.stack .., h⟩
  cases i <;> cases hc
  case stk r p => exact ⟨.stack r p, decodeStack_of_not_named r (by simpa [Instr.wellFormed] using hi)⟩
  all_goals
    rename_i r
    exact of_row r (by rw [rowWord, TableRow.row]; rfl)

/-- A well-formed instruction of class M is a return bit, a direction and an address (R97). -/
theorem WordFields.exists_of_memory (hc : classOf i = .memory) (hi : i.wellFormed = true) : ∃ f, instr f = i := by
  cases i <;> cases hc
  case sti r => exact ⟨.memory r false 0xFF#8, rfl⟩
  case ldi r => exact ⟨.memory r true 0xFF#8, rfl⟩
  case st r m8 => exact ⟨.memory r false m8, if_neg (bne_iff_ne.mp hi)⟩
  case ld r m8 => exact ⟨.memory r true m8, if_neg (bne_iff_ne.mp hi)⟩

/-- A well-formed instruction of class F is a return bit, a direction and an address, which for the registers of R28
stand in the row's match (R98). -/
theorem WordFields.exists_of_function (hc : classOf i = .function) (hi : i.wellFormed = true) : ∃ f, instr f = i := by
  have of_row (r : Bool)
      (h : decodeFunction r (wordBit (rowWord i) 8) (wordField (rowWord i) 0 8) = i) :
      ∃ f, instr f = i := ⟨.function .., h⟩
  cases i <;> cases hc
  case frw r fadr => exact ⟨.function r false fadr, decodeFunction_of_no_register r false (of_decide_eq_true hi)⟩
  case frr r fadr => exact ⟨.function r true fadr, decodeFunction_of_no_register r true (of_decide_eq_true hi)⟩
  all_goals
    rename_i r
    exact of_row r (by rw [rowWord, TableRow.row]; rfl)

/-- A well-formed instruction is what its class's decoder reads from some fields (R92 to R98). -/
theorem WordFields.exists_instr_eq (hi : i.wellFormed = true) : ∃ f, instr f = i := by
  cases hc : classOf i with
  | jump => exact exists_of_jump hc hi
  | branch => exact exists_of_branch hc
  | literal => exact exists_of_literal hc
  | alu => exact exists_of_alu hc hi
  | stack => exact exists_of_stack hc hi
  | memory => exact exists_of_memory hc hi
  | function => exact exists_of_function hc hi

end rows

/-! ## The obligations -/

/-- Settles O2: a well-formed instruction is what the decoder of its class reads from some fields, the encoder writes
those fields' word, and the decoder reads the fields back. -/
theorem decodeOfEncodeIsTheInstruction : Obligations.DecodeOfEncodeIsTheInstruction := by
  intro i hi
  obtain ⟨f, rfl⟩ := WordFields.exists_instr_eq hi
  rw [f.encode_instr, f.decodeWord_number]

/-- Settles O3: every word is some fields' word, and these are what the decoder reads and the encoder writes. -/
theorem encodeOfDecodeIsTheWord : Obligations.EncodeOfDecodeIsTheWord := by
  intro w
  obtain ⟨f, hf⟩ := WordFields.exists_number_eq w
  have hw : BitVec.ofNat 16 f.number = w := by rw [hf, BitVec.ofNat_toNat, BitVec.setWidth_eq]
  have hd : decodeWord w = f.instr := by rw [← hw, f.decodeWord_number]
  rw [hd]
  exact ⟨f.instr_isRowOf.wellFormed, by rw [f.encode_instr, hw]⟩

/-- Settles O4: the decoder asks the bits in the order of R100, and each class's decoder answers with an instruction
of the class. -/
theorem classIsTheLeadingOne : Obligations.ClassIsTheLeadingOne := by
  intro w
  simp only [← wordBit_eq_getLsbD, decodeWord]
  split
  · exact (decodeJump_isRowOf _ _).classOf_eq
  split
  · exact (decodeBranch_isRowOf _ _).classOf_eq
  split
  · exact (lit_isRowOf _ _).classOf_eq
  split
  · exact (decodeAlu_isRowOf _ _ _ _).classOf_eq
  split
  · exact (decodeStack_isRowOf _ _).classOf_eq
  split
  · exact (decodeMemory_isRowOf _ _ _).classOf_eq
  · exact (decodeFunction_isRowOf _ _ _).classOf_eq

/-- Settles O1: the decoder is run on the sixteen words. -/
theorem wordsOfEveryClassDecode : Obligations.WordsOfEveryClassDecode := by
  unfold Obligations.WordsOfEveryClassDecode
  decide

end Sys2Proof.Machine
end

section
/-!
PROOFS. The return bit: the instructions that have no meaning with it, and its check of the return stack, which every
other instruction makes before any effect (spec/40_return.md).
-/

namespace Sys2Proof.Machine

variable {i : Instr} {s : State} {p : StkPattern}

/-! ## The return bit on instructions that use the return stack (R122) -/

/-- A pattern uses the return stack by the transfer over U0 or by its intermediate stack. -/
theorem usesReturnStack_iff : usesReturnStack p = true ↔ p.u0 ≠ .none ∨ p.irs = true := by
  simp [usesReturnStack]

/-- A defined pattern that uses the return stack is refused with the return bit. -/
theorem exec_stk_true_of_uses (hp : reserved p = false) (hu : usesReturnStack p = true) :
    exec (.stk true p) s = .refused .returnBitOnReturnStackUse := by
  simp [exec, execStk, hp, hu]

/-- A defined pattern that does not use the return stack makes its transition. -/
theorem exec_stk_true_of_unused (hp : reserved p = false) (hu : usesReturnStack p = false) :
    exec (.stk true p) s = s.transition true p := by
  simp [exec, execStk, hp, hu]

/-- Settles O40: the five named instructions ask for the return bit before they look at the state, and a defined
pattern is refused as one that uses the return stack. -/
theorem returnBitOnReturnStackUseHasNoMeaning : Obligations.ReturnBitOnReturnStackUseHasNoMeaning := by
  refine ⟨fun s i hi => ?_, fun p s hp hu => exec_stk_true_of_uses hp (usesReturnStack_iff.mpr hu)⟩
  simp only [List.mem_cons, List.not_mem_nil, or_false] at hi
  obtain rfl | rfl | rfl | rfl | rfl := hi
  all_goals rfl

/-! ## The cells that a pattern needs (R206) -/

/-- The cell of the upper parameter stack at a depth. -/
def psSpot : Fin 4 → Spot
  | 0 => .ps0
  | 1 => .ps1
  | 2 => .ps2
  | 3 => .ps3

/-- What such a cell holds is the parameter stack's cell at its depth. -/
@[simp] theorem value_psSpot (ps rs : List Cell) (k : Fin 4) : value ps rs (psSpot k) = ps[k.val]? := by
  match k with
  | 0 | 1 | 2 | 3 => rfl

/-- The four rules of R206 are one condition on a cell's source and on how often its content is passed on. -/
theorem required_eq_cellNeeded (p : StkPattern) (c : Spot) :
    required p c = cellNeeded (source p c).isSome (outs p c) (swapRule p c) (crossRule p c) := by
  simp [required, dropRule, dupRule, cellNeeded]

/-- In a defined pattern a cell receives from one side at most (R204). -/
theorem reserved_eq_false_iff : reserved p = false ↔
    (ustUp p.u1 = true → ustDown p.u0 = false) ∧ (ustUp p.u2 = true → ustDown p.u1 = false) ∧
      (ustUp p.u3 = true → ustDown p.u2 = false) := by
  simp [reserved, and_assoc]

/-- Of the two transfers into a cell at most one takes place. -/
theorem transfer_eq_some_iff {up down : Bool} (h : up = true → down = false) (c d e : Spot) :
    (if up then some c else if down then some d else none) = some e ↔
      (up = true ∧ c = e) ∨ (down = true ∧ d = e) := by
  cases up
  · simp
  · simp [h rfl]

/-- A cell is written by either of the two transfers into it. -/
theorem isSome_transfer (up down : Bool) (c d : Spot) :
    (if up then some c else if down then some d else none).isSome = (up || down) := by
  cases up
  · cases down <;> rfl
  · rfl

/-- PS0 takes its value over U1 or over U0 (R201). -/
theorem source_ps0_eq_some_iff (hp : reserved p = false) (c : Spot) :
    source p .ps0 = some c ↔ (ustUp p.u1 = true ∧ .ps1 = c) ∨ (ustDown p.u0 = true ∧ .rs0 = c) :=
  transfer_eq_some_iff (reserved_eq_false_iff.mp hp).1 ..

/-- PS1 takes its value over U2 or over U1 (R201). -/
theorem source_ps1_eq_some_iff (hp : reserved p = false) (c : Spot) :
    source p .ps1 = some c ↔ (ustUp p.u2 = true ∧ .ps2 = c) ∨ (ustDown p.u1 = true ∧ .ps0 = c) :=
  transfer_eq_some_iff (reserved_eq_false_iff.mp hp).2.1 ..

/-- PS2 takes its value over U3 or over U2 (R201). -/
theorem source_ps2_eq_some_iff (hp : reserved p = false) (c : Spot) :
    source p .ps2 = some c ↔ (ustUp p.u3 = true ∧ .ps3 = c) ∨ (ustDown p.u2 = true ∧ .ps1 = c) :=
  transfer_eq_some_iff (reserved_eq_false_iff.mp hp).2.2 ..

/-- PS3 takes its value over U3 or from the intermediate stack (R202). -/
theorem source_ps3_eq_some_iff (p : StkPattern) (c : Spot) :
    source p .ps3 = some c ↔ (ustDown p.u3 = true ∧ .ps2 = c) ∨ (ipsPull p = true ∧ .i = c) :=
  transfer_eq_some_iff (by simp +contextual [ipsPull]) ..

/-- RS0 takes its value over U0 or from the intermediate return stack (R203). -/
theorem source_rs0_eq_some_iff (p : StkPattern) (c : Spot) :
    source p .rs0 = some c ↔ (ustUp p.u0 = true ∧ .ps0 = c) ∨ (irsPull p = true ∧ .j = c) :=
  transfer_eq_some_iff (by simp +contextual [irsPull]) ..

/-- The count of two bits as the model counts the cells that take a value. -/
theorem bitCount_eq (a b : Bool) : bitCount a b = (if a then 1 else 0) + if b then 1 else 0 := by
  cases a <;> cases b <;> rfl

/-- How often a defined pattern passes on each cell of the upper parameter stack: once for each transfer out of it. -/
theorem outs_eq_bitCount (hp : reserved p = false) :
    outs p .ps0 = bitCount (ustUp p.u0) (ustDown p.u1) ∧ outs p .ps1 = bitCount (ustUp p.u1) (ustDown p.u2) ∧
      outs p .ps2 = bitCount (ustUp p.u2) (ustDown p.u3) ∧
      outs p .ps3 = bitCount (ustUp p.u3) (p.ips && ustDown p.u3) := by
  simp [outs, upperCells, ← List.countP_eq_length_filter, List.countP_cons, source_ps0_eq_some_iff hp,
    source_ps1_eq_some_iff hp, source_ps2_eq_some_iff hp, source_ps3_eq_some_iff, source_rs0_eq_some_iff,
    bitCount_eq, ipsPush, Nat.add_comm]

/-- A cell of the parameter stack is required exactly if the transfer bits say so: in a defined pattern every transfer
out of a cell reaches the cell that it goes to. -/
theorem required_psSpot (hp : reserved p = false) (k : Fin 4) : required p (psSpot k) = patternNeeds p k := by
  obtain ⟨h0, h1, h2, h3⟩ := outs_eq_bitCount hp
  rw [required_eq_cellNeeded]
  match k with
  | 0 => simp [psSpot, patternNeeds, source, isSome_transfer, h0, swapRule, crossRule]
  | 1 => simp [psSpot, patternNeeds, source, isSome_transfer, h1, swapRule, crossRule]
  | 2 => simp [psSpot, patternNeeds, source, isSome_transfer, h2, swapRule, crossRule]
  | 3 =>
    have hsource : (ustDown p.u3 || ipsPull p) = (ustDown p.u3 || p.ips) := by
      cases hd : ustDown p.u3 <;> simp [ipsPull, hd]
    simp [psSpot, patternNeeds, source, isSome_transfer, h3, swapRule, crossRule, hsource]

/-- The parameter stack lacks no cell that a defined pattern requires exactly if it is deep enough for every cell that
the transfer bits need. -/
theorem lacksParameter_eq_false_iff (hp : reserved p = false) (ps rs : List Cell) :
    lacksParameter p ps rs = false ↔ ∀ k : Fin 4, patternNeeds p k = true → k.val < ps.length := by
  have hspots : [Spot.ps0, .ps1, .ps2, .ps3] = (List.finRange 4).map psSpot := rfl
  simp [lacksParameter, hspots, required_psSpot hp]

/-! ## The return bit's check on an empty return stack (R121) -/

/-- The answer of an instruction with the return bit that finds no return address. -/
theorem State.checkReturn_true_of_empty (hs : s.rs = []) (go : Result) :
    s.checkReturn true go = .next (s.raise .rsUnderflow) := by
  simp [State.checkReturn, hs]

/-- The same for an instruction that has its one operand. -/
theorem State.pop1_true_of_empty (hs : s.rs = []) (hn : 1 ≤ s.ps.length) (go : Cell → List Cell → Result) :
    s.pop1 true go = .next (s.raise .rsUnderflow) := by
  obtain ⟨hp, -⟩ | ⟨x, rest, -, h⟩ := s.pop1_eq true go
  · simp [hp] at hn
  · exact h.trans (State.checkReturn_true_of_empty hs _)

/-- The same for an instruction that has its two operands. -/
theorem State.pop2_true_of_empty (hs : s.rs = []) (hn : 2 ≤ s.ps.length) (go : Cell → Cell → List Cell → Result) :
    s.pop2 true go = .next (s.raise .rsUnderflow) := by
  obtain ⟨hp, -⟩ | ⟨x, y, rest, -, h⟩ := s.pop2_eq true go
  · omega
  · exact h.trans (State.checkReturn_true_of_empty hs _)

/-- The same for an ALU instruction in either form (R151). -/
theorem State.alu_true_of_empty (hs : s.rs = []) {op : AluOp} {double : Bool} {imm5 : BitVec 5}
    (hn : (if imm5 = 0#5 then 2 else 1) ≤ s.ps.length) :
    s.alu op double true imm5 = .next (s.raise .rsUnderflow) := by
  unfold State.alu
  split at hn
  · rw [if_pos ‹_›]
    exact State.pop2_true_of_empty hs hn _
  · rw [if_neg ‹_›]
    exact State.pop1_true_of_empty hs hn _

/-- The same for the general stack instruction on a pattern that has its cells of the parameter stack. -/
theorem State.transition_true_of_empty (hs : s.rs = []) (hl : lacksParameter p s.ps s.rs = false) :
    s.transition true p = .next (s.raise .rsUnderflow) := by
  cases hr : lacksReturn p s.ps s.rs with
  | true => exact State.transition_of_lacksReturn hl hr
  | false => exact (State.transition_of_holds hl hr).trans (State.checkReturn_true_of_empty hs _)

/-- A function register that is there is accessed (R256). -/
theorem State.ifPresent_of_present {b : Bool} (hb : b = true) (go : Result) : s.ifPresent b go = go := if_pos hb

/-- A word of the ROT extension has its meaning where the extension is there (R209). -/
theorem State.rotExtension_of_present (hx : s.cfg.extRot = true) (go : Result) : s.rotExtension go = go := if_pos hx

/-! ## The instructions of each class, with their operands and no return address -/

section classes

variable (hr : returning i = true) (hs : s.rs = []) (hn : operandCells i ≤ s.ps.length)
include hr hs hn

/-- ALU instructions (R147). -/
theorem exec_alu_of_empty (hc : classOf i = .alu) : exec i s = .next (s.raise .rsUnderflow) := by
  cases i <;> cases hc <;> cases hr
  all_goals exact State.alu_true_of_empty hs hn

/-- The named words of the stack class (R210 to R222) and the patterns that do not use the return stack (R208). -/
theorem exec_stack_of_empty (hx : extensionPresent s.cfg i = true)
    (hk : ∀ (r : Bool) (p : StkPattern), i = .stk r p → ∀ k : Fin 4, patternNeeds p k = true → k.val < s.ps.length)
    (hc : classOf i = .stack) : exec i s = .next (s.raise .rsUnderflow) := by
  cases i <;> cases hc
  case stk r p =>
    simp only [returning, Bool.and_eq_true, Bool.not_eq_true'] at hr
    obtain ⟨⟨rfl, hp⟩, hu⟩ := hr
    rw [exec_stk_true_of_unused hp hu]
    exact State.transition_true_of_empty hs ((lacksParameter_eq_false_iff hp s.ps s.rs).mpr (hk true p rfl))
  all_goals cases hr
  case nop => exact State.checkReturn_true_of_empty hs _
  case drop | dup => exact State.pop1_true_of_empty hs hn _
  case swap | overCell | nip => exact State.pop2_true_of_empty hs hn _
  case tuck1 => exact (State.rotExtension_of_present hx _).trans (State.pop2_true_of_empty hs hn _)
  case nrot1 =>
    refine (State.rotExtension_of_present hx _).trans ?_
    match hp : s.ps, hn with
    | _ :: _ :: _ :: _, _ => exact State.checkReturn_true_of_empty hs _

/-- Memory access instructions (R230): the check comes before the access waits for the bus. -/
theorem exec_memory_of_empty (hc : classOf i = .memory) : exec i s = .next (s.raise .rsUnderflow) := by
  cases i <;> cases hc <;> cases hr
  case sti => exact State.pop2_true_of_empty hs hn _
  case ldi | st => exact State.pop1_true_of_empty hs hn _
  case ld => exact State.checkReturn_true_of_empty hs _

/-- Accesses of function registers that are there (R240): the check comes before KEY and EMIT wait. -/
theorem exec_function_of_empty (hx : extensionPresent s.cfg i = true) (hc : classOf i = .function) :
    exec i s = .next (s.raise .rsUnderflow) := by
  cases i <;> cases hc <;> cases hr
  case frwPsd => exact State.pop1_true_of_empty hs hn _
  case frrPsd | frrRsd => exact State.checkReturn_true_of_empty hs _
  case frwIen | frwKeyEmit => exact (State.ifPresent_of_present hx _).trans (State.pop1_true_of_empty hs hn _)
  all_goals exact (State.ifPresent_of_present hx _).trans (State.checkReturn_true_of_empty hs _)

end classes

/-- Settles O14: class by class, the operands and the extension that the instruction needs are there, and the return
bit's check is the next thing that it does. -/
theorem returnBitNeedsAReturnAddress : Obligations.ReturnBitNeedsAReturnAddress := by
  intro i s _ hr hx hn hk hs
  cases hc : classOf i with
  | jump | branch => cases i <;> cases hc <;> cases hr
  | literal =>
    cases i <;> cases hc
    cases hr
    exact State.checkReturn_true_of_empty hs _
  | alu => exact exec_alu_of_empty hr hs hn hc
  | stack => exact exec_stack_of_empty hr hs hn hx hk hc
  | memory => exact exec_memory_of_empty hr hs hn hc
  | function => exact exec_function_of_empty hr hs hn hx hc

end Sys2Proof.Machine
end

section
/-!
PROOFS. Jumps and calls: where they go, what they push, and when the return stack overflows (spec/41_jump_call.md).
-/

namespace Sys2Proof.Machine

variable {s : State}

/-! ## The window of direct targets (R68, R125) -/

/-- A number with its `k` lower bits replaced is its upper bits followed by the replacement. -/
theorem ofNat_replaceLower_eq_append {n k : Nat} (x : BitVec (n + k)) (low : BitVec k) :
    BitVec.ofNat (n + k) (x.toNat / 2 ^ k * 2 ^ k + low.toNat) = x.extractLsb' k n ++ low := by
  have hupper : x.toNat / 2 ^ k < 2 ^ n := Nat.div_lt_of_lt_mul (by rw [← Nat.pow_add']; exact x.isLt)
  have hword : x.toNat / 2 ^ k * 2 ^ k + low.toNat = (x.extractLsb' k n ++ low).toNat := by
    rw [BitVec.toNat_append, BitVec.extractLsb'_toNat, Nat.shiftRight_eq_div_pow, Nat.mod_eq_of_lt hupper,
      ← Nat.shiftLeft_add_eq_or_of_lt low.isLt, Nat.shiftLeft_eq]
  rw [hword, BitVec.ofNat_toNat, BitVec.setWidth_eq]

/-- `T(a14)` is the two upper bits of the window followed by the field (R125). -/
theorem directTarget_eq_append (c : Config) (a14 : BitVec 14) :
    directTarget c a14 = BitVec.extractLsb' 14 2 c.aadrOffset ++ a14 :=
  ofNat_replaceLower_eq_append (n := 2) (k := 14) c.aadrOffset a14

/-! ## One operand (R285) -/

/-- An instruction that finds its operand, and its return address if it returns, goes on with them. -/
theorem State.pop1_of_cons {r : Bool} {x : Cell} {rest : List Cell} (hp : s.ps = x :: rest) (hr : s.canReturn r)
    (go : Cell → List Cell → Result) : s.pop1 r go = go x rest := by
  rw [State.pop1, hp]
  exact State.checkReturn_of_canReturn _ hr

/-- An instruction that finds no operand raises the underflow, whatever its return bit says (R289). -/
theorem State.pop1_of_nil (hp : s.ps = []) (r : Bool) (go : Cell → List Cell → Result) :
    s.pop1 r go = .next (s.raise .psUnderflow) := by
  rw [State.pop1, hp]

/-! ## Calls that cannot overflow (R287) -/

/-- A call that takes a cell for the one that it pushes makes nothing grow, so it goes to its target. -/
theorem State.callTo_of_shorter {rest : List Cell} (hl : rest.length + 1 ≤ s.ps.length) (t : Cell) :
    s.callTo rest t = .next (s.gone rest ((s.pc + 1#16) :: s.rs) t (some .call)) := by
  obtain ⟨hroom, -, -⟩ := s.callTo_ends rest t
  exact hroom (.inl (by omega))

/-! ## The obligations -/

/-- Settles O17: a call that keeps the parameter stack ends as R287 says, and its window's formula is R125's. -/
theorem callPushesTheReturnAddress : Obligations.CallPushesTheReturnAddress := by
  intro a14 s _
  have hends := s.callTo_ends s.ps (directTarget s.cfg a14)
  rw [if_neg (Nat.lt_irrefl _)] at hends
  rw [← directTarget_eq_append]
  exact hends

/-- Settles O15: JUMP is a change of flow to the direct target. -/
theorem jumpGoesToTheDirectTarget : Obligations.JumpGoesToTheDirectTarget := by
  intro a14 s _
  rw [← directTarget_eq_append]
  rfl

/-- Settles O16: JUMPI finds its target on the parameter stack or nothing there. -/
theorem indirectJumpTakesItsTarget : Obligations.IndirectJumpTakesItsTarget :=
  ⟨fun _ _ _ hp => State.pop1_of_cons hp (by simp) _, fun _ hp => State.pop1_of_nil hp false _⟩

/-- Settles O18: CALLI finds its target on the parameter stack and the room of the cell that it took, or nothing
there. -/
theorem indirectCallTakesItsTarget : Obligations.IndirectCallTakesItsTarget := by
  refine ⟨fun s t rest hp => ?_, fun s hp => State.pop1_of_nil hp false _⟩
  have hlength : rest.length + 1 ≤ s.ps.length := by simp [hp]
  exact (State.pop1_of_cons hp (by simp) _).trans (State.callTo_of_shorter hlength t)

end Sys2Proof.Machine
end

section
/-!
PROOFS. The conditional branch: where it goes and what it takes (spec/42_branch.md).
-/

namespace Sys2Proof.Machine

variable {s : State}

/-- A branch's target is the next word's address plus the sign-extended offset, modulo 2^16 (R135). -/
theorem branchTarget_eq_signExtend (pc : Cell) (rel13 : BitVec 13) :
    branchTarget pc rel13 = pc + 1#16 + rel13.signExtend 16 := rfl

/-- A branch that finds its cell takes it, and is a change of flow if the cell is zero, else goes on at the next word
(R135). -/
theorem exec_brz_of_cons {x : Cell} {rest : List Cell} (hp : s.ps = x :: rest) (rel13 : BitVec 13) :
    exec (.brz rel13) s = .next (if x = 0x0000#16 then
        s.gone rest s.rs (branchTarget s.pc rel13) (some .branch)
      else s.afterBoth rest s.rs) := by
  rw [← State.redirect_withStacks, ← State.advance_withStacks]
  exact State.pop1_of_cons hp (by simp) _

/-- Settles O19: BRZ finds its cell on the parameter stack or nothing there, and its target is R135's. -/
theorem branchIsTakenOnZero : Obligations.BranchIsTakenOnZero := by
  refine ⟨fun rel13 s x rest hp => ?_, fun rel13 s hp => State.pop1_of_nil hp false _⟩
  rw [← branchTarget_eq_signExtend]
  exact exec_brz_of_cons hp rel13

/-- Settles O20: the branch with the return bit does not look at the state. -/
theorem branchWithReturnBitHasNoMeaning : Obligations.BranchWithReturnBitHasNoMeaning := fun _ _ => rfl

end Sys2Proof.Machine
end

section
/-!
PROOFS. Literals: what LIT pushes, and how LITHI completes it to any cell (spec/43_literal.md).
-/

namespace Sys2Proof.Machine

variable {s : State}

/-! ## Pushing one cell (R12, R140) -/

/-- An instruction that pushes a cell, and finds its return address if it returns, ends as R287 says for a parameter
stack that grows by one. -/
theorem State.pushAndLeave_ends {r : Bool} (v : Cell) (hr : s.canReturn r) :
    s.endsUnlessFull (s.ps.length + 1) (s.rsdAfter r) 0xFFFD#16 (s.pushAndLeave r v) (s.after r (v :: s.ps)) := by
  have hends := s.leave_ends (v :: s.ps) hr
  rw [List.length_cons, if_pos (Nat.lt_succ_self _)] at hends
  rw [State.pushAndLeave, State.checkReturn_of_canReturn _ hr]
  exact hends

/-- A literal's cell is its field sign-extended (R140). -/
theorem literal_eq_signExtend (lit12 : BitVec 12) : literal lit12 = lit12.signExtend 16 := rfl

/-- Settles O21: LIT pushes one cell, and that cell is the one of R140. -/
theorem literalPushesItsSignExtension : Obligations.LiteralPushesItsSignExtension := by
  intro r lit12 s hr
  rw [← literal_eq_signExtend]
  exact State.pushAndLeave_ends _ hr

/-! ## The immediate form of an ALU instruction (R147, R151) -/

/-- An ALU instruction with an immediate, which finds its operand and its return address if it returns, leaves the
result of the widened immediate and that operand. -/
theorem State.alu_immediate_of_cons {r : Bool} {imm5 : BitVec 5} {b : Cell} {rest : List Cell} (hi : imm5 ≠ 0#5)
    (hp : s.ps = b :: rest) (hr : s.canReturn r) (op : AluOp) (double : Bool) :
    s.alu op double r imm5 = s.leave r (aluPush op double true (widen op imm5) b rest) := by
  rw [State.alu, if_neg hi]
  exact State.pop1_of_cons hp hr _

/-- In the single-cell row the stack does not grow, so nothing overflows. -/
theorem State.alu_single_immediate_of_cons {r : Bool} {imm5 : BitVec 5} {b : Cell} {rest : List Cell}
    (hi : imm5 ≠ 0#5) (hp : s.ps = b :: rest) (hr : s.canReturn r) (op : AluOp) :
    s.alu op false r imm5 = .next (s.after r (aluLow op true (widen op imm5) b :: rest)) :=
  (State.alu_immediate_of_cons hi hp hr op false).trans (State.leave_eq _ hr (by simp [hp, aluPush]))

/-! ## LITHI (R177) -/

/-- The low bits of a sign-extended word are those of the word. -/
theorem extractLsb'_signExtend {w : Nat} (x : BitVec w) {n k : Nat} (hw : k ≤ w) (hn : w ≤ n) :
    (x.signExtend n).extractLsb' 0 k = x.extractLsb' 0 k := by
  ext i hi
  simp [BitVec.getElem_signExtend, show i < n by omega, show i < w by omega]

/-- A number of four bits times 2^12 plus one of twelve is the word of the two fields. -/
theorem ofNat_fields_eq_append (a b : Cell) :
    BitVec.ofNat 16 (a.toNat % 16 * 4096 + b.toNat % 4096) = a.extractLsb' 0 4 ++ b.extractLsb' 0 12 := by
  apply BitVec.eq_of_toNat_eq
  have hlow : b.toNat % 4096 < 2 ^ 12 := Nat.mod_lt _ (by decide)
  rw [BitVec.toNat_append, BitVec.extractLsb'_toNat, BitVec.extractLsb'_toNat, Nat.shiftRight_zero,
    Nat.shiftRight_zero, ← Nat.shiftLeft_add_eq_or_of_lt hlow, Nat.shiftLeft_eq, BitVec.toNat_ofNat]
  omega

/-- LITHI's low cell is the low four bits of the immediate followed by the low twelve of the operand (R177). -/
theorem aluLow_lithi (imm5 : BitVec 5) (b : Cell) :
    aluLow .lithi true (widen .lithi imm5) b = imm5.extractLsb' 0 4 ++ b.extractLsb' 0 12 :=
  (ofNat_fields_eq_append (imm5.signExtend 16) b).trans
    (by rw [extractLsb'_signExtend imm5 (by decide) (by decide)])

/-- The single-cell row of LITHI on a stack that holds its operand. -/
theorem exec_lithi_of_cons {r : Bool} {imm5 : BitVec 5} {b : Cell} {rest : List Cell} (hi : imm5 ≠ 0#5)
    (hp : s.ps = b :: rest) (hr : s.canReturn r) :
    exec (.lithi r imm5) s = .next (s.after r ((imm5.extractLsb' 0 4 ++ b.extractLsb' 0 12) :: rest)) := by
  rw [← aluLow_lithi]
  exact State.alu_single_immediate_of_cons hi hp hr .lithi

/-! ## Any cell in two instructions (R141) -/

/-- The immediate with which LITHI writes these four bits: 0 would be the stack form (R178), and the fifth bit does not
reach the low cell. -/
def upperImmediate (n : BitVec 4) : BitVec 5 := if n = 0#4 then 16#5 else n.setWidth 5

/-- It is never the stack form's. -/
theorem upperImmediate_ne_zero : ∀ n : BitVec 4, upperImmediate n ≠ 0#5 := by decide

/-- Its low four bits are the ones to write. -/
theorem extractLsb'_upperImmediate : ∀ n : BitVec 4, (upperImmediate n).extractLsb' 0 4 = n := by decide

/-- A cell is its upper four bits followed by its low twelve. -/
theorem append_fields (v : Cell) : v.extractLsb' 12 4 ++ v.extractLsb' 0 12 = v :=
  BitVec.extractLsb'_append_extractLsb'_eq_extractLsb' (by rfl) |>.trans (by simp)

/-- What LITHI makes of the literal of a cell's low twelve bits is the cell. -/
theorem lithi_of_literal (v : Cell) :
    (upperImmediate (v.extractLsb' 12 4)).extractLsb' 0 4 ++
      (literal (v.extractLsb' 0 12)).extractLsb' 0 12 = v := by
  have hlow : (literal (v.extractLsb' 0 12)).extractLsb' 0 12 = v.extractLsb' 0 12 := by
    rw [literal_eq_signExtend, extractLsb'_signExtend _ le_rfl (by decide)]
    simp
  rw [extractLsb'_upperImmediate, hlow, append_fields]

/-- Settles O22: LIT has the room that it needs, LITHI takes the cell that LIT left, and the two results are put
together to the value. -/
theorem literalAndLithiPushAnyCell : Obligations.LiteralAndLithiPushAnyCell := by
  intro v s hroom
  have hcan (u : State) : u.canReturn false := by simp
  obtain ⟨hlit, -, -⟩ := State.pushAndLeave_ends (literal (v.extractLsb' 0 12)) (hcan s)
  have hlithi := exec_lithi_of_cons (s := s.after false (literal (v.extractLsb' 0 12) :: s.ps))
    (upperImmediate_ne_zero (v.extractLsb' 12 4)) rfl (hcan _)
  rw [lithi_of_literal] at hlithi
  refine ⟨_, _, hlit hroom, hlithi, rfl, rfl, ?_, rfl⟩
  exact BitVec.add_assoc s.pc 1#16 1#16

end Sys2Proof.Machine
end

section
/-!
PROOFS. The ALU instructions: what each operator leaves, and what it checks first (spec/44_alu.md).
-/

set_option Elab.async false

namespace Sys2Proof.Machine

variable {s : State} {r : Bool} {imm5 : BitVec 5} {a b : Cell} {rest : List Cell}

/-! ## The rows of an operator (R148) -/

/-- The row of an operator for a single-cell or a double-cell result. -/
def aluRow (op : AluOp) (double r : Bool) (imm5 : BitVec 5) : Instr :=
  match op with
  | .sum => bif double then .sumD r imm5 else .sum r imm5
  | .abs => bif double then .absD r imm5 else .abs r imm5
  | .difr => bif double then .difrD r imm5 else .difr r imm5
  | .dif => bif double then .difD r imm5 else .dif r imm5
  | .umin => bif double then .uminD r imm5 else .umin r imm5
  | .max => bif double then .maxD r imm5 else .max r imm5
  | .umax => bif double then .umaxD r imm5 else .umax r imm5
  | .min => bif double then .minD r imm5 else .min r imm5
  | .equ => bif double then .equD r imm5 else .equ r imm5
  | .eq => bif double then .eqD r imm5 else .eq r imm5
  | .neu => bif double then .neuD r imm5 else .neu r imm5
  | .ne => bif double then .neD r imm5 else .ne r imm5
  | .ugt => bif double then .ugtD r imm5 else .ugt r imm5
  | .lt => bif double then .ltD r imm5 else .lt r imm5
  | .ult => bif double then .ultD r imm5 else .ult r imm5
  | .gt => bif double then .gtD r imm5 else .gt r imm5
  | .umul => bif double then .umulD r imm5 else .umul r imm5
  | .smul => bif double then .smulD r imm5 else .smul r imm5
  | .and => bif double then .andD r imm5 else .and r imm5
  | .xor => bif double then .xorD r imm5 else .xor r imm5
  | .or => bif double then .orD r imm5 else .or r imm5
  | .lsr => bif double then .lsrD r imm5 else .lsr r imm5
  | .lsl => bif double then .lslD r imm5 else .lsl r imm5
  | .asr => bif double then .asrD r imm5 else .asr r imm5
  | .lithi => bif double then .lithiD r imm5 else .lithi r imm5

/-- Every row is the generic instruction of its operator (R151). -/
theorem exec_aluRow (op : AluOp) (double r : Bool) (imm5 : BitVec 5) (s : State) :
    exec (aluRow op double r imm5) s = s.alu op double r imm5 := by
  cases op <;> cases double <;> rfl

/-! ## The generic instruction on a stack that holds its operands (R149, R151) -/

/-- An instruction that finds two operands, and its return address if it returns, goes on with them. -/
theorem State.pop2_of_cons (hp : s.ps = b :: a :: rest) (hr : s.canReturn r)
    (go : Cell → Cell → List Cell → Result) : s.pop2 r go = go b a rest := by
  rw [State.pop2, hp]
  exact State.checkReturn_of_canReturn _ hr

/-- The stack form has the room of the two cells that it takes, so neither row overflows. -/
theorem State.alu_stackForm_of_cons (hp : s.ps = b :: a :: rest) (hr : s.canReturn r) (op : AluOp) (double : Bool) :
    s.alu op double r 0#5 = .next (s.after r (aluPush op double false a b rest)) := by
  rw [State.alu, if_pos rfl, State.pop2_of_cons hp hr]
  refine State.leave_eq _ hr ?_
  cases double <;> simp [hp, aluPush]

/-- The double-cell immediate form pushes one cell more than it takes, and ends as R287 says for it. -/
theorem State.alu_double_immediate_ends (hi : imm5 ≠ 0#5) (hp : s.ps = b :: rest) (hr : s.canReturn r) (op : AluOp) :
    s.endsUnlessFull (s.ps.length + 1) (s.rsdAfter r) 0xFFFD#16 (s.alu op true r imm5)
      (s.after r (aluPush op true true (widen op imm5) b rest)) := by
  have hends := s.leave_ends (aluPush op true true (widen op imm5) b rest) hr
  have hlength : (aluPush op true true (widen op imm5) b rest).length = s.ps.length + 1 := by simp [hp, aluPush]
  rw [hlength, if_pos (Nat.lt_succ_self _)] at hends
  rw [State.alu_immediate_of_cons hi hp hr]
  exact hends

/-- The rows of an operator do what R147, R149 and R151 say, once its immediate and its two result cells are known. -/
theorem aluMeans (op : AluOp) {imm : BitVec 5 → Cell} {lo hi : Bool → Cell → Cell → Cell}
    (himm : ∀ imm5, widen op imm5 = imm imm5) (hlo : ∀ immediate a b, aluLow op immediate a b = lo immediate a b)
    (hhi : ∀ immediate a b, aluHigh op immediate a b = hi immediate a b) :
    AluMeans (aluRow op false) (aluRow op true) imm lo hi := by
  obtain rfl : widen op = imm := funext himm
  obtain rfl : aluLow op = lo := funext₃ hlo
  obtain rfl : aluHigh op = hi := funext₃ hhi
  intro r s hr
  simp only [exec_aluRow]
  exact ⟨fun b a rest hp =>
      ⟨State.alu_stackForm_of_cons hp hr op false, State.alu_stackForm_of_cons hp hr op true⟩,
    fun imm5 b rest hi hp =>
      ⟨State.alu_single_immediate_of_cons hi hp hr op, State.alu_double_immediate_ends hi hp hr op⟩⟩

/-! ## The widened immediates (R99) -/

/-- `uimm` is zero extension. -/
theorem uimm_eq_setWidth (imm5 : BitVec 5) : uimm imm5 = imm5.setWidth 16 := BitVec.ofNat_toNat 16 imm5

/-- `simm` is sign extension. -/
theorem simm_eq_signExtend (imm5 : BitVec 5) : simm imm5 = imm5.signExtend 16 := rfl

/-- The difference of two numbers, as a cell, is the difference of their cells. -/
theorem ofInt_natCast_sub (m n : Nat) :
    BitVec.ofInt 16 ((m : Int) - n) = BitVec.ofNat 16 m - BitVec.ofNat 16 n := by
  rw [Int.sub_eq_add_neg, BitVec.ofInt_add, BitVec.ofInt_neg, ← BitVec.sub_eq_add_neg, BitVec.ofInt_natCast,
    BitVec.ofInt_natCast]

/-- `oimm` is zero extension less 16. -/
theorem oimm_eq_setWidth_sub (imm5 : BitVec 5) : oimm imm5 = imm5.setWidth 16 - 16#16 := by
  rw [← uimm_eq_setWidth]
  exact ofInt_natCast_sub imm5.toNat 16

/-! ## Sums, differences, minima and maxima (R153 to R160) -/

/-- SUM adds modulo 2^16 (R153). -/
theorem aluLow_sum (immediate : Bool) (a b : Cell) : aluLow .sum immediate a b = a + b := by
  simp [aluLow, BitVec.ofNat_add]

/-- ABS adds the magnitude modulo 2^16 (R154). -/
theorem aluLow_abs (immediate : Bool) (a b : Cell) :
    aluLow .abs immediate a b = a + BitVec.ofNat 16 b.toInt.natAbs := by
  simp [aluLow, BitVec.ofNat_add]

/-- DIFR takes A from B modulo 2^16 (R155). -/
theorem aluLow_difr (immediate : Bool) (a b : Cell) : aluLow .difr immediate a b = b - a := by
  simp [aluLow, ofInt_natCast_sub]

/-- DIF takes B from A modulo 2^16 (R156). -/
theorem aluLow_dif (immediate : Bool) (a b : Cell) : aluLow .dif immediate a b = a - b := by
  simp [aluLow, ofInt_natCast_sub]

/-- UMIN takes B where it is smaller (R157). -/
theorem aluLow_umin (immediate : Bool) (a b : Cell) : aluLow .umin immediate a b = if b.ult a then b else a := by
  simp only [aluLow, BitVec.ult_eq_decide, decide_eq_true_eq, ← Nat.not_le, ite_not]

/-- UMAX takes B where it is greater (R159). -/
theorem aluLow_umax (immediate : Bool) (a b : Cell) : aluLow .umax immediate a b = if a.ult b then b else a := by
  simp only [aluLow, BitVec.ult_eq_decide, decide_eq_true_eq, ← Nat.not_le, ite_not, ge_iff_le]

/-- MIN takes B where it is smaller as a signed number (R160). -/
theorem aluLow_min (immediate : Bool) (a b : Cell) : aluLow .min immediate a b = if b.slt a then b else a := by
  simp only [aluLow, BitVec.slt_eq_decide, decide_eq_true_eq, ← Int.not_le, ite_not]

/-- MAX takes B where it is greater as a signed number (R158). -/
theorem aluLow_max (immediate : Bool) (a b : Cell) : aluLow .max immediate a b = if a.slt b then b else a := by
  simp only [aluLow, BitVec.slt_eq_decide, decide_eq_true_eq, ← Int.not_le, ite_not, ge_iff_le]

/-! ## Flags (R150, R161 to R168) -/

/-- A flag cell is the choice between TRUE and FALSE by the condition that it tells. -/
theorem flag_eq_of_iff {c : Bool} {p : Prop} [Decidable p] (h : c = true ↔ p) :
    flag c = if p then 0xFFFF#16 else 0x0000#16 :=
  if_congr h rfl rfl

/-- Equality. -/
theorem flagEq_eq (a b : Cell) : flagEq a b = if a = b then 0xFFFF#16 else 0x0000#16 := flag_eq_of_iff beq_iff_eq

/-- Inequality. -/
theorem flagNe_eq (a b : Cell) : flagNe a b = if a ≠ b then 0xFFFF#16 else 0x0000#16 := flag_eq_of_iff bne_iff_ne

/-! ## Products (R169, R170) -/

/-- The upper half of a number's 32 bits is the number over 2^16, as a cell. -/
theorem extractLsb'_upper_ofInt (z : Int) : (BitVec.ofInt 32 z).extractLsb' 16 16 = BitVec.ofInt 16 (z / 65536) := by
  apply BitVec.eq_of_toNat_eq
  simp only [BitVec.extractLsb'_toNat, BitVec.toNat_ofInt, Nat.shiftRight_eq_div_pow]
  omega

/-- UMUL's single cell is the product modulo 2^16. -/
theorem aluLow_umul (immediate : Bool) (a b : Cell) : aluLow .umul immediate a b = a * b := by
  simp [aluLow, BitVec.ofNat_mul]

/-- SMUL's single cell is the same product, modulo 2^16. -/
theorem aluLow_smul (immediate : Bool) (a b : Cell) : aluLow .smul immediate a b = a * b := by
  simp [aluLow, BitVec.ofInt_mul]

/-- UMUL's upper cell is the upper half of the unsigned product. -/
theorem aluHigh_umul (immediate : Bool) (a b : Cell) :
    aluHigh .umul immediate a b = (a.setWidth 32 * b.setWidth 32).extractLsb' 16 16 := by
  rw [← BitVec.ofNat_toNat, ← BitVec.ofNat_toNat, ← BitVec.ofNat_mul, ← BitVec.ofInt_natCast,
    extractLsb'_upper_ofInt]
  rfl

/-- SMUL's upper cell is the upper half of the signed product. -/
theorem aluHigh_smul (immediate : Bool) (a b : Cell) :
    aluHigh .smul immediate a b = (a.signExtend 32 * b.signExtend 32).extractLsb' 16 16 := by
  rw [BitVec.signExtend, BitVec.signExtend, ← BitVec.ofInt_mul, extractLsb'_upper_ofInt]
  rfl

/-! ## Shifts (R174 to R176, R180) -/

/-- A shift by less than 32 is its formula, any other a free value. -/
theorem shiftResult_eq (op : AluOp) (v n within : Cell) :
    shiftResult op v n within = if n.toNat < 32 then within else Config.shiftBig op v n :=
  if_congr Nat.lt_succ_iff.symm rfl rfl

/-- LSR's formula is the logical shift. -/
theorem shiftRight_eq (v n : Cell) :
    shiftRight v n = if n.toNat < 32 then v >>> n.toNat else Config.shiftBig .lsr v n := by
  rw [shiftRight, shiftResult_eq, ← Nat.shiftRight_eq_div_pow, ← BitVec.toNat_ushiftRight, BitVec.ofNat_toNat,
    BitVec.setWidth_eq]

/-- LSL's formula is the shift to the left. -/
theorem shiftLeft_eq (v n : Cell) :
    shiftLeft v n = if n.toNat < 32 then v <<< n.toNat else Config.shiftBig .lsl v n := by
  rw [shiftLeft, shiftResult_eq, ← Nat.shiftLeft_eq]
  rfl

/-- ASR's formula is the arithmetic shift. -/
theorem shiftArithmetic_eq (v n : Cell) :
    shiftArithmetic v n = if n.toNat < 32 then v.sshiftRight n.toNat else Config.shiftBig .asr v n := by
  rw [shiftArithmetic, shiftResult_eq, BitVec.sshiftRight, Int.shiftRight_eq_div_pow]
  rfl

/-! ## LITHI's upper cell (R177) -/

/-- The upper cell is the sign of the immediate. -/
theorem aluHigh_lithi (imm5 : BitVec 5) (b : Cell) :
    aluHigh .lithi true (widen .lithi imm5) b = if imm5.getLsbD 4 then 0xFFFF#16 else 0x0000#16 := by
  have hmsb : imm5.getLsbD 4 = decide (imm5.toInt < 0) :=
    (BitVec.msb_eq_getLsbD_last imm5).symm.trans BitVec.msb_eq_toInt
  have hsign : (imm5.signExtend 16).toInt < 0 ↔ imm5.getLsbD 4 = true := by
    rw [BitVec.toInt_signExtend_of_le (by decide), hmsb, decide_eq_true_iff]
  exact if_congr hsign rfl rfl

/-! ## What is checked first (R289) -/

/-- An instruction that finds fewer than two operands raises the underflow, whatever its return bit says. -/
theorem State.pop2_of_short (hl : s.ps.length < 2) (r : Bool) (go : Cell → Cell → List Cell → Result) :
    s.pop2 r go = .next (s.raise .psUnderflow) := by
  obtain ⟨-, h⟩ | ⟨x, y, rest, hp, -⟩ := s.pop2_eq r go
  · exact h
  · simp [hp] at hl

/-- An ALU instruction in either form with fewer cells than it takes raises the underflow. -/
theorem State.alu_of_short (hl : s.ps.length < if imm5 = 0#5 then 2 else 1) (op : AluOp) (double r : Bool) :
    s.alu op double r imm5 = .next (s.raise .psUnderflow) := by
  unfold State.alu
  split at hl
  · rw [if_pos ‹_›]
    exact State.pop2_of_short hl r _
  · rw [if_neg ‹_›]
    exact State.pop1_of_nil (List.length_eq_zero_iff.mp (Nat.lt_one_iff.mp hl)) r _

/-- The rows of every operator underflow as R151 and R289 say. -/
theorem aluUnderflows (op : AluOp) : AluUnderflows (aluRow op false) (aluRow op true) := by
  intro r imm5 s
  simp only [exec_aluRow]
  refine ⟨fun hl => ⟨State.alu_of_short hl op false r, State.alu_of_short hl op true r⟩, fun hn hr hs => ?_⟩
  subst hr
  exact ⟨State.alu_true_of_empty hs hn, State.alu_true_of_empty hs hn⟩

/-! ## The obligations -/

/-- Settles O23: the immediates and low cells of R153 to R156; the upper cells are the free value itself. -/
theorem sumsAndDifferences : Obligations.SumsAndDifferences :=
  ⟨aluMeans .sum uimm_eq_setWidth aluLow_sum (fun _ _ _ => rfl),
    aluMeans .abs oimm_eq_setWidth_sub aluLow_abs (fun _ _ _ => rfl),
    aluMeans .difr uimm_eq_setWidth aluLow_difr (fun _ _ _ => rfl),
    aluMeans .dif oimm_eq_setWidth_sub aluLow_dif (fun _ _ _ => rfl)⟩

/-- Settles O24: the immediates and choices of R157 to R160. -/
theorem minimaAndMaxima : Obligations.MinimaAndMaxima :=
  ⟨aluMeans .umin uimm_eq_setWidth aluLow_umin (fun _ _ _ => rfl),
    aluMeans .max oimm_eq_setWidth_sub aluLow_max (fun _ _ _ => rfl),
    aluMeans .umax uimm_eq_setWidth aluLow_umax (fun _ _ _ => rfl),
    aluMeans .min oimm_eq_setWidth_sub aluLow_min (fun _ _ _ => rfl)⟩

/-- Settles O25: each comparison leaves the flag of its relation; the four orders are by definition those of the
unsigned or of the signed readings. -/
theorem comparisonsPushAFlagCell : Obligations.ComparisonsPushAFlagCell :=
  ⟨aluMeans .equ uimm_eq_setWidth (fun _ => flagEq_eq) (fun _ _ _ => rfl),
    aluMeans .eq oimm_eq_setWidth_sub (fun _ => flagEq_eq) (fun _ _ _ => rfl),
    aluMeans .neu uimm_eq_setWidth (fun _ => flagNe_eq) (fun _ _ _ => rfl),
    aluMeans .ne oimm_eq_setWidth_sub (fun _ => flagNe_eq) (fun _ _ _ => rfl),
    aluMeans .ugt uimm_eq_setWidth (fun _ _ _ => rfl) (fun _ _ _ => rfl),
    aluMeans .lt oimm_eq_setWidth_sub (fun _ _ _ => rfl) (fun _ _ _ => rfl),
    aluMeans .ult uimm_eq_setWidth (fun _ _ _ => rfl) (fun _ _ _ => rfl),
    aluMeans .gt oimm_eq_setWidth_sub (fun _ _ _ => rfl) (fun _ _ _ => rfl)⟩

/-- Settles O26: the two halves of the 32-bit products. -/
theorem productsFillTwoCells : Obligations.ProductsFillTwoCells :=
  ⟨aluMeans .umul uimm_eq_setWidth aluLow_umul aluHigh_umul,
    aluMeans .smul simm_eq_signExtend aluLow_smul aluHigh_smul⟩

/-- Settles O27: the low cell is the bitwise operation itself, so only the immediates are to be shown. -/
theorem bitwiseLogic : Obligations.BitwiseLogic :=
  ⟨aluMeans .and simm_eq_signExtend (fun _ _ _ => rfl) (fun _ _ _ => rfl),
    aluMeans .xor simm_eq_signExtend (fun _ _ _ => rfl) (fun _ _ _ => rfl),
    aluMeans .or uimm_eq_setWidth (fun _ _ _ => rfl) (fun _ _ _ => rfl)⟩

/-- Settles O28: the form says which operand is shifted by which, and the formulas are those of R174 to R176. -/
theorem shiftsByLessThan32 : Obligations.ShiftsByLessThan32 :=
  ⟨aluMeans .lsr uimm_eq_setWidth (fun _ _ _ => shiftRight_eq _ _) (fun _ _ _ => rfl),
    aluMeans .lsl uimm_eq_setWidth (fun _ _ _ => shiftLeft_eq _ _) (fun _ _ _ => rfl),
    aluMeans .asr uimm_eq_setWidth (fun _ _ _ => shiftArithmetic_eq _ _) (fun _ _ _ => rfl)⟩

/-- Settles O29: the double-cell row leaves the same low cell as the single-cell one, with the sign on top. -/
theorem lithiSetsTheUpperFourBits : Obligations.LithiSetsTheUpperFourBits := by
  intro r imm5 s b rest hi hr hp
  refine ⟨exec_lithi_of_cons hi hp hr, ?_⟩
  rw [← aluLow_lithi, ← aluHigh_lithi imm5 b]
  exact State.alu_double_immediate_ends hi hp hr .lithi

/-- Settles O30: the stack form of LITHI does not look at the state. -/
theorem lithiWithoutImmediateHasNoMeaning : Obligations.LithiWithoutImmediateHasNoMeaning := fun _ _ _ => rfl

/-- Settles O31: each of the reserved rows is the undefined word's exception, and nothing before it. -/
theorem reservedOperatorsRaiseUndefinedWord : Obligations.ReservedOperatorsRaiseUndefinedWord := by
  intro r imm5 s
  simp only [List.forall_mem_cons, List.not_mem_nil, false_implies, implies_true, and_true]
  exact ⟨rfl, rfl, rfl, rfl, rfl, rfl, rfl, rfl, rfl, rfl, rfl, rfl, rfl, rfl⟩

/-- Settles O32: the checks are those of the generic instruction, for every operator and LITHI with an immediate. -/
theorem aluChecksItsOperandsFirst : Obligations.AluChecksItsOperandsFirst := by
  refine ⟨aluUnderflows .sum, aluUnderflows .abs, aluUnderflows .difr, aluUnderflows .dif, aluUnderflows .umin,
    aluUnderflows .max, aluUnderflows .umax, aluUnderflows .min, aluUnderflows .equ, aluUnderflows .eq,
    aluUnderflows .neu, aluUnderflows .ne, aluUnderflows .ugt, aluUnderflows .lt, aluUnderflows .ult,
    aluUnderflows .gt, aluUnderflows .umul, aluUnderflows .smul, aluUnderflows .and, aluUnderflows .xor,
    aluUnderflows .or, aluUnderflows .lsr, aluUnderflows .lsl, aluUnderflows .asr, fun r imm5 s => ?_⟩
  obtain ⟨hshort, hempty⟩ := aluUnderflows .lithi r imm5 s
  refine ⟨fun hp => hshort ?_, fun hi hp => hempty ?_⟩
  · rw [hp, List.length_nil]
    split <;> decide
  · rw [if_neg hi]
    exact List.length_pos_iff.mpr hp

end Sys2Proof.Machine
end

section
/-!
PROOFS. The stack instruction: what a transition pattern reads off its transfer bits, its underflow rules, and the words
that are patterns of their own (spec/45_stack.md).
-/

namespace Sys2Proof.Machine

variable {s : State} {r : Bool} {p : StkPattern} {ps' rs' : List Cell}

/-! ## How an instruction that changes the stacks ends (R287) -/

/-- An instruction that changes the parameter stack alone can overflow it alone: the return stack does not grow. -/
theorem State.leave_endsUnlessFull (ps' : List Cell) (hr : s.canReturn r) :
    s.endsUnlessFull ps'.length (s.rsdAfter r) 0xFFFD#16 (s.leave r ps') (s.after r ps') := by
  by_cases hgrow : s.ps.length < ps'.length
  · have hends := s.leave_ends ps' hr
    rwa [if_pos hgrow] at hends
  · have hleave := s.leave_eq ps' hr (Nat.not_lt.mp hgrow)
    refine ⟨fun _ => hleave, fun ⟨hmore, _⟩ => absurd hmore ?_, .inl hleave⟩
    simp only [State.rsdAfter]
    omega

/-- One that leaves one cell more. -/
theorem State.leave_ends_of_push (hr : s.canReturn r) (hl : ps'.length = s.ps.length + 1) {answer : Result}
    (ha : answer = s.leave r ps') :
    s.endsUnlessFull (s.ps.length + 1) (s.rsdAfter r) 0xFFFD#16 answer (s.after r ps') := by
  rw [ha, ← hl]
  exact s.leave_endsUnlessFull ps' hr

/-- One that leaves both stacks overflows the one that grew. -/
theorem State.leaveBoth_ends (s : State) (ps' rs' : List Cell) :
    s.endsUnlessFull ps'.length rs'.length (if s.ps.length < ps'.length then 0xFFFD#16 else 0xFFFB#16)
      (s.leaveBoth ps' rs') (s.afterBoth ps' rs') :=
  s.settle_ends (s.afterBoth ps' rs')

/-- One that only moves cells between the stacks overflows neither. -/
theorem State.leaveBoth_eq (hl : ps'.length + rs'.length ≤ s.ps.length + s.rs.length) :
    s.leaveBoth ps' rs' = .next (s.afterBoth ps' rs') :=
  have ⟨hroom, _, _⟩ := s.leaveBoth_ends ps' rs'
  hroom (.inl hl)

/-! ## Operands (R285, R286) -/

/-- An instruction that finds a cell on the return stack goes on with it. -/
theorem State.popReturn_of_cons {x : Cell} {rest : List Cell} (hs : s.rs = x :: rest)
    (go : Cell → List Cell → Result) : s.popReturn go = go x rest := by
  rw [State.popReturn, hs]

/-- One that finds none raises the underflow. -/
theorem State.popReturn_of_nil (hs : s.rs = []) (go : Cell → List Cell → Result) :
    s.popReturn go = .next (s.raise .rsUnderflow) := by
  rw [State.popReturn, hs]

/-- Takes three operands: the upper three cells and what lies below them. -/
def State.pop3 (s : State) (go : Cell → Cell → Cell → List Cell → Result) : Result :=
  match s.ps with
  | a :: b :: c :: rest => go a b c rest
  | _ => .next (s.raise .psUnderflow)

/-- An instruction that finds its three operands goes on with them. -/
theorem State.pop3_of_cons {a b c : Cell} {rest : List Cell} (hp : s.ps = a :: b :: c :: rest)
    (go : Cell → Cell → Cell → List Cell → Result) : s.pop3 go = go a b c rest := by
  rw [State.pop3, hp]

/-- One that finds fewer raises the underflow. -/
theorem State.pop3_of_short (hl : s.ps.length < 3) (go : Cell → Cell → Cell → List Cell → Result) :
    s.pop3 go = .next (s.raise .psUnderflow) := by
  unfold State.pop3
  split
  · rename_i hp
    simp only [hp, List.length_cons] at hl
    omega
  · rfl

/-- An instruction with one operand, by the depth of the parameter stack, once its end is known. -/
theorem State.pop1_eq_ite {go : Cell → List Cell → Result} {done : Result}
    (hgo : ∀ x rest, s.ps = x :: rest → go x rest = done) :
    s.pop1 r go = if s.ps.length < 1 then .next (s.raise .psUnderflow) else s.checkReturn r done := by
  obtain ⟨hp, h⟩ | ⟨x, rest, hp, h⟩ := s.pop1_eq r go
  · rw [h, if_pos (by simp [hp])]
  · rw [h, if_neg (by simp [hp]), hgo x rest hp]

/-- An instruction with two operands, the same. -/
theorem State.pop2_eq_ite {go : Cell → Cell → List Cell → Result} {done : Result}
    (hgo : ∀ x y rest, s.ps = x :: y :: rest → go x y rest = done) :
    s.pop2 r go = if s.ps.length < 2 then .next (s.raise .psUnderflow) else s.checkReturn r done := by
  obtain ⟨hp, h⟩ | ⟨x, y, rest, hp, h⟩ := s.pop2_eq r go
  · rw [h, if_pos hp]
  · rw [h, if_neg (by simp [hp]), hgo x y rest hp]

/-- An instruction with one operand of the return stack, the same. -/
theorem State.popReturn_eq_ite {go : Cell → List Cell → Result} {done : Result}
    (hgo : ∀ x rest, s.rs = x :: rest → go x rest = done) :
    s.popReturn go = if s.rs = [] then .next (s.raise .rsUnderflow) else done := by
  cases hs : s.rs with
  | nil => rw [State.popReturn_of_nil hs, if_pos rfl]
  | cons x rest => rw [State.popReturn_of_cons hs, if_neg (List.cons_ne_nil x rest), hgo x rest hs]

/-! ## The named words with their cells (R213 to R222) -/

/-- Settles O33: each word finds its operands and leaves its stack; only DUP and OVER leave a longer one. -/
theorem parameterStackWords : Obligations.ParameterStackWords := by
  refine ⟨fun r s hr => ?_, fun r s a rest hr hp => ⟨?_, ?_⟩, fun r s a b rest hr hp => ⟨?_, ?_, ?_⟩⟩
  · exact (State.checkReturn_of_canReturn _ hr).trans (s.leave_eq s.ps hr le_rfl)
  · exact (State.pop1_of_cons hp hr _).trans (s.leave_eq rest hr (by simp [hp]))
  · exact State.leave_ends_of_push hr (by simp [hp]) (State.pop1_of_cons hp hr _)
  · exact (State.pop2_of_cons hp hr _).trans (s.leave_eq _ hr (by simp [hp]))
  · exact (State.pop2_of_cons hp hr _).trans (s.leave_eq _ hr (by simp [hp]))
  · exact State.leave_ends_of_push hr (by simp [hp]) (State.pop2_of_cons hp hr _)

/-- Settles O34: each word finds its operand and leaves both stacks; only R@ leaves more cells than it found. -/
theorem returnStackWords : Obligations.ReturnStackWords := by
  refine ⟨fun s a rest hp => ?_, fun s x rest hs => ⟨?_, ?_, ?_⟩⟩
  · refine (State.pop1_of_cons hp (by simp) _).trans (State.leaveBoth_eq ?_)
    simp only [hp, List.length_cons]
    omega
  · exact (State.popReturn_of_cons hs _).trans (State.leaveBoth_eq (by simp [hs]))
  · refine (State.popReturn_of_cons hs _).trans (State.leaveBoth_eq ?_)
    simp only [hs, List.length_cons]
    omega
  · have hfetch : exec (.rFetch false) s = s.leaveBoth (x :: s.ps) s.rs := State.popReturn_of_cons hs _
    have hends := s.leaveBoth_ends (x :: s.ps) s.rs
    rw [List.length_cons, if_pos (Nat.lt_succ_self _)] at hends
    rw [hfetch]
    exact hends

/-- Settles O35: no word finds its operands, and every word looks for them first. -/
theorem stackWordsUnderflow : Obligations.StackWordsUnderflow :=
  ⟨fun r _ hp => ⟨State.pop1_of_nil hp r _, State.pop1_of_nil hp r _, State.pop1_of_nil hp false _⟩,
    fun r _ hl => ⟨State.pop2_of_short hl r _, State.pop2_of_short hl r _, State.pop2_of_short hl r _⟩,
    fun _ hs => ⟨State.popReturn_of_nil hs _, State.popReturn_of_nil hs _, State.popReturn_of_nil hs _⟩⟩

/-- Settles O37: R> finds the cell that >R has put on the return stack, and NOP with the return bit the address that
the call has put there. -/
theorem returnStackRoundTrips : Obligations.ReturnStackRoundTrips := by
  obtain ⟨hto, hfrom⟩ := returnStackWords
  obtain ⟨hnop, -⟩ := parameterStackWords
  refine ⟨fun s hp => ?_, fun a14 s ha hroom => ?_⟩
  · obtain ⟨a, rest, hp⟩ := List.exists_cons_of_ne_nil hp
    obtain ⟨-, hback, -⟩ := hfrom (s.afterBoth rest (a :: s.rs)) a s.rs rfl
    exact ⟨_, _, hto s a rest hp, hback, hp.symm, rfl, BitVec.add_assoc s.pc 1#16 1#16, rfl, rfl⟩
  · obtain ⟨hcall, -, -⟩ := callPushesTheReturnAddress a14 s ha
    exact ⟨_, _, hcall hroom, hnop true _ fun _ => List.cons_ne_nil _ _, rfl, rfl, rfl, rfl, rfl⟩

/-! ## The ROT extension (R210 to R212) -/

/-- A word of the ROT extension is reserved where the extension is not there (R204, R209). -/
theorem State.rotExtension_of_absent (hx : s.cfg.extRot = false) (go : Result) :
    s.rotExtension go = .refused .reservedPattern := by
  simp [State.rotExtension, hx]

/-- TUCK1, where the extension is there (R210). -/
theorem exec_tuck1_of_present (hx : s.cfg.extRot = true) (r : Bool) :
    exec (.tuck1 r) s = s.pop2 r fun a b rest => s.leave r (a :: b :: a :: rest) :=
  State.rotExtension_of_present hx _

/-- ROT1 without the return bit, where the extension is there (R211). -/
theorem exec_rot1_of_present (hx : s.cfg.extRot = true) :
    exec (.rot1 false) s = s.pop3 fun a b c rest => s.leave false (c :: a :: b :: rest) :=
  State.rotExtension_of_present hx _

/-- NROT1, where the extension is there (R212). -/
theorem exec_nrot1_of_present (hx : s.cfg.extRot = true) (r : Bool) :
    exec (.nrot1 r) s = s.pop3 fun a b c rest => s.checkReturn r (s.leave r (b :: c :: a :: rest)) :=
  State.rotExtension_of_present hx _

/-- Settles O38: where the extension is there, each word finds its operands or does not; where it is not, none looks at
the stacks. -/
theorem rotExtensionWords : Obligations.RotExtensionWords := by
  refine ⟨fun r s x1 x2 rest hx hr hp => ?_, fun r s x1 x2 x3 rest hx hp => ⟨?_, fun hr => ?_⟩,
    fun r s hx => ⟨fun hl => ?_, fun hl => ⟨?_, ?_⟩, State.rotExtension_of_present hx _⟩,
    fun _ _ hx => ⟨State.rotExtension_of_absent hx _, State.rotExtension_of_absent hx _,
      State.rotExtension_of_absent hx _⟩⟩
  · exact State.leave_ends_of_push hr (by simp [hp]) ((exec_tuck1_of_present hx r).trans (State.pop2_of_cons hp hr _))
  · rw [exec_rot1_of_present hx, State.pop3_of_cons hp]
    exact s.leave_eq _ (by simp) (by simp [hp])
  · rw [exec_nrot1_of_present hx, State.pop3_of_cons hp, State.checkReturn_of_canReturn _ hr]
    exact s.leave_eq _ hr (by simp [hp])
  · exact (exec_tuck1_of_present hx r).trans (State.pop2_of_short hl r _)
  · exact (exec_rot1_of_present hx).trans (State.pop3_of_short hl _)
  · exact (exec_nrot1_of_present hx r).trans (State.pop3_of_short hl _)

/-! ## The cells that a pattern needs (R206) -/

/-- The depth that the parameter stack must have for the pattern: its deepest cell that must hold content, and all above
it. -/
def neededDepth (p : StkPattern) : Nat :=
  (Finset.univ.filter fun k : Fin 4 => patternNeeds p k = true).sup fun k => k.val + 1

/-- A stack is as deep as needed exactly if it holds each cell that is needed. -/
theorem neededDepth_le_iff {n : Nat} : neededDepth p ≤ n ↔ ∀ k : Fin 4, patternNeeds p k = true → k.val < n := by
  simp [neededDepth, Finset.sup_le_iff]

/-- A pattern needs cells of the upper stack alone. -/
theorem neededDepth_le_four (p : StkPattern) : neededDepth p ≤ 4 :=
  neededDepth_le_iff.mpr fun k _ => k.isLt

/-- The parameter stack lacks a required cell of a defined pattern exactly if it is less deep than needed. -/
theorem lacksParameter_eq_decide (hp : reserved p = false) (ps rs : List Cell) :
    lacksParameter p ps rs = decide (ps.length < neededDepth p) := by
  rw [Bool.eq_iff_iff, decide_eq_true_iff, ← not_iff_not, Bool.not_eq_true, lacksParameter_eq_false_iff hp,
    Nat.not_lt, neededDepth_le_iff]

/-- RS0 is required exactly if the transfer bits say so. -/
theorem required_rs0 (hp : reserved p = false) : required p .rs0 = patternNeedsReturn p := by
  have houts : outs p .rs0 = bitCount (ustDown p.u0) (p.irs && ustUp p.u0) := by
    simp [outs, upperCells, ← List.countP_eq_length_filter, List.countP_cons, source_ps0_eq_some_iff hp,
      source_ps1_eq_some_iff hp, source_ps2_eq_some_iff hp, source_ps3_eq_some_iff, source_rs0_eq_some_iff,
      bitCount_eq, irsPush]
  have hsource : (source p .rs0).isSome = (ustUp p.u0 || p.irs) := by
    cases hu : ustUp p.u0 <;> cases hi : p.irs <;> simp [source, irsPull, hu, hi]
  rw [required_eq_cellNeeded, houts, hsource]
  rfl

/-- The return stack lacks the cell that a defined pattern requires exactly if it is empty. -/
theorem lacksReturn_eq_false_iff (hp : reserved p = false) (ps rs : List Cell) :
    lacksReturn p ps rs = false ↔ (patternNeedsReturn p = true → rs ≠ []) := by
  cases rs <;> simp [lacksReturn, required_rs0 hp, value]

/-- A pattern that does not use the return stack needs none of its cells. -/
theorem patternNeedsReturn_of_unused (hu : usesReturnStack p = false) : patternNeedsReturn p = false := by
  simp only [usesReturnStack, Bool.or_eq_false_iff, bne_eq_false_iff_eq] at hu
  obtain ⟨h0, hi⟩ := hu
  rw [patternNeedsReturn, h0, hi]
  rfl

/-! ## The stacks after a pattern (R205) -/

/-- PS0 takes its one source or keeps its value (R201). -/
theorem newValue_ps0 (p : StkPattern) (ps rs : List Cell) : newValue p ps rs .ps0 =
    if ustUp p.u1 then ps[1]? else if ustDown p.u0 then rs[0]? else ps[0]? := by
  simp only [newValue, source]
  split_ifs <;> rfl

/-- PS1 takes its one source or keeps its value (R201). -/
theorem newValue_ps1 (p : StkPattern) (ps rs : List Cell) : newValue p ps rs .ps1 =
    if ustUp p.u2 then ps[2]? else if ustDown p.u1 then ps[0]? else ps[1]? := by
  simp only [newValue, source]
  split_ifs <;> rfl

/-- PS2 takes its one source or keeps its value (R201). -/
theorem newValue_ps2 (p : StkPattern) (ps rs : List Cell) : newValue p ps rs .ps2 =
    if ustUp p.u3 then ps[3]? else if ustDown p.u2 then ps[1]? else ps[2]? := by
  simp only [newValue, source]
  split_ifs <;> rfl

/-- PS3 takes its one source or keeps its value (R202). -/
theorem newValue_ps3 (p : StkPattern) (ps rs : List Cell) : newValue p ps rs .ps3 =
    if ipsPull p then ps[4]? else if ustDown p.u3 then ps[2]? else ps[3]? := by
  cases hd : ustDown p.u3 <;> cases hi : p.ips <;> simp [newValue, source, ipsPull, value, hd, hi]

/-- RS0 takes its one source or keeps its value (R203). -/
theorem newValue_rs0 (p : StkPattern) (ps rs : List Cell) : newValue p ps rs .rs0 =
    if ustUp p.u0 then ps[0]? else if p.irs then rs[1]? else rs[0]? := by
  cases hu : ustUp p.u0 <;> cases hi : p.irs <;> simp [newValue, source, irsPull, value, hu, hi]

/-- A cell, if it holds content, and those below it. -/
@[simp] theorem getElem?_toList_append_drop (l : List Cell) (k : Nat) : l[k]?.toList ++ l.drop (k + 1) = l.drop k :=
  List.drop_eq_getElem?_toList_append.symm

/-- The top cell, if there is one, and those below it. -/
@[simp] theorem getElem?_zero_toList_append_tail (l : List Cell) : l[0]?.toList ++ l.tail = l := by
  rw [← List.drop_one, getElem?_toList_append_drop, List.drop_zero]

/-- The cells below the upper parameter stack are those from some depth on (R202). -/
theorem newPsDeep_eq_drop (p : StkPattern) (ps : List Cell) :
    newPsDeep p ps = ps.drop (if p.ips then (if ustDown p.u3 then 3 else 5) else 4) := by
  cases hi : p.ips <;> cases hd : ustDown p.u3 <;>
    simp [newPsDeep, ipsPush, ipsPull, hi, hd]

/-- The cells below the upper return stack are those from some depth on (R203). -/
theorem newRsDeep_eq_drop (p : StkPattern) (rs : List Cell) :
    newRsDeep p rs = rs.drop (if p.irs then (if ustUp p.u0 then 0 else 2) else 1) := by
  cases hi : p.irs <;> cases hu : ustUp p.u0 <;> simp [newRsDeep, irsPush, irsPull, hi, hu]

/-- The four upper cells that hold content, one after the other. -/
theorem filterMap_upperCells (p : StkPattern) (ps rs : List Cell) :
    [Spot.ps0, .ps1, .ps2, .ps3].filterMap (newValue p ps rs) =
      [newValue p ps rs .ps0, newValue p ps rs .ps1, newValue p ps rs .ps2, newValue p ps rs .ps3].reduceOption :=
  rfl

/-- The parameter stack that a pattern leaves is the one read off its transfer bits. -/
theorem newPs_eq_patternPs (p : StkPattern) (ps rs : List Cell) : newPs p ps rs = patternPs p ps rs := by
  have h3 : newValue p ps rs .ps3 = if ustDown p.u3 then ps[2]? else if p.ips then ps[4]? else ps[3]? := by
    cases hd : ustDown p.u3 <;> simp [newValue_ps3, ipsPull, hd]
  rw [newPs, filterMap_upperCells, newPsDeep_eq_drop, newValue_ps0, newValue_ps1, newValue_ps2, h3]
  rfl

/-- The return stack that a pattern leaves is the one read off its transfer bits. -/
theorem newRs_eq_patternRs (p : StkPattern) (ps rs : List Cell) : newRs p ps rs = patternRs p ps rs := by
  rw [newRs, newRsDeep_eq_drop, newValue_rs0]
  rfl

/-! ## The general stack instruction of a defined pattern (R205 to R208) -/

/-- Without the return bit: the checks of the cells that the transfer bits need, then the stacks read off them. -/
theorem State.transition_false (hp : reserved p = false) (s : State) :
    s.transition false p =
      if s.ps.length < neededDepth p then .next (s.raise .psUnderflow)
      else if patternNeedsReturn p = true ∧ s.rs = [] then .next (s.raise .rsUnderflow)
      else s.leaveBoth (patternPs p s.ps s.rs) (patternRs p s.ps s.rs) := by
  have hpar := lacksParameter_eq_decide hp s.ps s.rs
  have hret := lacksReturn_eq_false_iff hp s.ps s.rs
  split_ifs with hl hn
  · exact State.transition_of_lacksParameter (by simpa [hl] using hpar)
  · refine State.transition_of_lacksReturn (by simpa [hl] using hpar) ?_
    obtain ⟨hn, hs⟩ := hn
    simpa [hn, hs] using hret
  · rw [State.transition_of_holds (by simpa [hl] using hpar) (hret.mpr (not_and.mp hn)), newPs_eq_patternPs,
      newRs_eq_patternRs]
    rfl

/-- A pattern that does not use the return stack, with or without the return bit: the same check of the parameter
stack, then the return bit's. -/
theorem State.transition_of_unused (hp : reserved p = false) (hu : usesReturnStack p = false) (r : Bool) (s : State) :
    s.transition r p =
      if s.ps.length < neededDepth p then .next (s.raise .psUnderflow)
      else s.checkReturn r (s.leave r (patternPs p s.ps s.rs)) := by
  have hpar := lacksParameter_eq_decide hp s.ps s.rs
  have hret : lacksReturn p s.ps s.rs = false := by
    rw [lacksReturn_eq_false_iff hp, patternNeedsReturn_of_unused hu]
    simp
  split_ifs with hl
  · exact State.transition_of_lacksParameter (by simpa [hl] using hpar)
  · rw [State.transition_of_holds (by simpa [hl] using hpar) hret, newPs_eq_patternPs, newRs_of_unused hu]
    rfl

/-- A defined pattern without the return bit makes its transition. -/
theorem exec_stk_false (hp : reserved p = false) (s : State) : exec (.stk false p) s = s.transition false p := by
  simp [exec, execStk, hp]

/-- U0 and IRS clear: the pattern does not use the return stack. -/
theorem usesReturnStack_eq_false (h0 : p.u0 = .none) (hi : p.irs = false) : usesReturnStack p = false := by
  simp [usesReturnStack, h0, hi]

/-- A defined pattern whose cells are there moves them, and ends as R287 says. -/
theorem exec_stk_false_ends (hp : reserved p = false) (hl : neededDepth p ≤ s.ps.length)
    (hn : patternNeedsReturn p = true → s.rs ≠ []) :
    s.endsUnlessFull (patternPs p s.ps s.rs).length (patternRs p s.ps s.rs).length
      (if s.ps.length < (patternPs p s.ps s.rs).length then 0xFFFD#16 else 0xFFFB#16)
      (exec (.stk false p) s) (s.afterBoth (patternPs p s.ps s.rs) (patternRs p s.ps s.rs)) := by
  rw [exec_stk_false hp, State.transition_false hp, if_neg (Nat.not_lt.mpr hl), if_neg (not_and.mpr hn)]
  exact s.leaveBoth_ends _ _

/-- The same with the return bit, for one that does not use the return stack. -/
theorem exec_stk_true_ends (hp : reserved p = false) (hu : usesReturnStack p = false)
    (hl : neededDepth p ≤ s.ps.length) (hs : s.rs ≠ []) :
    s.endsUnlessFull (patternPs p s.ps s.rs).length (s.rsdAfter true) 0xFFFD#16 (exec (.stk true p) s)
      (s.after true (patternPs p s.ps s.rs)) := by
  have hr : s.canReturn true := fun _ => hs
  rw [exec_stk_true_of_unused hp hu, State.transition_of_unused hp hu, if_neg (Nat.not_lt.mpr hl),
    State.checkReturn_of_canReturn _ hr]
  exact s.leave_endsUnlessFull _ hr

/-- Settles O42: the two checks and the stacks of the general stack instruction, all read off the transfer bits. -/
theorem definedPatternChecksItsCells : Obligations.DefinedPatternChecksItsCells := by
  refine fun p s hp => ⟨fun ⟨k, hk, hlack⟩ => ?_, fun hcells => ?_⟩
  · have hshort : s.ps.length < neededDepth p :=
      Nat.lt_of_le_of_lt hlack (neededDepth_le_iff.mp le_rfl k hk)
    refine ⟨?_, fun h0 hi => ?_⟩
    · rw [exec_stk_false hp, State.transition_false hp, if_pos hshort]
    · have hu := usesReturnStack_eq_false h0 hi
      rw [exec_stk_true_of_unused hp hu, State.transition_of_unused hp hu, if_pos hshort]
  · have hdeep : neededDepth p ≤ s.ps.length := neededDepth_le_iff.mpr hcells
    refine ⟨fun hn hs => ?_, exec_stk_false_ends hp hdeep, fun h0 hi => ?_⟩
    · rw [exec_stk_false hp, State.transition_false hp, if_neg (Nat.not_lt.mpr hdeep), if_pos ⟨hn, hs⟩]
    · have hu := usesReturnStack_eq_false h0 hi
      refine ⟨fun hs => ?_, exec_stk_true_ends hp hu hdeep⟩
      rw [exec_stk_true_of_unused hp hu]
      exact State.transition_true_of_empty hs ((lacksParameter_eq_false_iff hp s.ps s.rs).mpr hcells)

/-- The parameter stack that a pattern leaves of one whose upper stack is full and which has a cell below it. -/
theorem patternPs_of_full (p : StkPattern) (a b c d e x : Cell) (rest more : List Cell) :
    patternPs p (a :: b :: c :: d :: e :: rest) (x :: more) =
      (if ustUp p.u1 then b else if ustDown p.u0 then x else a) ::
        (if ustUp p.u2 then c else if ustDown p.u1 then a else b) ::
        (if ustUp p.u3 then d else if ustDown p.u2 then b else c) ::
        (if ustDown p.u3 then c else if p.ips then e else d) ::
        (if p.ips then (if ustDown p.u3 then d :: e :: rest else rest) else e :: rest) := by
  simp [patternPs, ← apply_ite some, apply_ite (List.drop · (a :: b :: c :: d :: e :: rest))]

/-- The return stack that a pattern leaves of one of two cells or more. -/
theorem patternRs_of_full (p : StkPattern) (a x y : Cell) (rest more : List Cell) :
    patternRs p (a :: rest) (x :: y :: more) =
      (if ustUp p.u0 then a else if p.irs then y else x) ::
        (if p.irs then (if ustUp p.u0 then x :: y :: more else more) else y :: more) := by
  simp [patternRs, ← apply_ite some, apply_ite (List.drop · (x :: y :: more))]

/-- Settles O41: with full upper stacks no needed cell is empty, and no cell is without content. -/
theorem definedPatternMovesFullCells : Obligations.DefinedPatternMovesFullCells := by
  intro p s a b c d e x y rest more ps' rs' hp hps hrs hps' hrs'
  have hdeep : neededDepth p ≤ s.ps.length := (neededDepth_le_four p).trans (by simp [hps])
  have hne : s.rs ≠ [] := by simp [hrs]
  obtain rfl : patternPs p s.ps s.rs = ps' := by rw [hps', hps, hrs, patternPs_of_full]
  obtain rfl : patternRs p s.ps s.rs = rs' := by rw [hrs', hps, hrs, patternRs_of_full]
  exact ⟨exec_stk_false_ends hp hdeep fun _ => hne,
    fun h0 hi => exec_stk_true_ends hp (usesReturnStack_eq_false h0 hi) hdeep hne⟩

/-! ## The named words as patterns (R213 to R222) -/

/-- The cells that hold content, the first one apart. -/
@[simp] theorem reduceOption_cons (o : Option Cell) (l : List (Option Cell)) :
    (o :: l).reduceOption = o.toList ++ l.reduceOption := by
  cases o <;> rfl

/-- NOP keeps each cell. -/
theorem patternPs_nop (ps rs : List Cell) : patternPs .nop ps rs = ps := by
  simp [patternPs, StkPattern.nop, ustUp, ustDown]

/-- DROP moves each cell up. -/
theorem patternPs_drop (ps rs : List Cell) : patternPs .drop ps rs = ps.drop 1 := by
  simp [patternPs, StkPattern.drop, ustUp, ustDown]

/-- DUP moves each cell down and keeps PS0. -/
theorem patternPs_dup (ps rs : List Cell) : patternPs .dup ps rs = ps[0]?.toList ++ ps := by
  simp [patternPs, StkPattern.dup, ustUp, ustDown]

/-- SWAP exchanges PS0 and PS1. -/
theorem patternPs_swap (ps rs : List Cell) :
    patternPs .swap ps rs = ps[1]?.toList ++ (ps[0]?.toList ++ ps.drop 2) := by
  simp [patternPs, StkPattern.swap, ustUp, ustDown]

/-- OVER moves each cell down and PS1 to PS0 too. -/
theorem patternPs_over (ps rs : List Cell) : patternPs .over ps rs = ps[1]?.toList ++ ps := by
  simp [patternPs, StkPattern.over, ustUp, ustDown]

/-- NIP keeps PS0 and moves each cell below PS1 up. -/
theorem patternPs_nip (ps rs : List Cell) : patternPs .nip ps rs = ps[0]?.toList ++ ps.drop 2 := by
  simp [patternPs, StkPattern.nip, ustUp, ustDown]

/-- R@ and R> push RS0 on the parameter stack. -/
theorem patternPs_rFetch (ps rs : List Cell) : patternPs .rFetch ps rs = rs[0]?.toList ++ ps := by
  simp [patternPs, StkPattern.rFetch, ustUp, ustDown]

/-- The general stack instruction on a pattern of the parameter stack, of which the needed depth and the stack that it
leaves are known. -/
theorem State.transition_of_depth {n : Nat} (hp : reserved p = false) (hu : usesReturnStack p = false)
    (hn : neededDepth p = n) (hps : patternPs p s.ps s.rs = ps') (r : Bool) :
    s.transition r p =
      if s.ps.length < n then .next (s.raise .psUnderflow) else s.checkReturn r (s.leave r ps') := by
  rw [State.transition_of_unused hp hu, hn, hps]

/-- NOP (R213). -/
theorem exec_nop_eq_transition (r : Bool) (s : State) : exec (.nop r) s = s.transition r .nop :=
  (if_neg (Nat.not_lt_zero s.ps.length)).symm.trans
    (State.transition_of_depth rfl rfl (by decide) (patternPs_nop s.ps s.rs) r).symm

/-- DROP (R214). -/
theorem exec_drop_eq_transition (r : Bool) (s : State) : exec (.drop r) s = s.transition r .drop :=
  (State.pop1_eq_ite fun x rest hp => by simp [hp]).trans
    (State.transition_of_depth rfl rfl (by decide) (patternPs_drop s.ps s.rs) r).symm

/-- DUP (R215). -/
theorem exec_dup_eq_transition (r : Bool) (s : State) : exec (.dup r) s = s.transition r .dup :=
  (State.pop1_eq_ite fun x rest hp => by simp [hp]).trans
    (State.transition_of_depth rfl rfl (by decide) (patternPs_dup s.ps s.rs) r).symm

/-- SWAP (R216). -/
theorem exec_swap_eq_transition (r : Bool) (s : State) : exec (.swap r) s = s.transition r .swap :=
  (State.pop2_eq_ite fun x y rest hp => by simp [hp]).trans
    (State.transition_of_depth rfl rfl (by decide) (patternPs_swap s.ps s.rs) r).symm

/-- OVER (R217). -/
theorem exec_overCell_eq_transition (r : Bool) (s : State) : exec (.overCell r) s = s.transition r .over :=
  (State.pop2_eq_ite fun x y rest hp => by simp [hp]).trans
    (State.transition_of_depth rfl rfl (by decide) (patternPs_over s.ps s.rs) r).symm

/-- NIP (R218). -/
theorem exec_nip_eq_transition (r : Bool) (s : State) : exec (.nip r) s = s.transition r .nip :=
  (State.pop2_eq_ite fun x y rest hp => by simp [hp]).trans
    (State.transition_of_depth rfl rfl (by decide) (patternPs_nip s.ps s.rs) r).symm

/-- The general stack instruction, without the return bit, on a pattern that needs RS0 alone. -/
theorem State.transition_of_needsReturn (hp : reserved p = false) (hd : neededDepth p = 0)
    (hn : patternNeedsReturn p = true) (hps : patternPs p s.ps s.rs = ps') (hrs : patternRs p s.ps s.rs = rs') :
    s.transition false p = if s.rs = [] then .next (s.raise .rsUnderflow) else s.leaveBoth ps' rs' := by
  simp [State.transition_false hp, hd, hn, hps, hrs]

/-- RDROP (R219). -/
theorem exec_rdrop_eq_transition (s : State) : exec (.rdrop false) s = s.transition false .rdrop := by
  have hps : patternPs .rdrop s.ps s.rs = s.ps := by simp [patternPs, StkPattern.rdrop, ustUp, ustDown]
  have hrs : patternRs .rdrop s.ps s.rs = s.rs.tail := by simp [patternRs, StkPattern.rdrop, ustUp]
  rw [State.transition_of_needsReturn rfl (by decide) rfl hps hrs]
  exact State.popReturn_eq_ite fun x rest hs => by simp [hs]

/-- R@ (R221). -/
theorem exec_rFetch_eq_transition (s : State) : exec (.rFetch false) s = s.transition false .rFetch := by
  have hps : patternPs .rFetch s.ps s.rs = s.rs[0]?.toList ++ s.ps := by
    simp [patternPs, StkPattern.rFetch, ustUp, ustDown]
  have hrs : patternRs .rFetch s.ps s.rs = s.rs := by simp [patternRs, StkPattern.rFetch, ustUp]
  rw [State.transition_of_needsReturn rfl (by decide) rfl hps hrs]
  exact State.popReturn_eq_ite fun x rest hs => by simp [hs]

/-- R> (R222). -/
theorem exec_rFrom_eq_transition (s : State) : exec (.rFrom false) s = s.transition false .rFrom := by
  have hps : patternPs .rFrom s.ps s.rs = s.rs[0]?.toList ++ s.ps := by
    simp [patternPs, StkPattern.rFrom, ustUp, ustDown]
  have hrs : patternRs .rFrom s.ps s.rs = s.rs.tail := by simp [patternRs, StkPattern.rFrom, ustUp]
  rw [State.transition_of_needsReturn rfl (by decide) rfl hps hrs]
  exact State.popReturn_eq_ite fun x rest hs => by simp [hs]

/-- >R, which needs a cell of the parameter stack and none of the return stack (R220). -/
theorem exec_toR_eq_transition (s : State) : exec (.toR false) s = s.transition false .toR := by
  have hps : patternPs .toR s.ps s.rs = s.ps.tail := by simp [patternPs, StkPattern.toR, ustUp, ustDown]
  have hrs : patternRs .toR s.ps s.rs = s.ps[0]?.toList ++ s.rs := by simp [patternRs, StkPattern.toR, ustUp]
  have hdepth : neededDepth .toR = 1 := by decide
  have hreturn : ¬ (patternNeedsReturn .toR = true ∧ s.rs = []) := fun ⟨hn, _⟩ => absurd hn (by decide)
  rw [State.transition_false rfl, hdepth, hps, hrs, if_neg hreturn]
  exact State.pop1_eq_ite (r := false) (done := s.leaveBoth s.ps.tail (s.ps[0]?.toList ++ s.rs)) fun x rest hp => by
    simp [hp]

/-- Settles O36: the word of each pattern is decoded to it. -/
theorem stackWordsAreTheirPatterns : Obligations.StackWordsAreTheirPatterns := fun s =>
  ⟨fun r => ⟨exec_nop_eq_transition r s, exec_drop_eq_transition r s, exec_dup_eq_transition r s,
      exec_swap_eq_transition r s, exec_overCell_eq_transition r s, exec_nip_eq_transition r s⟩,
    exec_rdrop_eq_transition s, exec_toR_eq_transition s, exec_rFetch_eq_transition s, exec_rFrom_eq_transition s⟩

/-! ## What the needed cells are for (R206) -/

/-- A cell that passes its content up must hold content, unless it receives from below: it is kept and passed on, or one
of two that are exchanged. -/
theorem cellNeeded_of_up {u : Ust} (hu : ustUp u = true) (passed exchanged crosses : Bool) :
    cellNeeded (ustDown u) (bitCount (ustUp u) passed) (exchanged || u == .exchange) crosses = true := by
  cases u <;> simp [ustUp, cellNeeded, ustDown, bitCount] at hu ⊢

/-- A cell that crosses between the stacks must hold content. -/
theorem cellNeeded_of_crosses (written exchanged : Bool) (passed : Nat) :
    cellNeeded written passed exchanged true = true :=
  Bool.or_true _

/-- PS1, passed up and not replaced from below. -/
theorem patternNeeds_one_of_up (hu : ustUp p.u1 = true) (hn : ustUp p.u2 = false) : patternNeeds p 1 = true := by
  rw [patternNeeds, hn]
  exact cellNeeded_of_up hu _ _ _

/-- PS2, passed up and not replaced from below. -/
theorem patternNeeds_two_of_up (hu : ustUp p.u2 = true) (hn : ustUp p.u3 = false) : patternNeeds p 2 = true := by
  rw [patternNeeds, hn]
  exact cellNeeded_of_up hu _ _ _

/-- PS3, passed up and not replaced from the intermediate stack. -/
theorem patternNeeds_three_of_up (hu : ustUp p.u3 = true) (hn : ipsPull p = false) : patternNeeds p 3 = true := by
  have hwritten : (ustDown p.u3 || p.ips) = ustDown p.u3 := by
    cases hd : ustDown p.u3
    · simpa [ipsPull, hd] using hn
    · rfl
  rw [patternNeeds, hwritten]
  exact cellNeeded_of_up hu _ false _

/-- PS0, passed to the return stack. -/
theorem patternNeeds_zero_of_up (hu : ustUp p.u0 = true) : patternNeeds p 0 = true := by
  rw [patternNeeds, hu]
  exact cellNeeded_of_crosses _ _ _

/-- RS0, passed to the parameter stack. -/
theorem patternNeedsReturn_of_down (hd : ustDown p.u0 = true) : patternNeedsReturn p = true := by
  rw [patternNeedsReturn, hd]
  exact cellNeeded_of_crosses _ _ _

/-! ## The upper stack stays contiguous (R205, R207) -/

section contiguous

variable {ps rs : List Cell} {k : Nat} {up down up' down' : Bool} {o : Option Cell}

/-- A cell below the top that holds content afterwards takes it from no higher than the cell above it. -/
theorem lt_length_of_isSome (h : (if up then ps[k + 2]? else if down then ps[k]? else ps[k + 1]?).isSome) :
    k < ps.length := by
  split_ifs at h
  all_goals
    rw [isSome_getElem?] at h
    omega

/-- A cell that keeps its value or takes that of the cell above it. -/
theorem isSome_of_lt_length (h : k + 1 < ps.length) : (if down then ps[k]? else ps[k + 1]?).isSome := by
  split_ifs
  all_goals
    rw [isSome_getElem?]
    omega

/-- A cell holds content afterwards if the cell below it does: what it receives from below is there, or else comes from
no deeper than what the cell below receives. -/
theorem isSome_of_isSome_below (hcell : up = true → up' = false → k + 1 < ps.length)
    (ho : k < ps.length → o.isSome)
    (h : (if up' then ps[k + 2]? else if down' then ps[k]? else ps[k + 1]?).isSome) :
    (if up then ps[k + 1]? else o).isSome := by
  have hk := lt_length_of_isSome h
  cases up
  · exact ho hk
  · cases up'
    · simpa using hcell rfl rfl
    · simp only [if_true, isSome_getElem?] at h ⊢
      omega

variable (hcells : ∀ k : Fin 4, patternNeeds p k = true → k.val < ps.length)
  (hret : patternNeedsReturn p = true → rs ≠ [])
include hret

/-- What PS0 takes from the return stack is there. -/
theorem isSome_of_down (hk : 0 < ps.length) : (if ustDown p.u0 then rs[0]? else ps[0]?).isSome := by
  split_ifs with hd
  · rw [isSome_getElem?]
    exact List.length_pos_iff.mpr (hret (patternNeedsReturn_of_down hd))
  · rwa [isSome_getElem?]

include hcells

/-- PS1 holds content only below PS0. -/
theorem isSome_newValue_ps0 (h : (newValue p ps rs .ps1).isSome) : (newValue p ps rs .ps0).isSome := by
  rw [newValue_ps1] at h
  rw [newValue_ps0]
  exact isSome_of_isSome_below (fun hu hn => hcells 1 (patternNeeds_one_of_up hu hn)) (isSome_of_down hret) h

omit hret

/-- PS2 holds content only below PS1. -/
theorem isSome_newValue_ps1 (h : (newValue p ps rs .ps2).isSome) : (newValue p ps rs .ps1).isSome := by
  rw [newValue_ps2] at h
  rw [newValue_ps1]
  exact isSome_of_isSome_below (fun hu hn => hcells 2 (patternNeeds_two_of_up hu hn)) isSome_of_lt_length h

/-- PS3 holds content only below PS2. -/
theorem isSome_newValue_ps2 (h : (newValue p ps rs .ps3).isSome) : (newValue p ps rs .ps2).isSome := by
  rw [newValue_ps3] at h
  rw [newValue_ps2]
  exact isSome_of_isSome_below (fun hu hn => hcells 3 (patternNeeds_three_of_up hu hn)) isSome_of_lt_length h

omit hcells

/-- There are deeper cells of the parameter stack only below PS3. -/
theorem isSome_newValue_ps3 (h : newPsDeep p ps ≠ []) : (newValue p ps rs .ps3).isSome := by
  rw [newPsDeep_eq_drop, ← List.length_pos_iff, List.length_drop] at h
  rw [newValue_ps3]
  cases hi : p.ips <;> cases hd : ustDown p.u3 <;> simp [ipsPull, hi, hd] at h ⊢ <;> omega

include hcells

/-- There are deeper cells of the return stack only below RS0. -/
theorem isSome_newValue_rs0 (h : newRsDeep p rs ≠ []) : (newValue p ps rs .rs0).isSome := by
  rw [newRsDeep_eq_drop, ← List.length_pos_iff, List.length_drop] at h
  rw [newValue_rs0]
  split_ifs with hu hi
  · rw [isSome_getElem?]
    exact hcells 0 (patternNeeds_zero_of_up hu)
  · simp only [hi, hu, if_true, Bool.false_eq_true, if_false] at h
    rw [isSome_getElem?]
    omega
  · simp only [hi, Bool.false_eq_true, if_false] at h
    rw [isSome_getElem?]
    omega

omit hcells

/-- A cell holds content afterwards if there was a cell below it. -/
theorem isSome_of_lt_below (ho : k + 1 < ps.length → o.isSome) (hk : k + 1 < ps.length) :
    (if up then ps[k + 1]? else o).isSome := by
  split_ifs
  · rwa [isSome_getElem?]
  · exact ho hk

/-- How many values the upper cell of depth `k` holds afterwards: one if there was a cell below it, none if there was no
cell above it. -/
theorem length_toList_of_transfer (hbelow : k + 1 < ps.length → o.isSome) (habove : o.isSome → k ≤ ps.length) :
    o.toList.length ≤ 1 ∧ (k + 1 < ps.length → o.toList.length = 1) ∧ (ps.length < k → o.toList.length = 0) := by
  cases o with
  | none => simpa using hbelow
  | some x => simpa using habove rfl

/-- The same for a cell below the top, which receives from a neighbour or keeps its value. -/
theorem length_toList_of_neighbours (ho : o = if up then ps[k + 2]? else if down then ps[k]? else ps[k + 1]?) :
    o.toList.length ≤ 1 ∧ (k + 2 < ps.length → o.toList.length = 1) ∧
      (ps.length < k + 1 → o.toList.length = 0) := by
  subst ho
  exact length_toList_of_transfer (isSome_of_lt_below fun hk => isSome_of_lt_length (by omega)) lt_length_of_isSome

include hret

/-- The parameter stack grows or shrinks by one cell at most: each upper cell receives from a neighbour. -/
theorem length_newPs_bounds : (newPs p ps rs).length ≤ ps.length + 1 ∧ ps.length ≤ (newPs p ps rs).length + 1 := by
  have h0 := length_toList_of_transfer (ps := ps) (k := 0) (o := newValue p ps rs .ps0)
    (by rw [newValue_ps0]; exact isSome_of_lt_below fun hk => isSome_of_down hret (by omega)) (fun _ => Nat.zero_le _)
  have h1 := length_toList_of_neighbours (newValue_ps1 p ps rs)
  have h2 := length_toList_of_neighbours (newValue_ps2 p ps rs)
  have h3 := length_toList_of_neighbours (newValue_ps3 p ps rs)
  have hdeep : (newPsDeep p ps).length = ps.length - 3 ∨ (newPsDeep p ps).length = ps.length - 5 ∨
      (newPsDeep p ps).length = ps.length - 4 := by
    rw [newPsDeep_eq_drop, List.length_drop]
    split_ifs <;> simp
  simp only [newPs, filterMap_upperCells, reduceOption_cons, List.reduceOption_nil, List.length_append,
    List.length_nil]
  omega

omit hret

/-- The return stack grows or shrinks by one cell at most. -/
theorem length_newRs_bounds (p : StkPattern) (ps rs : List Cell) :
    (newRs p ps rs).length ≤ rs.length + 1 ∧ rs.length ≤ (newRs p ps rs).length + 1 := by
  have hone : (newValue p ps rs .rs0).toList.length ≤ 1 := by cases newValue p ps rs .rs0 <;> simp
  rw [newRs, newRsDeep_eq_drop, List.length_append, List.length_drop]
  split_ifs with hi hu
  · omega
  · have hpulled : 1 < rs.length → (newValue p ps rs .rs0).toList.length = 1 := by
      intro hl
      simp [newValue_rs0, hi, hu, hl]
    omega
  · omega

end contiguous

/-- Settles O43: neighbouring cells in turn, then the depths. -/
theorem patternsKeepTheUpperStackContiguous : Obligations.PatternsKeepTheUpperStackContiguous := by
  intro p ps rs hp hpar hreturn
  have hcells := (lacksParameter_eq_false_iff hp ps rs).mp hpar
  have hret := (lacksReturn_eq_false_iff hp ps rs).mp hreturn
  obtain ⟨hgrow, hshrink⟩ := length_newPs_bounds (ps := ps) hret
  obtain ⟨hgrow', hshrink'⟩ := length_newRs_bounds p ps rs
  exact ⟨isSome_newValue_ps0 hcells hret, isSome_newValue_ps1 hcells, isSome_newValue_ps2 hcells,
    isSome_newValue_ps3, isSome_newValue_rs0 hcells, hgrow, hshrink, hgrow', hshrink'⟩

/-! ## Reserved patterns (R204) -/

/-- The upward transfer is the low bit of a transfer code. -/
theorem ustUp_decodeUst {n : Nat} (h : n < 4) : ustUp (decodeUst n) = decide (n % 2 = 1) := by
  interval_cases n <;> rfl

/-- The downward transfer is the high bit of a transfer code. -/
theorem ustDown_decodeUst {n : Nat} (h : n < 4) : ustDown (decodeUst n) = decide (n / 2 = 1) := by
  interval_cases n <;> rfl

/-- No pair of the neighbouring bits 3 and 2, 5 and 4, 7 and 6 is set; the pairs are three digits to the base 4. -/
def noPairSet (n : Nat) : Bool := decide (n / 4 % 4 ≠ 3) && (decide (n / 16 % 4 ≠ 3) && decide (n / 64 % 4 ≠ 3))

/-- The two transfers into a cell are neighbouring bits of the word, so a pattern is reserved exactly if such a pair is
set. -/
theorem reserved_decodePattern {n : Nat} (hn : n < 65536) :
    reserved (decodePattern (BitVec.ofNat 16 n)) = !noPairSet n := by
  have hcode (m : Nat) : m % 4 < 4 := Nat.mod_lt m (by decide)
  simp only [reserved, decodePattern, wordField_ofNat _ _ _ hn, BitVec.toNat_ofNat, Nat.reducePow,
    ustUp_decodeUst (hcode _), ustDown_decodeUst (hcode _), noPairSet]
  rw [Bool.eq_iff_iff]
  simp only [Bool.or_eq_true, Bool.and_eq_true, Bool.not_eq_true', Bool.and_eq_false_iff, decide_eq_true_iff,
    decide_eq_false_iff_not]
  omega

/-- Numbers whose last digit to the base `b` and whose other digits are chosen independently. -/
theorem countP_range_mul (k g : Nat → Bool) (b m : Nat) :
    ((List.range (b * m)).countP fun n => k (n % b) && g (n / b)) =
      (List.range b).countP k * (List.range m).countP g := by
  induction m with
  | zero => simp
  | succ m ih =>
    have hlast : ((List.range b).map (b * m + ·)).countP (fun n => k (n % b) && g (n / b)) =
        (List.range b).countP k * [m].countP g := by
      rw [List.countP_map, List.countP_congr (q := fun j => k j && g m)]
      · cases hg : g m <;> simp [hg]
      · intro j hj
        have hj := List.mem_range.mp hj
        simp [Nat.mod_eq_of_lt hj, Nat.mul_add_div (Nat.zero_lt_of_lt hj), Nat.div_eq_of_lt hj]
    rw [Nat.mul_succ, List.range_add, List.countP_append, ih, hlast, List.range_succ, List.countP_append, Nat.mul_add]

/-- The patterns that are defined: three of the four values of each of the three digits, any value of the other two. -/
theorem countP_noPairSet : (List.range 1024).countP noPairSet = 432 := by
  have hdigit : (List.range 4).countP (fun d => decide (d ≠ 3)) = 3 := by decide
  have h2 := countP_range_mul (fun d => decide (d ≠ 3)) (fun _ => true) 4 4
  have h1 := countP_range_mul (fun d => decide (d ≠ 3)) (fun n => decide (n % 4 ≠ 3) && true) 4 16
  have h0 := countP_range_mul (fun d => decide (d ≠ 3))
    (fun n => decide (n % 4 ≠ 3) && (decide (n / 4 % 4 ≠ 3) && true)) 4 64
  have h := countP_range_mul (fun _ => true)
    (fun n => decide (n % 4 ≠ 3) && (decide (n / 4 % 4 ≠ 3) && (decide (n / 4 / 4 % 4 ≠ 3) && true))) 4 256
  simp only [Bool.and_true, Bool.true_and, Nat.div_div_eq_div_mul, Nat.reduceMul, hdigit, List.countP_true,
    List.length_range] at h h0 h1 h2
  exact h.trans (by rw [h0, h1, h2])

/-- A pattern in which a cell would receive two sources is refused, whatever the return bit says. -/
theorem exec_stk_of_reserved (hp : reserved p = true) (r : Bool) (s : State) :
    exec (.stk r p) s = .refused .reservedPattern := by
  simp [exec, execStk, hp]

/-- The upward transfer's two codes. -/
theorem ustUp_iff_mem {u : Ust} : ustUp u = true ↔ u ∈ [Ust.up, .exchange] := by
  cases u <;> decide

/-- The downward transfer's two codes. -/
theorem ustDown_iff_mem {u : Ust} : ustDown u = true ↔ u ∈ [Ust.down, .exchange] := by
  cases u <;> decide

/-- Settles O39: the three cases are the reserved patterns, and what is not reserved was counted. -/
theorem reservedPatternsHaveNoMeaning : Obligations.ReservedPatternsHaveNoMeaning := by
  refine ⟨fun r p s h => exec_stk_of_reserved ?_ r s, ?_⟩
  · simp only [← ustUp_iff_mem, ← ustDown_iff_mem] at h
    simpa only [reserved, Bool.or_eq_true, Bool.and_eq_true, or_assoc] using h
  · have hreserved : (List.range 1024).countP (fun n => reserved (decodePattern (BitVec.ofNat 16 n))) =
        (List.range 1024).countP fun n => !noPairSet n := by
      refine List.countP_congr fun n hn => ?_
      rw [reserved_decodePattern ((List.mem_range.mp hn).trans (by decide))]
    have hall := List.length_eq_countP_add_countP (l := List.range 1024) noPairSet
    simp only [countP_noPairSet, List.length_range, Bool.not_eq_true, Bool.decide_eq_false] at hall
    rw [← List.countP_eq_length_filter, hreserved]
    omega

end Sys2Proof.Machine
end

section
/-!
PROOFS. Memory access: stores, loads, how they wait for the bus, and the fault of an access that the platform refuses
(spec/46_memory_access.md).
-/

namespace Sys2Proof.Machine

variable {s : State} {r : Bool} {m8 : BitVec 8} {a v : Cell} {rest : List Cell}

/-! ## The window of direct accesses (R68, R230) -/

/-- `D(m8)` is the upper byte of the window followed by the field (R230). -/
theorem directAddress_eq_append (c : Config) (m8 : BitVec 8) :
    directAddress c m8 = BitVec.extractLsb' 8 8 c.madrOffset ++ m8 :=
  ofNat_replaceLower_eq_append (n := 8) (k := 8) c.madrOffset m8

/-! ## The access on the bus (R74) -/

/-- An access that the bus answers is made. -/
theorem State.onBus_of_answered (hb : s.dataAnswer = .answered) (go : Result) : s.onBus go = go := by
  rw [State.onBus, hb]

/-- An access that the bus does not answer changes only that the instruction waits, whatever it would do. -/
theorem State.onBus_waits (s : State) (go : Result) :
    (s.dataAnswer = .held → s.onBus go = .next { s with waiting := .blocked }) ∧
      (s.dataAnswer = .retry → s.onBus go = .next { s with waiting := .retried }) := by
  obtain ⟨hb, -⟩ | ⟨hb, h⟩ | ⟨hb, h⟩ := s.onBus_eq go
  · simp [hb]
  · exact ⟨fun _ => h, by simp [hb]⟩
  · exact ⟨by simp [hb], fun _ => h⟩

/-! ## The instructions with their operands (R231 to R234) -/

/-- A stack of two cells or more has two operands on top. -/
theorem exists_two_operands {ps : List Cell} (hl : 2 ≤ ps.length) : ∃ a v rest, ps = a :: v :: rest := by
  match ps, hl with
  | a :: v :: rest, _ => exact ⟨a, v, rest, rfl⟩

/-- STI stores the second cell at the address on top. -/
theorem exec_sti_of_cons (hp : s.ps = a :: v :: rest) (hr : s.canReturn r) :
    exec (.sti r) s = s.store r a v rest :=
  State.pop2_of_cons hp hr _

/-- ST stores the top at its direct address. -/
theorem exec_st_of_cons (hp : s.ps = v :: rest) (hr : s.canReturn r) :
    exec (.st r m8) s = s.store r (directAddress s.cfg m8) v rest :=
  State.pop1_of_cons hp hr _

/-- LDI loads from the address on top, in its place. -/
theorem exec_ldi_of_cons (hp : s.ps = a :: rest) (hr : s.canReturn r) : exec (.ldi r) s = s.load r a rest :=
  State.pop1_of_cons hp hr _

/-- LD loads from its direct address. -/
theorem exec_ld_of_canReturn (hr : s.canReturn r) :
    exec (.ld r m8) s = s.load r (directAddress s.cfg m8) s.ps :=
  State.checkReturn_of_canReturn _ hr

/-! ## Accesses that the platform accepts (R65, R66) -/

/-- A store writes its word, keeps what may have been fetched ahead there as possible, and ends the instruction
(R330). -/
theorem State.store_of_valid (hb : s.dataAnswer = .answered) (hv : s.cfg.valid a .write = true)
    (hr : s.canReturn r) (v : Cell) (rest : List Cell) :
    s.store r a v rest = .next
      { s.after r rest with
        mem := (s.putWord a v).mem
        stash := if r then [] else
          (if a = s.pc + 1#16 ∨ a = s.pc + 2#16 then [(a, s.readWord .fetch a)] else []) ++
            s.stash.filter fun c => c.1 ≠ s.pc } := by
  rw [State.store, State.onBus_of_answered hb, if_pos hv, State.finish_storeWord rest a v hr]

/-- A load ends the instruction with the word read on top. -/
theorem State.load_of_valid (hb : s.dataAnswer = .answered) (hv : s.cfg.valid a .read = true) (r : Bool)
    (rest : List Cell) : s.load r a rest = s.leave r (s.readWord .read a :: rest) := by
  rw [State.load, State.onBus_of_answered hb, if_pos hv]

/-! ## Accesses that the platform refuses (R236) -/

/-- Where an operand was taken, the throw code has its room, so the entry is that of the address out of range on what
lies below the operands, or on them (R295). -/
theorem State.dataFault_of_shorter (hl : rest.length < s.ps.length) :
    s.dataFault s rest = if s.cfg.memfaultConsumes then s.gone (0xFFF7#16 :: rest) s.rs 0x0000#16 none
      else s.raise .addressOutOfRange := by
  have hroom : s.overflows (rest.length + 1) s.rs.length = false := State.overflows_eq_false (.inl (by omega))
  unfold State.dataFault
  split
  · rw [State.raiseFrom_cases _ _ _ rfl, hroom]
    rfl
  · rfl

/-- Where no operand was there to be taken, the parameter makes no difference. -/
theorem State.dataFault_of_all (s : State) : s.dataFault s s.ps = s.raise .addressOutOfRange := by
  rw [State.dataFault, ite_self, State.raise]

/-- An exception's entry passes memory through, and discards what was fetched ahead (R284, R330). -/
theorem State.raiseFrom_of_memory (b s : State) (e : Exc) (ps : List Cell) (m : Memory) (ahead : List (Cell × Cell)) :
    b.raiseFrom e { s with mem := m, stash := ahead } ps = { b.raiseFrom e s ps with mem := m } := by
  unfold State.raiseFrom
  by_cases ho : b.overflows ((if e.clearsStacks then [] else ps).length + 1)
      (if e.clearsStacks then [] else s.rs).length = true
  · simp only [ho, if_true]
    rfl
  · simp only [ho]
    rfl

/-- A faulting store that has written enters the exception as one that has not, but for memory. -/
theorem State.dataFault_storeWord (s : State) (a v : Cell) (rest : List Cell) :
    s.dataFault (s.storeWord a v) rest = { s.dataFault s rest with mem := (s.putWord a v).mem } := by
  rw [State.storeWord_eq]
  exact State.raiseFrom_of_memory ..

/-- The fault's entry leaves memory as it is. -/
theorem State.dataFault_with_mem (s : State) (rest : List Cell) :
    { s.dataFault s rest with mem := s.mem } = s.dataFault s rest := by
  have hmem : (s.dataFault s rest).mem = s.mem := State.raiseFrom_mem ..
  rw [← hmem]

/-- A refused load is the fault. -/
theorem State.load_of_refused (hb : s.dataAnswer = .answered) (hv : s.cfg.valid a .read = false) (r : Bool)
    (rest : List Cell) : s.load r a rest = .next (s.dataFault s rest) := by
  rw [State.load, State.onBus_of_answered hb, hv]
  rfl

/-- A refused store is the fault, with memory as it was or with the word in it (R66). -/
theorem State.store_of_refused (hb : s.dataAnswer = .answered) (hv : s.cfg.valid a .write = false) (r : Bool)
    (v : Cell) (rest : List Cell) :
    ∃ t : State, s.store r a v rest = .next t ∧ (t.mem = s.mem ∨ t.mem = (s.putWord a v).mem) ∧
      { t with mem := s.mem } = s.dataFault s rest := by
  rw [State.store, State.onBus_of_answered hb, hv, if_neg Bool.false_ne_true]
  split
  · refine ⟨_, rfl, ?_⟩
    rw [State.dataFault_storeWord]
    exact ⟨.inr rfl, s.dataFault_with_mem rest⟩
  · exact ⟨_, rfl, .inl (State.raiseFrom_mem ..), s.dataFault_with_mem rest⟩

/-! ## The obligations -/

/-- Settles O44: STI and ST with their operands are one store, which is made or waits; without them they underflow. -/
theorem storesWriteOneWord : Obligations.StoresWriteOneWord := by
  refine ⟨fun r s a v rest hr hp hb hv => ?_, fun r m8 s a v rest _ hr hp hb ha hv => ?_,
    fun r m8 s hr => ⟨fun hl => ?_, fun hp => ?_⟩,
    fun r m8 s => ⟨fun hl => State.pop2_of_short hl r _, fun hp => State.pop1_of_nil hp r _⟩⟩
  · exact (exec_sti_of_cons hp hr).trans (State.store_of_valid hb hv hr v rest)
  · rw [← directAddress_eq_append] at ha
    subst ha
    exact (exec_st_of_cons hp hr).trans (State.store_of_valid hb hv hr v rest)
  · obtain ⟨a, v, rest, hp⟩ := exists_two_operands hl
    rw [exec_sti_of_cons hp hr]
    exact s.onBus_waits _
  · obtain ⟨v, rest, hp⟩ := List.exists_cons_of_ne_nil hp
    rw [exec_st_of_cons hp hr]
    exact s.onBus_waits _

/-- Settles O45: LDI and LD are one load, which is made or waits; LDI has the room of its operand, LD needs one cell
more. -/
theorem loadsPushOneWord : Obligations.LoadsPushOneWord := by
  refine ⟨fun r s a rest hr hp hb hv => ?_, fun r m8 s a _ hr hb ha hv => ?_, fun r m8 s hr => ⟨fun hp => ?_, ?_⟩,
    fun r s hp => State.pop1_of_nil hp r _⟩
  · rw [exec_ldi_of_cons hp hr, State.load_of_valid hb hv]
    exact s.leave_eq _ hr (by simp [hp])
  · rw [← directAddress_eq_append] at ha
    subst ha
    exact State.leave_ends_of_push hr (List.length_cons ..)
      ((exec_ld_of_canReturn hr).trans (State.load_of_valid hb hv r s.ps))
  · obtain ⟨a, rest, hp⟩ := List.exists_cons_of_ne_nil hp
    rw [exec_ldi_of_cons hp hr]
    exact s.onBus_waits _
  · rw [exec_ld_of_canReturn hr]
    exact s.onBus_waits _

/-- Settles O46: a refused load is the fault and a refused store is the fault but for memory; LD alone has no operand
to take. -/
theorem faultingDataAccessTakesTheException : Obligations.FaultingDataAccessTakesTheException := by
  refine ⟨fun r s a rest hb hr hp hv => ?_, fun r m8 s _ hb hr hv => ?_, fun r s a v rest hb hr hp hv => ?_,
    fun r m8 s a v rest _ hb hr hp ha hv => ?_⟩
  · rw [exec_ldi_of_cons hp hr, State.load_of_refused hb hv, State.dataFault_of_shorter (by simp [hp])]
  · rw [← directAddress_eq_append] at hv
    rw [exec_ld_of_canReturn hr, State.load_of_refused hb hv, State.dataFault_of_all]
  · have hlength : rest.length < s.ps.length := by
      simp only [hp, List.length_cons]
      omega
    rw [exec_sti_of_cons hp hr, ← State.dataFault_of_shorter hlength]
    exact State.store_of_refused hb hv r v rest
  · rw [← directAddress_eq_append] at ha
    subst ha
    rw [exec_st_of_cons hp hr, ← State.dataFault_of_shorter (by simp [hp])]
    exact State.store_of_refused hb hv r v rest

end Sys2Proof.Machine
end

section
/-!
PROOFS. The function registers: what a read pushes, what a write takes, the registers that are not there, and those that
are read only (spec/47_function_register.md).
-/

namespace Sys2Proof.Machine

variable {s t : State} {r : Bool} {v : Cell} {rest : List Cell}

/-! ## Cells that tell a flag (R42, R150) -/

/-- The flag cell of KEY?: whether any datum waits at the input device (R251). -/
theorem flag_not_isEmpty (l : List Cell) : flag (!l.isEmpty) = if l = [] then 0x0000#16 else 0xFFFF#16 := by
  cases l <;> rfl

/-- A written cell is true unless it is zero (R42, R250). -/
theorem cellIsTrue_eq_decide (v : Cell) : cellIsTrue v = decide (v ≠ 0x0000#16) := by
  rw [Bool.eq_iff_iff, cellIsTrue, bne_iff_ne, decide_eq_true_iff]

/-! ## Registers that are present and registers that are not (R256) -/

/-- Without its extension the access to a register raises undefined word, whatever it would do. -/
theorem State.ifPresent_of_absent {b : Bool} (hb : b = false) (go : Result) :
    s.ifPresent b go = .next (s.raise .undefinedWord) := by
  rw [hb]
  rfl

/-- A read of a register that is present pushes its cell and ends as R287 says. -/
theorem State.ifPresent_pushAndLeave_ends {b : Bool} (hb : b = true) (v : Cell) (hr : s.canReturn r) :
    s.endsUnlessFull (s.ps.length + 1) (s.rsdAfter r) 0xFFFD#16 (s.ifPresent b (s.pushAndLeave r v))
      (s.after r (v :: s.ps)) := by
  rw [State.ifPresent_of_present hb]
  exact State.pushAndLeave_ends v hr

/-- A write to a register that is present takes the top. -/
theorem State.ifPresent_pop1_of_cons {b : Bool} (hb : b = true) (hp : s.ps = v :: rest) (hr : s.canReturn r)
    (go : Cell → List Cell → Result) : s.ifPresent b (s.pop1 r go) = go v rest :=
  (State.ifPresent_of_present hb _).trans (State.pop1_of_cons hp hr go)

/-- A write to a register that is present underflows without a cell. -/
theorem State.ifPresent_pop1_of_nil {b : Bool} (hb : b = true) (hp : s.ps = []) (r : Bool)
    (go : Cell → List Cell → Result) : s.ifPresent b (s.pop1 r go) = .next (s.raise .psUnderflow) :=
  (State.ifPresent_of_present hb _).trans (State.pop1_of_nil hp r go)

/-! ## Ends that also change something else than the stacks (R287) -/

/-- An instruction that makes the parameter stack no longer, and whose other stack is as the return action leaves it,
ends in its state, whatever else that state changes. -/
theorem State.settle_eq (hps : t.ps.length ≤ s.ps.length) (hrs : t.rs.length = s.rsdAfter r) :
    s.settle t = .next t := by
  have ⟨hroom, _, _⟩ := s.settle_ends t
  refine hroom (.inl ?_)
  simp only [State.rsdAfter] at hrs
  omega

/-- One that makes the parameter stack longer by one cell ends as R287 says. -/
theorem State.settle_ends_of_push (hps : t.ps.length = s.ps.length + 1) (hrs : t.rs.length = s.rsdAfter r) :
    s.endsUnlessFull (s.ps.length + 1) (s.rsdAfter r) 0xFFFD#16 (s.settle t) t := by
  have hends := s.settle_ends t
  rwa [hps, hrs, if_pos (Nat.lt_succ_self _)] at hends

/-! ## Accesses that change more than the stacks (R250, R253, R254) -/

/-- The IEN write takes the top and sets the enable flag by it. -/
theorem exec_frwIen_of_cons (hx : s.cfg.extIrq = true) (hp : s.ps = v :: rest) (hr : s.canReturn r) :
    exec (.frwIen r) s = .next { s.after r rest with ien := decide (v ≠ 0x0000#16) } := by
  refine (State.ifPresent_pop1_of_cons hx hp hr _).trans ?_
  rw [State.finish_withStacks_ien rest _ hr, cellIsTrue_eq_decide]
  exact State.settle_eq (by simp [State.after, hp]) (State.after_rs_length r s rest)

/-- The EMIT write has its cell and its return address: whether the device is ready decides. -/
theorem exec_frwKeyEmit_of_cons (hx : s.cfg.extKey = true) (hp : s.ps = v :: rest) (hr : s.canReturn r) :
    exec (.frwKeyEmit r) s = .next (if s.outReady then { s.after r rest with emitted := s.emitted ++ [v] }
      else { s with waiting := .blocked }) := by
  refine (State.ifPresent_pop1_of_cons hx hp hr _).trans ?_
  split
  · rw [State.finish_withStacks_emitted rest _ hr]
    exact State.settle_eq (by simp [State.after, hp]) (State.after_rs_length r s rest)
  · rfl

/-- The KEY read blocks while no datum waits. -/
theorem exec_frrKeyEmit_of_nil (hx : s.cfg.extKey = true) (hr : s.canReturn r) (hq : s.keyQueue = []) :
    exec (.frrKeyEmit r) s = .next { s with waiting := .blocked } := by
  refine (State.ifPresent_of_present hx _).trans ((State.checkReturn_of_canReturn _ hr).trans ?_)
  conv_lhs => rw [hq]
  rfl

/-- The KEY read pushes the oldest datum that waits, and the device drops it unless the push overflows. -/
theorem exec_frrKeyEmit_ends (hx : s.cfg.extKey = true) (hr : s.canReturn r) {later : List Cell}
    (hq : s.keyQueue = v :: later) :
    s.endsUnlessFull (s.ps.length + 1) (s.rsdAfter r) 0xFFFD#16 (exec (.frrKeyEmit r) s)
      { s.after r (v :: s.ps) with keyQueue := later } := by
  have hsettle : exec (.frrKeyEmit r) s = s.settle { s.after r (v :: s.ps) with keyQueue := later } := by
    refine (State.ifPresent_of_present hx _).trans ((State.checkReturn_of_canReturn _ hr).trans ?_)
    rw [hq, ← State.finish_withStacks_keyQueue (v :: s.ps) later hr]
  rw [hsettle]
  exact State.settle_ends_of_push (List.length_cons ..) (State.after_rs_length r s (v :: s.ps))

/-! ## The obligations -/

/-- Settles O49: the reads push one cell; the writes take one, and a stack that they clear is no longer than it was. -/
theorem depthRegistersReadAndClear : Obligations.DepthRegistersReadAndClear := by
  refine ⟨fun r s hr => ⟨State.pushAndLeave_ends _ hr, State.pushAndLeave_ends _ hr⟩, fun r s v rest hr hp => ?_,
    fun s v rest hp => ?_, fun r s hp => ⟨State.pop1_of_nil hp r _, State.pop1_of_nil hp false _⟩⟩
  · refine (State.pop1_of_cons hp hr _).trans (s.leave_eq _ hr ?_)
    split <;> simp [hp]
  · refine (State.pop1_of_cons hp (by simp) _).trans (State.leaveBoth_eq ?_)
    have hcleared : (if v = 0x0000#16 then [] else s.rs).length ≤ s.rs.length := by split <;> simp
    simp only [hp, List.length_cons]
    omega

/-- Settles O50: the reads push one cell where their register is present; the IEN write takes its cell or finds none. -/
theorem pcAndIenRegisters : Obligations.PcAndIenRegisters :=
  ⟨fun _ _ hx hr => State.ifPresent_pushAndLeave_ends hx _ hr,
    fun _ _ hx hr => State.ifPresent_pushAndLeave_ends hx _ hr,
    fun _ _ _ _ hx hr hp => exec_frwIen_of_cons hx hp hr,
    fun r _ hx hp => State.ifPresent_pop1_of_nil hx hp r _⟩

/-- Settles O51: the two queries push one flag cell; KEY waits for a datum and EMIT for the device. -/
theorem keyAndEmitRegisters : Obligations.KeyAndEmitRegisters := by
  refine ⟨fun r s hx hr => ⟨?_, State.ifPresent_pushAndLeave_ends hx _ hr, exec_frrKeyEmit_of_nil hx hr,
      fun v later hq => exec_frrKeyEmit_ends hx hr hq⟩,
    fun r s v rest hx hr hp => ?_, fun r s hx hp => State.ifPresent_pop1_of_nil hx hp r _⟩
  · rw [← flag_not_isEmpty]
    exact State.ifPresent_pushAndLeave_ends hx _ hr
  · rw [exec_frwKeyEmit_of_cons hx hp hr]
    exact ⟨fun hready => by rw [if_pos hready], fun hbusy => by rw [hbusy, if_neg Bool.false_ne_true]⟩

/-- Settles O52: an address without a register has nothing else to do, and an absent register is looked for first. -/
theorem unimplementedRegistersRaiseUndefinedWord : Obligations.UnimplementedRegistersRaiseUndefinedWord := by
  refine ⟨fun _ _ _ _ => ⟨rfl, rfl⟩, fun r s hx i hi => ?_, fun r s hx i hi => ?_, fun r s hx i hi => ?_⟩
  all_goals simp only [List.mem_cons, List.not_mem_nil, or_false] at hi
  · obtain rfl | rfl := hi
    all_goals exact State.ifPresent_of_absent hx _
  · obtain rfl | rfl := hi
    all_goals exact State.ifPresent_of_absent hx _
  · obtain rfl | rfl | rfl | rfl | rfl | rfl := hi
    all_goals exact State.ifPresent_of_absent hx _

/-- Settles O53: a register that is present and read only is refused before the state is looked at. -/
theorem readOnlyRegisterWritesHaveNoMeaning : Obligations.ReadOnlyRegisterWritesHaveNoMeaning :=
  ⟨fun _ _ hx => State.ifPresent_of_present hx _,
    fun _ _ hx => ⟨State.ifPresent_of_present hx _, State.ifPresent_of_present hx _⟩⟩

end Sys2Proof.Machine
end

section
/-!
PROOFS. Exceptions, reset and what stands between instructions: the entry of an exception and of an interrupt, the step
of each case in which no instruction is fetched, and the fetch (spec/60_exceptions.md, spec/70_reset_and_hazards.md
R320 to R322 and R341).
-/

namespace Sys2Proof.Machine

variable {s t : State}

/-! ## The zones of R287 -/

/-- An answer that the check of R287 decides ends so: with room in the state, without room in the entry, and between
the zones in one of the two. -/
theorem State.endsUnlessFull_of_check {p r : Nat} {code : Cell} {answer : Result}
    (ha : answer = .next (if s.overflows p r then s.cleared code else t)) : s.endsUnlessFull p r code answer t := by
  subst ha
  refine ⟨fun hroom => ?_, fun hfull => ?_, ?_⟩
  · rw [State.overflows_eq_false hroom]
    rfl
  · rw [State.overflows_eq_true hfull]
    rfl
  · split
    · exact .inr rfl
    · exact .inl rfl

/-! ## Exception entry (R281, R284, R295) -/

/-- Only the two overflows clear the stacks (R281). -/
theorem Exc.clearsStacks_iff (e : Exc) : e.clearsStacks = true ↔ e = .psOverflow ∨ e = .rsOverflow := by
  cases e <;> decide

/-- Settles O11: the table of the codes row by row, and the exceptions that clear. -/
theorem throwCodesAreTheTable : Obligations.ThrowCodesAreTheTable :=
  ⟨rfl, rfl, rfl, rfl, rfl, rfl, Exc.clearsStacks_iff⟩

/-- Settles O12: the overflows clear both stacks, and the push of another code is checked as R287 says. -/
theorem exceptionEntryPushesTheThrowCode : Obligations.ExceptionEntryPushesTheThrowCode := by
  refine ⟨fun s => ⟨s.raise_psOverflow, s.raise_rsOverflow⟩, fun s e hps hrs => ?_⟩
  have hkeeps : e.clearsStacks = false := by
    rw [← Bool.not_eq_true, e.clearsStacks_iff]
    exact not_or.mpr ⟨hps, hrs⟩
  exact State.endsUnlessFull_of_check (congrArg _ (s.raiseFrom_cases s s.ps hkeeps))

/-- Settles O13: an entry clears both stacks under a throw code or pushes its own, and neither touches anything else of
the state left. -/
theorem everyEntryLeavesAThrowCodeOnTop : Obligations.EveryEntryLeavesAThrowCodeOnTop := by
  intro before s ps e
  obtain ⟨e', h⟩ | ⟨-, h⟩ := before.raiseFrom_eq s ps e
  · rw [h]
    exact ⟨rfl, ⟨e', rfl⟩, rfl, rfl, rfl, rfl, rfl, rfl⟩
  · rw [h]
    exact ⟨rfl, ⟨e, rfl⟩, rfl, rfl, rfl, rfl, rfl, rfl⟩

/-! ## Interrupt entry (R300) -/

/-- An interrupt is taken where the extension is present, interrupts are enabled and something is requested. -/
theorem State.interruptTaken_iff (s : State) :
    s.interruptTaken = true ↔ s.cfg.extIrq = true ∧ s.ien = true ∧ s.irqReq ≠ 0x0000#16 := by
  simp only [State.interruptTaken, Bool.and_eq_true, bne_iff_ne, and_assoc]

/-- Where one of the three is missing, none is taken. -/
theorem State.interruptTaken_eq_false (h : ¬(s.cfg.extIrq = true ∧ s.ien = true ∧ s.irqReq ≠ 0x0000#16)) :
    s.interruptTaken = false := by
  rwa [← Bool.not_eq_true, s.interruptTaken_iff]

/-- The push of the return address is checked as R287 says; where it has room the routine starts. -/
theorem State.enterInterrupt_eq (s : State) :
    s.enterInterrupt = if s.overflows s.ps.length (s.rs.length + 1) then s.cleared 0xFFFB#16
      else { s.gone s.ps (s.pc :: s.rs) s.irqReq (some .call) with ien := false, irqAck := true } := by
  rw [State.enterInterrupt, State.raise_rsOverflow]
  rfl

/-! ## The instruction that waits (R74, R306) -/

/-- A blocked instruction is tried again, whatever is requested. -/
theorem State.triesAgain_of_blocked (hw : s.waiting = .blocked) : s.triesAgain = true := by
  rw [State.triesAgain, hw]

/-- After a retry it is tried again unless an interrupt is taken. -/
theorem State.triesAgain_of_retried (hw : s.waiting = .retried) : s.triesAgain = !s.interruptTaken := by
  rw [State.triesAgain, hw]

/-- At a boundary there is nothing to try again. -/
theorem State.triesAgain_of_boundary (hw : s.waiting = .no) : s.triesAgain = false := by
  rw [State.triesAgain, hw]

/-- An interrupt that is taken leaves no instruction to try again, unless it is blocked. -/
theorem State.triesAgain_of_interrupted (hw : s.waiting ≠ .blocked) (hi : s.interruptTaken = true) :
    s.triesAgain = false := by
  cases h : s.waiting with
  | no => exact State.triesAgain_of_boundary h
  | blocked => exact absurd h hw
  | retried => rw [State.triesAgain_of_retried h, hi]; rfl

/-! ## What a step is, case by case (R304, R306, R320, R74, R283, R341) -/

/-- A step at which reset is asserted is the reset. -/
theorem step_of_reset (hr : s.resetAsserted = true) : step s = .next s.latch.reboot := by
  simp [step, State.begin, hr]

/-- A step that tries an instruction again runs it from the instruction register. -/
theorem step_of_triesAgain (hr : s.resetAsserted = false) (ht : s.latch.triesAgain = true) :
    step s = exec (decodeWord s.latch.ir) { s.latch with waiting := .no } := by
  simp [step, State.begin, hr, ht]

/-- A fetch that the bus holds comes before any interrupt. -/
theorem step_of_held (hr : s.resetAsserted = false) (hw : s.latch.waiting = .no) (hf : s.latch.fetchAnswer = .held) :
    step s = .next s.latch := by
  simp [step, State.begin, hr, State.triesAgain_of_boundary hw, hw, hf]

/-- An interrupt is taken where the core is not blocked. -/
theorem step_of_interrupt (hr : s.resetAsserted = false) (hw : s.latch.waiting ≠ .blocked)
    (hf : s.latch.waiting = .no → s.latch.fetchAnswer ≠ .held) (hi : s.latch.interruptTaken = true) :
    step s = .next { s.latch with waiting := .no }.enterInterrupt := by
  have hheld : ¬(s.latch.waiting = .no ∧ s.latch.fetchAnswer = .held) := fun ⟨hw, hf'⟩ => hf hw hf'
  simp [step, State.begin, hr, State.triesAgain_of_interrupted hw hi, hheld, hi]

/-- A fetch that the bus asks to make again. -/
theorem step_of_retry (hr : s.resetAsserted = false) (hw : s.latch.waiting = .no)
    (hi : s.latch.interruptTaken = false) (hf : s.latch.fetchAnswer = .retry) : step s = .next s.latch := by
  simp [step, State.begin, hr, State.triesAgain_of_boundary hw, hi, hf]

/-- A fetch that faults. -/
theorem step_of_fetchFault (hr : s.resetAsserted = false) (hw : s.latch.waiting = .no)
    (hi : s.latch.interruptTaken = false) (hf : s.latch.fetchAnswer = .answered)
    (hv : s.latch.cfg.valid s.latch.pc .fetch = false) : step s = .next (s.latch.raise .addressOutOfRange) := by
  simp [step, State.begin, hr, State.triesAgain_of_boundary hw, hi, hf, hv]

/-- Otherwise the step runs the word fetched. -/
theorem step_of_fetches (hr : s.resetAsserted = false) (hw : s.latch.waiting = .no)
    (hi : s.latch.interruptTaken = false) (hf : s.latch.fetchAnswer = .answered)
    (hv : s.latch.cfg.valid s.latch.pc .fetch = true) :
    step s = exec (decodeWord s.latch.fetchWord) { s.latch with ir := s.latch.fetchWord } := by
  rw [step, State.begin_of_fetches hr hw hi hf hv]
  rfl

/-- Settles O7: the step is the interrupt's entry, and its push is checked as R287 says. -/
theorem interruptEntryAtABoundary : Obligations.InterruptEntryAtABoundary := by
  rintro s t rfl hr hw hf hx hen hreq
  have hi : s.latch.interruptTaken = true := s.latch.interruptTaken_iff.mpr ⟨hx, hen, hreq⟩
  exact State.endsUnlessFull_of_check
    ((step_of_interrupt hr hw hf hi).trans (congrArg _ (State.enterInterrupt_eq _)))

/-- Settles O8: nothing comes before the fetch, and the fetch faults. -/
theorem fetchFaultTakesTheException : Obligations.FetchFaultTakesTheException := by
  rintro s t rfl hr hw hf hi hv
  exact step_of_fetchFault hr hw (State.interruptTaken_eq_false hi) hf hv

/-- Settles O10: a blocked instruction and a held fetch come before the interrupt, a retried access and fetch after
it. -/
theorem waitingInstructionAndFetchAreTriedAgain : Obligations.WaitingInstructionAndFetchAreTriedAgain := by
  rintro s t rfl hr
  refine ⟨fun hw => step_of_triesAgain hr (State.triesAgain_of_blocked hw), step_of_held hr,
    fun hi => ⟨fun hw => ?_, fun hw => step_of_retry hr hw (State.interruptTaken_eq_false hi)⟩⟩
  refine step_of_triesAgain hr ?_
  rw [State.triesAgain_of_retried hw, State.interruptTaken_eq_false hi]
  rfl

/-- Settles O9: the fields of the state after power-up, and the reset that a step at which it is asserted is. -/
theorem resetHoldsTheResetIndicator : Obligations.ResetHoldsTheResetIndicator := by
  refine ⟨⟨rfl, rfl, rfl, rfl, rfl, rfl, rfl, rfl⟩, ?_⟩
  rintro s t rfl hr
  exact ⟨0x0000#16, none, step_of_reset hr⟩

/-! ## The word fetched (R65) -/

/-- A word of memory is its two bytes, put together in the machine's order. -/
theorem State.readWord_of_bytes {a : Cell} {b0 b1 : Byte} (k : Access) (hd : s.cfg.isDevice a = false)
    (h0 : Memory.byte? s.mem (2 * a.toNat) = some b0) (h1 : Memory.byte? s.mem (2 * a.toNat + 1) = some b1) :
    s.readWord k a = bytesWord s.cfg.byteOrder b0 b1 := by
  simp [State.readWord, State.readByte, hd, h0, h1]

/-- Two bytes decode to the instruction of their word. -/
theorem decode_two_bytes {o : ByteOrder} {b0 b1 : Byte} {i : Instr} (h : decode o [b0, b1] = .ok (i, [])) :
    decodeWord (bytesWord o b0 b1) = i := by
  rw [decode] at h
  cases h
  rfl

/-- Settles O5: nothing comes before the fetch, and the word fetched is memory's, whose bytes decode to the
instruction. -/
theorem stepRunsTheDecodedInstruction : Obligations.StepRunsTheDecodedInstruction := by
  rintro s t b0 b1 i rfl hr hw hf hi hv hd hahead h0 h1 hdecode
  have hword : s.latch.fetchWord = bytesWord s.latch.cfg.byteOrder b0 b1 :=
    (State.fetchWord_of_not_ahead hahead).trans (State.readWord_of_bytes .fetch hd h0 h1)
  rw [step_of_fetches hr hw (State.interruptTaken_eq_false hi) hf hv, hword, decode_two_bytes hdecode]

end Sys2Proof.Machine
end

section
/-!
PROOFS. The hazard of a store into the words that may have been fetched ahead (spec/70_reset_and_hazards.md R330).
-/

namespace Sys2Proof.Machine

variable {s t : State} {a v : Cell}

/-- A list read at any place, with a default, gives the default or one of its entries. -/
theorem getD_mem_cons (l : List Cell) (n : Nat) (d : Cell) : l.getD n d ∈ d :: l := by
  rw [List.getD_eq_getElem?_getD]
  cases h : l[n]? with
  | none => exact List.mem_cons_self
  | some x => exact List.mem_cons_of_mem d (List.mem_of_getElem? h)

/-- The word that executes is memory's, or one that was fetched ahead for its address. -/
theorem State.fetchWord_eq_or_mem (s : State) :
    s.fetchWord = s.readWord .fetch s.pc ∨ (s.pc, s.fetchWord) ∈ s.stash := by
  have hahead : ∀ w ∈ s.readWord .fetch s.pc :: (s.stash.filter fun c => c.1 = s.pc).map (·.2),
      w = s.readWord .fetch s.pc ∨ (s.pc, w) ∈ s.stash := by
    intro w hw
    refine (List.mem_cons.mp hw).imp_right fun hw => ?_
    obtain ⟨⟨a, w⟩, hc, rfl⟩ := List.mem_map.mp hw
    obtain ⟨hmem, ha⟩ := List.mem_filter.mp hc
    obtain rfl : a = s.pc := of_decide_eq_true ha
    exact hmem
  refine hahead _ ?_
  unfold State.fetchWord
  split
  · exact List.mem_cons_self
  · exact getD_mem_cons ..

/-- What may have been fetched ahead after a store: what was, and the word that stood there (R330). -/
theorem State.storeWord_stash (s : State) (a v : Cell) :
    (s.storeWord a v).stash =
      if a = s.pc + 1#16 ∨ a = s.pc + 2#16 then (a, s.readWord .fetch a) :: s.stash else s.stash := by
  unfold State.storeWord; split <;> rfl

/-- Memory's word at the address of a store is the one stored, for as long as nothing else is written. -/
theorem State.readWord_of_stored (hd : s.cfg.isDevice a = false) (hcfg : t.cfg = s.cfg)
    (hmem : t.mem = (s.putWord a v).mem) (k : Access) : t.readWord k a = v := by
  rw [State.putWord_mem, hd, if_neg Bool.false_ne_true, ← hcfg] at hmem
  exact State.readWord_of_mem_eq_putWord k (by rw [hcfg, hd]) hmem

/-- The word that executes at the address of a store, as long as nothing else is written or fetched ahead: the one
stored, the one that stood there, or one fetched there still earlier. -/
theorem State.fetchWord_of_stored (hd : s.cfg.isDevice a = false) (hpc : t.pc = a) (hcfg : t.cfg = s.cfg)
    (hmem : t.mem = (s.putWord a v).mem) (hstash : t.stash ⊆ (s.storeWord a v).stash) :
    t.fetchWord = v ∨ t.fetchWord = s.readWord .fetch a ∨ (a, t.fetchWord) ∈ s.stash := by
  subst hpc
  refine t.fetchWord_eq_or_mem.imp (·.trans (State.readWord_of_stored hd hcfg hmem .fetch)) fun hahead => ?_
  have hkept := hstash hahead
  rw [State.storeWord_stash] at hkept
  split at hkept
  · exact (List.mem_cons.mp hkept).imp_left fun h => (Prod.mk.inj h).2
  · exact .inr hkept

/-- Where nothing was fetched ahead at the address of a store, the word stored executes. -/
theorem State.fetchWord_of_stored_not_ahead (hd : s.cfg.isDevice a = false) (hpc : t.pc = a) (hcfg : t.cfg = s.cfg)
    (hmem : t.mem = (s.putWord a v).mem) (hstash : ∀ c ∈ t.stash, c.1 ≠ a) : t.fetchWord = v := by
  subst hpc
  exact (State.fetchWord_of_not_ahead hstash).trans (State.readWord_of_stored hd hcfg hmem .fetch)

/-- A store leaves the parameters. -/
theorem State.storeWord_cfg (s : State) (a v : Cell) : (s.storeWord a v).cfg = s.cfg := by
  rw [State.storeWord_eq]

/-- A store leaves the program counter. -/
theorem State.storeWord_pc (s : State) (a v : Cell) : (s.storeWord a v).pc = s.pc := by
  rw [State.storeWord_eq]

/-- Going on to the next word fetches nothing ahead. -/
theorem State.advance_stash_subset (s : State) : s.advance.stash ⊆ s.stash :=
  List.filter_subset_self _

/-- Settles O48: going on by one word or two leaves memory and at most what was fetched ahead; a store elsewhere keeps
nothing, and a change of flow discards everything. -/
theorem storeIntoFetchedAheadWords : Obligations.StoreIntoFetchedAheadWords := by
  intro s a v hd
  have hcfg := s.storeWord_cfg a v
  have hpc := s.storeWord_pc a v
  have hmem := s.storeWord_mem a v
  refine ⟨fun ha => ?_, fun ha => ?_, fun h1 h2 => ?_, fun tag => ?_⟩
  · exact State.fetchWord_of_stored (t := (s.storeWord a v).advance) hd (by rw [State.advance_pc, hpc, ha]) hcfg hmem
      (State.advance_stash_subset _)
  · exact State.fetchWord_of_stored (t := (s.storeWord a v).advance.advance) hd
      (by rw [State.advance_pc, State.advance_pc, hpc, ha, BitVec.add_assoc]; rfl) hcfg hmem
      (List.Subset.trans (State.advance_stash_subset _) (State.advance_stash_subset _))
  · have hstash : (s.storeWord a v).stash = s.stash := by
      rw [State.storeWord_stash, if_neg (not_or.mpr ⟨h1, h2⟩)]
    refine ⟨hstash, fun hahead => State.fetchWord_of_stored_not_ahead hd rfl hcfg hmem ?_⟩
    rw [hstash]
    exact hahead
  · exact State.fetchWord_of_stored_not_ahead hd rfl hcfg hmem (by simp)

end Sys2Proof.Machine
end
